-- ==== Sys2Proof/Word.lean ====
section
/-! DEFINITION. The bit vectors of the pompom PPM core: command words, bytes, 64-bit registers and keys,
256-bit bitmaps, and the bit operations on a bitmap. -/

namespace Sys2Proof

/-- A word of the command port (30_encoding.md R90). -/
abbrev Word := BitVec 32

/-- A byte of either byte port, or of the text window (20_memory.md R75). -/
abbrev Byte := BitVec 8

/-- A 64-bit register, or the 64-bit operand of formats K and KI (30_encoding.md R96). -/
abbrev Reg := BitVec 64

/-- A context key (40_table.md R120). -/
abbrev Key := BitVec 64

/-- A set of byte symbols: a follower bitmap, dist_check or exclude_mask (10_state.md R30, R40, R41). -/
abbrev Bitmap := BitVec 256

/-- Bitmap `v` with bit `c` set, every other bit unchanged (20_memory.md R73). -/
def setBit (v : Bitmap) (c : Nat) : Bitmap := v ||| (1#256 <<< c)

/-- Bitmap `v` with bit `c` cleared, every other bit unchanged (20_memory.md R73). -/
def clearBit (v : Bitmap) (c : Nat) : Bitmap := v &&& ~~~(1#256 <<< c)

/-- Word `w` of a bitmap, bits 64w+63 down to 64w (40_table.md R133). -/
def bitmapWord (v : Bitmap) (w : Nat) : Reg := v.extractLsb' (64 * w) 64

/-- A single bit as an unsigned 64-bit value (`zext_64` of a flag). -/
def flag64 (b : Bool) : Reg := if b then 1#64 else 0#64

end Sys2Proof
end

