-- ==== Sys2Proof/Syntax.lean ====
section
/-! DEFINITION. The commands of the pompom-core command set, revision 1: one constructor for each row of the
opcode map (30_encoding.md R98), with the operands its format gives it (R92 to R97). -/

namespace Sys2Proof

/-- A command. Operands have the widths of the fields that carry them; a range narrower than the field is the
command's own check (a recorded fault), but for the illegal selectors of R100, which `WellFormed` excludes. -/
inductive Instr where
  /-- 0x00, format N (44_control.md R280). -/
  | nop
  /-- 0x01, format C: O, B, BOOT and ADAPT (44_control.md R283). -/
  | init (o : BitVec 4) (b : BitVec 12) (boot : BitVec 8) (adapt : BitVec 8)
  /-- 0x02, format I: register selector (44_control.md R286). -/
  | rdReg (sel : BitVec 24)
  /-- 0x03, format I: index into the distribution array (44_control.md R287). -/
  | rdDist (idx : BitVec 24)
  /-- 0x04, format I: word of dist_check (44_control.md R288). -/
  | rdDchk (idx : BitVec 24)
  /-- 0x05, format I: word of exclude_mask (44_control.md R289). -/
  | rdExcl (idx : BitVec 24)
  /-- 0x06, format I: index into the text window (44_control.md R290). -/
  | rdWin (idx : BitVec 24)
  /-- 0x10, format K (40_table.md R150). -/
  | tblContains (key : Key)
  /-- 0x11, format K (40_table.md R151). -/
  | tblCount (key : Key)
  /-- 0x12, format K (40_table.md R152). -/
  | tblInsert (key : Key)
  /-- 0x13, format K (40_table.md R153). -/
  | tblSeen (key : Key)
  /-- 0x14, format KI: key and bitmap word (40_table.md R154). -/
  | tblFollower (sel : BitVec 2) (key : Key)
  /-- 0x15, format N (40_table.md R155). -/
  | tblRescale
  /-- 0x16, format N (40_table.md R156). -/
  | tblReset
  /-- 0x17, format N (40_table.md R157). -/
  | tblFull
  /-- 0x18, format KI: slot index and field (40_table.md R160). -/
  | tblPeek (sel : BitVec 2) (slot : Reg)
  /-- 0x19, format KI: value to hash and hash function (40_table.md R161). -/
  | tblHash (sel : BitVec 2) (key : Key)
  /-- 0x20, format O: the 4-bit two's complement order (41_modeller.md R200). -/
  | mdlDist (ordf : BitVec 4)
  /-- 0x21, format S (41_modeller.md R201). -/
  | mdlUpdate (sym : BitVec 9)
  /-- 0x30, format N (42_coder.md R230). -/
  | encStart
  /-- 0x31, format S (42_coder.md R231). -/
  | encSym (sym : BitVec 9)
  /-- 0x32, format N (42_coder.md R232). -/
  | encFinish
  /-- 0x38, format N (42_coder.md R240). -/
  | decStart
  /-- 0x39, format N (42_coder.md R245). -/
  | decSym
  /-- 0x3A, format N (42_coder.md R247). -/
  | decTrailer
  /-- 0x40, format S (43_bitio.md R270). -/
  | bitPut (sym : BitVec 9)
  /-- 0x41, format N (43_bitio.md R271). -/
  | bitFlush
  /-- 0x42, format N (43_bitio.md R272). -/
  | bitGet
  /-- 0x43, format S (43_bitio.md R273). -/
  | rawPut (sym : BitVec 9)
  /-- 0x44, format N (43_bitio.md R274). -/
  | rawGet
deriving DecidableEq, Repr

end Sys2Proof
end

