-- ==== Sys2Proof/WellFormed.lean ====
section
/-! DEFINITION. Which commands have an encoding: every one but those with a selector that 30_encoding.md R100
makes illegal. -/

namespace Sys2Proof

/-- TBL_PEEK's field selector is legal: 0 key, 1 count, 2 fidx; 3 is illegal (40_table.md R160, 30_encoding.md R100). -/
def peekSelLegal (sel : BitVec 2) : Bool := sel != 3#2

/-- TBL_HASH's selector is legal: 0 for h1, 1 for h2; 2 and 3 are illegal (40_table.md R161, 30_encoding.md R100). -/
def hashSelLegal (sel : BitVec 2) : Bool := decide (sel.toNat < 2)

/-- The command has an encoding that the core accepts as legal (30_encoding.md R100). -/
def Instr.wellFormed : Instr → Bool
  | .nop => true
  | .init _ _ _ _ => true
  | .rdReg _ => true
  | .rdDist _ => true
  | .rdDchk _ => true
  | .rdExcl _ => true
  | .rdWin _ => true
  | .tblContains _ => true
  | .tblCount _ => true
  | .tblInsert _ => true
  | .tblSeen _ => true
  | .tblFollower _ _ => true
  | .tblRescale => true
  | .tblReset => true
  | .tblFull => true
  | .tblPeek sel _ => peekSelLegal sel
  | .tblHash sel _ => hashSelLegal sel
  | .mdlDist _ => true
  | .mdlUpdate _ => true
  | .encStart => true
  | .encSym _ => true
  | .encFinish => true
  | .decStart => true
  | .decSym => true
  | .decTrailer => true
  | .bitPut _ => true
  | .bitFlush => true
  | .bitGet => true
  | .rawPut _ => true
  | .rawGet => true

end Sys2Proof
end

