-- ==== Sys2Proof/Decode.lean ====
section
/-! DEFINITION. The decoder of 30_encoding.md R90 to R101, total on any list of words and rejecting by name, and after it
the encoder written from the same formats. -/

namespace Sys2Proof

/-- Why a list of words is no command. The core records each but `badFraming` as the fault ILLEGAL (60_exceptions.md
R304); `badFraming` is answered only for a list that is not one whole command, which the command port never hands over. -/
inductive DecodeError where
  /-- Not the number of words that 30_encoding.md R91 gives the opcode. -/
  | badFraming
  /-- An opcode outside the map (30_encoding.md R99). -/
  | unassignedOpcode (op : BitVec 8)
  /-- A reserved bit is 1 (30_encoding.md R100). -/
  | reservedBits (mnemonic : String)
  /-- An illegal selector of TBL_PEEK or TBL_HASH (30_encoding.md R100). -/
  | illegalSelector (mnemonic : String)
deriving DecidableEq, Repr

/-- The opcode of a first word, bits 31:24 (30_encoding.md R90). -/
def opcode (w0 : Word) : BitVec 8 := w0.extractLsb' 24 8

/-- The number of words of a command, fixed by its opcode alone (30_encoding.md R91). -/
def commandLength (op : BitVec 8) : Nat :=
  match op.toNat with
  | 0x10 | 0x11 | 0x12 | 0x13 | 0x14 | 0x18 | 0x19 => 3
  | 0x01 => 2
  | _ => 1

/-- Format N: bits 23:0 are reserved (30_encoding.md R92). -/
def formatN (mnemonic : String) (i : Instr) (w0 : Word) : Except DecodeError Instr :=
  if w0.extractLsb' 0 24 = 0#24 then .ok i else .error (.reservedBits mnemonic)

/-- Format S: the symbol in bits 8:0, bits 23:9 reserved (30_encoding.md R93). -/
def formatS (mnemonic : String) (f : BitVec 9 → Instr) (w0 : Word) : Except DecodeError Instr :=
  if w0.extractLsb' 9 15 = 0#15 then .ok (f (w0.extractLsb' 0 9)) else .error (.reservedBits mnemonic)

/-- Format I: the index in bits 23:0 (30_encoding.md R94). -/
def formatI (f : BitVec 24 → Instr) (w0 : Word) : Except DecodeError Instr :=
  .ok (f (w0.extractLsb' 0 24))

/-- Format O: the order field in bits 3:0, bits 23:4 reserved (30_encoding.md R95). -/
def formatO (mnemonic : String) (f : BitVec 4 → Instr) (w0 : Word) : Except DecodeError Instr :=
  if w0.extractLsb' 4 20 = 0#20 then .ok (f (w0.extractLsb' 0 4)) else .error (.reservedBits mnemonic)

/-- Format C: bits 23:0 of the first word reserved, the four fields in the second (30_encoding.md R97). -/
def formatC (mnemonic : String) (f : BitVec 4 → BitVec 12 → BitVec 8 → BitVec 8 → Instr) (w0 w1 : Word) :
    Except DecodeError Instr :=
  if w0.extractLsb' 0 24 = 0#24 then
    .ok (f (w1.extractLsb' 28 4) (w1.extractLsb' 16 12) (w1.extractLsb' 8 8) (w1.extractLsb' 0 8))
  else .error (.reservedBits mnemonic)

/-- Format K: bits 23:0 of the first word reserved, then the operand, bits 63:32 first (30_encoding.md R96). -/
def formatK (mnemonic : String) (f : BitVec 64 → Instr) (w0 w1 w2 : Word) : Except DecodeError Instr :=
  if w0.extractLsb' 0 24 = 0#24 then .ok (f (w1 ++ w2)) else .error (.reservedBits mnemonic)

/-- Format KI: the selector in bits 1:0, bits 23:2 reserved, then the operand, bits 63:32 first (30_encoding.md R96);
a selector that R100 makes illegal is refused. -/
def formatKI (mnemonic : String) (legal : BitVec 2 → Bool) (f : BitVec 2 → BitVec 64 → Instr) (w0 w1 w2 : Word) :
    Except DecodeError Instr :=
  if w0.extractLsb' 2 22 = 0#22 then
    if legal (w0.extractLsb' 0 2) then .ok (f (w0.extractLsb' 0 2) (w1 ++ w2))
    else .error (.illegalSelector mnemonic)
  else .error (.reservedBits mnemonic)

/-- A command of one word, by its opcode (30_encoding.md R98, R99). -/
def decodeOne (w0 : Word) : Except DecodeError Instr :=
  match (opcode w0).toNat with
  | 0x00 => formatN "NOP" .nop w0
  | 0x02 => formatI .rdReg w0
  | 0x03 => formatI .rdDist w0
  | 0x04 => formatI .rdDchk w0
  | 0x05 => formatI .rdExcl w0
  | 0x06 => formatI .rdWin w0
  | 0x15 => formatN "TBL_RESCALE" .tblRescale w0
  | 0x16 => formatN "TBL_RESET" .tblReset w0
  | 0x17 => formatN "TBL_FULL" .tblFull w0
  | 0x20 => formatO "MDL_DIST" .mdlDist w0
  | 0x21 => formatS "MDL_UPDATE" .mdlUpdate w0
  | 0x30 => formatN "ENC_START" .encStart w0
  | 0x31 => formatS "ENC_SYM" .encSym w0
  | 0x32 => formatN "ENC_FINISH" .encFinish w0
  | 0x38 => formatN "DEC_START" .decStart w0
  | 0x39 => formatN "DEC_SYM" .decSym w0
  | 0x3A => formatN "DEC_TRAILER" .decTrailer w0
  | 0x40 => formatS "BIT_PUT" .bitPut w0
  | 0x41 => formatN "BIT_FLUSH" .bitFlush w0
  | 0x42 => formatN "BIT_GET" .bitGet w0
  | 0x43 => formatS "RAW_PUT" .rawPut w0
  | 0x44 => formatN "RAW_GET" .rawGet w0
  | _ => .error (.unassignedOpcode (opcode w0))

/-- A command of two words: INIT alone (30_encoding.md R91). -/
def decodeTwo (w0 w1 : Word) : Except DecodeError Instr :=
  match (opcode w0).toNat with
  | 0x01 => formatC "INIT" .init w0 w1
  | _ => .error .badFraming

/-- A command of three words: formats K and KI (30_encoding.md R91). -/
def decodeThree (w0 w1 w2 : Word) : Except DecodeError Instr :=
  match (opcode w0).toNat with
  | 0x10 => formatK "TBL_CONTAINS" .tblContains w0 w1 w2
  | 0x11 => formatK "TBL_COUNT" .tblCount w0 w1 w2
  | 0x12 => formatK "TBL_INSERT" .tblInsert w0 w1 w2
  | 0x13 => formatK "TBL_SEEN" .tblSeen w0 w1 w2
  | 0x14 => formatKI "TBL_FOLLOWER" (fun _ => true) .tblFollower w0 w1 w2
  | 0x18 => formatKI "TBL_PEEK" peekSelLegal .tblPeek w0 w1 w2
  | 0x19 => formatKI "TBL_HASH" hashSelLegal .tblHash w0 w1 w2
  | _ => .error .badFraming

/-- The command that a list of words is, first word first; total on every list. A list whose length is not the one
30_encoding.md R91 gives its opcode is `badFraming`. -/
def decode : List Word → Except DecodeError Instr
  | [w0] => if commandLength (opcode w0) = 1 then decodeOne w0 else .error .badFraming
  | [w0, w1] => decodeTwo w0 w1
  | [w0, w1, w2] => decodeThree w0 w1 w2
  | _ => .error .badFraming

/-- The instruction the decoder reads from a command whose bits are `w`, first word in bits 31:0, every bit from `nbits`
on 0 (opcode_table.json's numbering). The core takes as many words as the opcode calls for (30_encoding.md R91). -/
def tableWords (nbits w : Nat) : List Word :=
  let v := w % 2 ^ nbits
  let w0 := BitVec.ofNat 32 v
  [w0, BitVec.ofNat 32 (v / 2 ^ 32), BitVec.ofNat 32 (v / 2 ^ 64)].take (commandLength (opcode w0))

/-- What the decoder gives for the words of `tableWords`; none where it refuses. -/
def decodeTableWord (nbits w : Nat) : Option Instr :=
  match decode (tableWords nbits w) with
  | .ok i => some i
  | .error _ => none

/-! The encoder, from the same formats. -/

/-- A first word: the opcode in bits 31:24 and the rest below it (30_encoding.md R90). -/
def firstWord (op : BitVec 8) (low : BitVec 24) : Word := op ++ low

/-- Format N (30_encoding.md R92). -/
def encodeN (op : BitVec 8) : List Word := [firstWord op 0#24]

/-- Format S (30_encoding.md R93). -/
def encodeS (op : BitVec 8) (sym : BitVec 9) : List Word := [firstWord op (0#15 ++ sym)]

/-- Format I (30_encoding.md R94). -/
def encodeI (op : BitVec 8) (idx : BitVec 24) : List Word := [firstWord op idx]

/-- Format O (30_encoding.md R95). -/
def encodeO (op : BitVec 8) (ordf : BitVec 4) : List Word := [firstWord op (0#20 ++ ordf)]

/-- Format C (30_encoding.md R97). -/
def encodeC (op : BitVec 8) (o : BitVec 4) (b : BitVec 12) (boot adapt : BitVec 8) : List Word :=
  [firstWord op 0#24, (o ++ b) ++ (boot ++ adapt)]

/-- Format K (30_encoding.md R96). -/
def encodeK (op : BitVec 8) (arg : BitVec 64) : List Word :=
  [firstWord op 0#24, arg.extractLsb' 32 32, arg.extractLsb' 0 32]

/-- Format KI (30_encoding.md R96). -/
def encodeKI (op : BitVec 8) (sel : BitVec 2) (arg : BitVec 64) : List Word :=
  [firstWord op (0#22 ++ sel), arg.extractLsb' 32 32, arg.extractLsb' 0 32]

/-- The words of a command, first word first (30_encoding.md R98). -/
def encode : Instr → List Word
  | .nop => encodeN 0x00#8
  | .init o b boot adapt => encodeC 0x01#8 o b boot adapt
  | .rdReg sel => encodeI 0x02#8 sel
  | .rdDist idx => encodeI 0x03#8 idx
  | .rdDchk idx => encodeI 0x04#8 idx
  | .rdExcl idx => encodeI 0x05#8 idx
  | .rdWin idx => encodeI 0x06#8 idx
  | .tblContains key => encodeK 0x10#8 key
  | .tblCount key => encodeK 0x11#8 key
  | .tblInsert key => encodeK 0x12#8 key
  | .tblSeen key => encodeK 0x13#8 key
  | .tblFollower sel key => encodeKI 0x14#8 sel key
  | .tblRescale => encodeN 0x15#8
  | .tblReset => encodeN 0x16#8
  | .tblFull => encodeN 0x17#8
  | .tblPeek sel slot => encodeKI 0x18#8 sel slot
  | .tblHash sel key => encodeKI 0x19#8 sel key
  | .mdlDist ordf => encodeO 0x20#8 ordf
  | .mdlUpdate sym => encodeS 0x21#8 sym
  | .encStart => encodeN 0x30#8
  | .encSym sym => encodeS 0x31#8 sym
  | .encFinish => encodeN 0x32#8
  | .decStart => encodeN 0x38#8
  | .decSym => encodeN 0x39#8
  | .decTrailer => encodeN 0x3A#8
  | .bitPut sym => encodeS 0x40#8 sym
  | .bitFlush => encodeN 0x41#8
  | .bitGet => encodeN 0x42#8
  | .rawPut sym => encodeS 0x43#8 sym
  | .rawGet => encodeN 0x44#8

end Sys2Proof
end

