-- ==== Sys2Proof/Machine/Constants.lean ====
section
/-! DEFINITION. The fixed constants of 00_scope.md R9 and R11. -/

namespace Sys2Proof.Machine

/-- The ESCAPE symbol (00_scope.md R9). -/
abbrev escapeSym : Nat := 256

/-- The END-OF-STREAM symbol (00_scope.md R9). -/
abbrev eosSym : Nat := 257

/-- TOP = 2^32 - 1 (00_scope.md R9). -/
abbrev top : Reg := 0xFFFFFFFF#64

/-- QTR = 2^30 (00_scope.md R9). -/
abbrev qtr : Reg := 0x40000000#64

/-- HALF = 2^31 (00_scope.md R9). -/
abbrev half : Reg := 0x80000000#64

/-- 3QTR = 3 * 2^30 (00_scope.md R9). -/
abbrev threeQtr : Reg := 0xC0000000#64

/-- MAX_FREQ = 2^16 - 1 (00_scope.md R9). -/
abbrev maxFreq : Nat := 65535

/-- CODER_RESCALE = MAX_FREQ (00_scope.md R9). -/
abbrev coderRescale : Nat := 65535

/-- MAX_KICKS (00_scope.md R9). -/
abbrev maxKicks : Nat := 10000

/-- VISIT_MAX, the entries of the visit list (00_scope.md R11). -/
abbrev visitMax : Nat := 7

/-- WIN_MAX, the bytes of text-window storage (00_scope.md R11). -/
abbrev winMax : Nat := 261120

/-- The length of the distribution array, EOS + 2 (00_scope.md R9). -/
abbrev distLen : Nat := 259

/-- The root context, the key of length 0 (40_table.md R120). -/
abbrev root : Key := 0x8000000000000000#64

end Sys2Proof.Machine
end

