-- ==== Sys2Proof/Config.lean ====
section
/-! DEFINITION. What an implementation fixes (the build parameters of 00_scope.md R10 and R11) and the free values: what
the spec leaves open after a command that goes on. -/

namespace Sys2Proof

/-- The build-time hash selection (00_scope.md R10). -/
inductive HashSel where
  /-- The CRC-32C pair (40_table.md R125). -/
  | crc32c
  /-- FNV-1a for h1 and Jenkins one-at-a-time for h2 (40_table.md R126). -/
  | fnvj
deriving DecidableEq, Repr

/-- The build parameters of one core. No command reads or writes them (10_state.md R54, log entry 5). -/
structure Build where
  /-- HASH_SEL (00_scope.md R10). -/
  hashSel : HashSel
  /-- MEM_MAX_MIB, the largest B the table memories can hold (00_scope.md R11). -/
  memMaxMib : Nat
deriving DecidableEq, Repr

/-- The build that 00_scope.md names when a model must pick one: CRC32C (R10) and 2048 MiB (R11). -/
def Build.default : Build := { hashSel := .crc32c, memMaxMib := 2048 }

/-- DESIGN CHOICE (log entry 8). The value a 64-bit event counter takes when it counts past 2^64 - 1: the spec states
none (00_scope.md R12, 92_eei_decisions.md D32). The argument numbers the draws, so that no two need agree. -/
opaque Config.counterPastMax : Nat → Reg

end Sys2Proof
end

