-- ==== Sys2Proof/Machine/State.lean ====
section
/-! DEFINITION. The architectural state of the core as plain data (10_state.md), the reasons a step can stop, and the
state at power-on. -/

namespace Sys2Proof.Machine

/-- An internal memory of whole `w`-bit elements indexed from 0 (20_memory.md R70): (index, element) pairs, indices
strictly rising, no element equal to what an unlisted index reads as (`Memory.blank`). -/
abbrev Memory (w : Nat) := List (Nat × BitVec w)

/-- What an unlisted element reads as: 0, the value table reset and INIT write (40_table.md R137, 10_state.md R56; for
power-on see log entry 7). -/
abbrev Memory.blank (w : Nat) : BitVec w := 0#w

/-- The cuckoo_hash_table with its sizes (10_state.md R25, R27 to R32). -/
structure Table where
  /-- S.N, the number of slots (R25). -/
  n : BitVec 32
  /-- S.M, the number of follower bitmaps (R25). -/
  m : BitVec 32
  /-- S.key, 0 for an empty slot (R27). -/
  key : Memory 64
  /-- S.count (R28). -/
  count : Memory 16
  /-- S.fidx, 0 for none (R29). -/
  fidx : Memory 32
  /-- S.pool, the follower bitmaps (R30). -/
  pool : Memory 256
  /-- S.next_free, the next pool index to hand out (R31). -/
  nextFree : BitVec 32
  /-- S.is_full, the saturation flag (R32). -/
  isFull : Bool
deriving DecidableEq, Repr

/-- The ppm_modeller (10_state.md R25, R33 to R42). -/
structure Modeller where
  /-- S.H, the capacity of the text window (R25). -/
  h : BitVec 18
  /-- S.adapt_thr, the fast-adaptation threshold (R25). -/
  adaptThr : BitVec 33
  /-- S.win, oldest byte first; S.win_len is its length (R33, log entry 6). -/
  win : List Byte
  /-- S.visit, first key pushed first; S.visit_len is its length (R34, log entry 6). -/
  visit : List Key
  /-- S.outscale, a rescale is pending (R35). -/
  outscale : Bool
  /-- S.sum_esc (R36). -/
  sumEsc : Reg
  /-- S.last_run (R37). -/
  lastRun : BitVec 32
  /-- S.latest_run (R37). -/
  latestRun : BitVec 32
  /-- S.boot_en, bootstrap replay is configured and not disabled (R38). -/
  bootEn : Bool
  /-- S.dist[0..258], the cumulative frequencies (R39). -/
  dist : Memory 32
  /-- S.dchk, dist_check (R40). -/
  dchk : Bitmap
  /-- S.excl, exclude_mask (R41). -/
  excl : Bitmap
  /-- S.sat_count, saturation events since INIT (R42). -/
  satCount : Reg
deriving DecidableEq, Repr

/-- The encoder half of the arithmetic_coder (10_state.md R43 to R46). -/
structure Encoder where
  /-- S.e_low (R43). -/
  low : Reg
  /-- S.e_high (R43). -/
  high : Reg
  /-- S.btf, bits_to_follow (R44). -/
  btf : Reg
  /-- S.outcnt, bytes delivered by the bit writer since ENC_START (R45). -/
  outcnt : Reg
  /-- S.enc_active (R46). -/
  active : Bool
deriving DecidableEq, Repr

/-- The decoder half of the arithmetic_coder (10_state.md R47 to R51). -/
structure Decoder where
  /-- S.d_low (R47). -/
  low : Reg
  /-- S.d_high (R47). -/
  high : Reg
  /-- S.d_value (R47). -/
  value : Reg
  /-- S.d_shifts, renormalisation shifts since DEC_START (R48). -/
  shifts : Reg
  /-- S.d_fetched, bytes the bit reader has taken since DEC_START (R49). -/
  fetched : Reg
  /-- S.hist, the last four such bytes, newest in bits 7:0 (R49). -/
  hist : BitVec 32
  /-- S.eof, the bit reader or RAW_GET has found the end of the input (R50). -/
  eof : Bool
  /-- S.dec_active (R51). -/
  active : Bool
deriving DecidableEq, Repr

/-- The bit_io unit (10_state.md R52, R53). -/
structure BitIO where
  /-- S.wr_buf, the bits written since the last byte (R52). -/
  wrBuf : Byte
  /-- S.wr_cnt, how many they are (R52). -/
  wrCnt : BitVec 3
  /-- S.rd_buf, the unread bits of the last byte, the next in bit 7 (R53). -/
  rdBuf : Byte
  /-- S.rd_cnt, how many they are, 0 to 8 (R53). -/
  rdCnt : BitVec 4
deriving DecidableEq, Repr

/-- The machine: the spec's registers and the four components, and after them the model's own fields for what stands
outside the core (10_state.md R54). -/
structure State where
  /-- RESULT (10_state.md R22). -/
  result : Reg
  /-- S.cfg (10_state.md R26). -/
  cfg : Bool
  /-- S.fault (10_state.md R26). -/
  fault : Bool
  /-- S.fcode (10_state.md R26). -/
  fcode : BitVec 4
  /-- CONFIG: O in 31:28, B in 27:16, BOOT in 15:8, ADAPT in 7:0 (10_state.md R24). -/
  config : BitVec 32
  /-- The cuckoo_hash_table. -/
  table : Table
  /-- The ppm_modeller. -/
  model : Modeller
  /-- The encoder. -/
  enc : Encoder
  /-- The decoder. -/
  dec : Decoder
  /-- The bit_io unit. -/
  bits : BitIO
  /-- The model's own: the build parameters, which no command writes (log entry 5). -/
  build : Build
  /-- The model's own: command words issued and not yet read, the next first (log entry 2). -/
  port : List Word
  /-- The model's own: the bytes the input port still holds, the next first, then END for ever (log entry 3). -/
  input : List Byte
  /-- The model's own: the record of every `OutByte`, oldest first (log entry 4). -/
  output : List Byte
  /-- The model's own: how many free values have been taken (log entry 8). -/
  draws : Nat
deriving DecidableEq, Repr

/-- The reasons the machine stops with a fault: none. Every fault of the spec is a code the core records and a next
state (60_exceptions.md R302), so no step answers `fault`, and the type is closed without a constructor. -/
inductive Fault where
deriving DecidableEq, Repr

/-- The reasons a command is refused. -/
inductive Refusal where
  /-- Raised by an arm of `exec` whose command has no meaning yet, with its mnemonic; safe, since a refused command
  answers no next state. No arm of this model raises it. -/
  | notModelled (mnemonic : String)
deriving DecidableEq, Repr

/-- The table at power-on: 10_state.md R56 leaves every element unspecified; 0 is the model's choice (log entry 1). -/
def Table.powerOn : Table :=
  { n := 0#32, m := 0#32, key := [], count := [], fidx := [], pool := [], nextFree := 0#32, isFull := false }

/-- The modeller at power-on: unspecified by 10_state.md R56; 0 and empty are the model's choice (log entry 1). -/
def Modeller.powerOn : Modeller :=
  { h := 0#18, adaptThr := 0#33, win := [], visit := [], outscale := false, sumEsc := 0#64, lastRun := 0#32,
    latestRun := 0#32, bootEn := false, dist := [], dchk := 0#256, excl := 0#256, satCount := 0#64 }

/-- The machine after power-on reset (70_reset_and_hazards.md R330, 10_state.md R56): S.cfg, S.fault, S.fcode,
S.enc_active, S.dec_active and S.eof are 0 as the spec says; every other register is unspecified there and 0 here (log
entry 1). Nothing is on the command port, and the input port is at its end. -/
def State.reset : State :=
  { result := 0#64, cfg := false, fault := false, fcode := 0#4, config := 0#32
    table := Table.powerOn
    model := Modeller.powerOn
    enc := { low := 0#64, high := 0#64, btf := 0#64, outcnt := 0#64, active := false }
    dec := { low := 0#64, high := 0#64, value := 0#64, shifts := 0#64, fetched := 0#64, hist := 0#32, eof := false,
             active := false }
    bits := { wrBuf := 0#8, wrCnt := 0#3, rdBuf := 0#8, rdCnt := 0#4 }
    build := Build.default
    port := [], input := [], output := [], draws := 0 }

end Sys2Proof.Machine
end

