-- ==== Sys2Proof/Machine/Ops.lean ====
section
/-! DEFINITION. The named operations every family shares: internal memories (20_memory.md R73), fault entry and exit
(60_exceptions.md R302, R305), the common checks of R304, the command port, the byte ports (20_memory.md R75) and the
event counters. -/

namespace Sys2Proof.Machine

/-! ## Internal memories -/

/-- MemRead: element `i` of a memory (20_memory.md R73). -/
def Memory.read {w : Nat} : Memory w → Nat → BitVec w
  | [], _ => Memory.blank w
  | (a, v) :: rest, i => if a = i then v else Memory.read rest i

/-- The entry for `v` at index `i` before `rest`: none when `v` is what an unlisted element reads as. -/
def Memory.cons {w : Nat} (i : Nat) (v : BitVec w) (rest : Memory w) : Memory w :=
  if v = Memory.blank w then rest else (i, v) :: rest

/-- MemWrite: element `i` becomes `v`, nothing else changes (20_memory.md R73). -/
def Memory.write {w : Nat} : Memory w → Nat → BitVec w → Memory w
  | [], i, v => Memory.cons i v []
  | (a, x) :: rest, i, v =>
    if a < i then (a, x) :: Memory.write rest i v
    else if a = i then Memory.cons i v rest
    else Memory.cons i v ((a, x) :: rest)

/-- MemWrite of 0 to every element below `n` (40_table.md R137); the elements from `n` on keep what they hold. -/
def Memory.clearBelow {w : Nat} (m : Memory w) (n : Nat) : Memory w := m.filter fun e => decide (n ≤ e.1)

/-- MemWrite of `f i (MemRead i)` to every element `i`, for an `f` that leaves a 0 element 0. -/
def Memory.mapElements {w : Nat} (f : Nat → BitVec w → BitVec w) : Memory w → Memory w
  | [] => []
  | (a, v) :: rest => Memory.cons a (f a v) (Memory.mapElements f rest)

/-- Every index of the memory is at least `lo`, indices strictly rise, and no element is the unlisted one. -/
def Memory.wfFrom {w : Nat} : Nat → Memory w → Bool
  | _, [] => true
  | lo, (a, v) :: rest => decide (lo ≤ a) && (v != Memory.blank w) && Memory.wfFrom (a + 1) rest

/-- The canonical form: equal memories are equal lists. -/
def Memory.wf {w : Nat} (m : Memory w) : Bool := Memory.wfFrom 0 m

/-! ## Faults -/

/-- The fault codes that the core can record (60_exceptions.md R300). -/
inductive FaultCode where
  | illegal | config | alloc | notConfigured | badOrder | badSymbol | badKey | zeroFreq | sequence | truncated
  | decInternal | visitOverflow | badIndex
deriving DecidableEq, Repr

/-- The number of a fault code in STATUS.FCODE (60_exceptions.md R300). -/
def faultNumber : FaultCode → BitVec 4
  | .illegal => 1#4
  | .config => 2#4
  | .alloc => 3#4
  | .notConfigured => 4#4
  | .badOrder => 5#4
  | .badSymbol => 6#4
  | .badKey => 7#4
  | .zeroFreq => 8#4
  | .sequence => 9#4
  | .truncated => 10#4
  | .decInternal => 11#4
  | .visitOverflow => 12#4
  | .badIndex => 13#4

/-- Fault entry: the code is recorded and nothing else changes; the core has no vector to go to and nothing to save
(60_exceptions.md R302, R303). -/
def State.raise (s : State) (code : FaultCode) : State := { s with fault := true, fcode := faultNumber code }

/-- Fault exit: an INIT that passes its checks clears the record (60_exceptions.md R305). -/
def State.clearFault (s : State) : State := { s with fault := false, fcode := 0#4 }

/-- The TRUNCATED check at the end of DEC_START, DEC_SYM and DEC_TRAILER: recorded after every write of the command when
the end of the input has been met (60_exceptions.md R303, 43_bitio.md R265). -/
def State.checkTruncated (s : State) : State := if s.dec.eof then s.raise .truncated else s

/-- The common checks of 60_exceptions.md R304 that come after decoding, for every command but NOP and INIT: discarded
while a fault is recorded, NOT_CONFIGURED before INIT, else the command's own pseudocode. -/
def State.command (s : State) (body : State → State) : State :=
  if s.fault then s else if s.cfg then body s else s.raise .notConfigured

/-- A command whose selector 30_encoding.md R100 makes illegal: ILLEGAL comes after the recorded fault and before
NOT_CONFIGURED (60_exceptions.md R304). -/
def State.commandSel (s : State) (legal : Bool) (body : State → State) : State :=
  if s.fault then s else if legal then s.command body else s.raise .illegal

/-- Words that no command has (an unassigned opcode, a reserved bit, an illegal selector): ILLEGAL, or discarded while a
fault is recorded unless the opcode is INIT's (60_exceptions.md R304, R305). -/
def State.rejectWords (s : State) (op : BitVec 8) : State :=
  if s.fault && op != 0x01#8 then s else s.raise .illegal

/-! ## Registers -/

/-- `RESULT <- v` (10_state.md R22). -/
def State.setResult (s : State) (v : Reg) : State := { s with result := v }

/-- The table becomes `t`. -/
def State.setTable (s : State) (t : Table) : State := { s with table := t }

/-- The modeller becomes `m`. -/
def State.setModel (s : State) (m : Modeller) : State := { s with model := m }

/-- The encoder becomes `e`. -/
def State.setEnc (s : State) (e : Encoder) : State := { s with enc := e }

/-- The decoder becomes `d`. -/
def State.setDec (s : State) (d : Decoder) : State := { s with dec := d }

/-- The bit_io unit becomes `b`. -/
def State.setBits (s : State) (b : BitIO) : State := { s with bits := b }

/-- The command port holds `ws` next. -/
def State.setPort (s : State) (ws : List Word) : State := { s with port := ws }

/-! ## Event counters -/

/-- A 64-bit event counter one event later. Past 2^64 - 1 the spec states no value (00_scope.md R12, decision D32): a
free value, the `draws`-th (log entry 8). -/
def countUp (draws : Nat) (x : Reg) : Reg := if x = BitVec.allOnes 64 then Config.counterPastMax draws else x + 1#64

/-- How many free values have been taken after `countUp`. -/
def countDraws (draws : Nat) (x : Reg) : Nat := if x = BitVec.allOnes 64 then draws + 1 else draws

/-- S.btf counts one straddle (42_coder.md R223, R225). -/
def State.countFollow (s : State) : State :=
  { s with enc := { s.enc with btf := countUp s.draws s.enc.btf }, draws := countDraws s.draws s.enc.btf }

/-- S.outcnt counts one byte of the bit writer (43_bitio.md R262). -/
def State.countOutByte (s : State) : State :=
  { s with enc := { s.enc with outcnt := countUp s.draws s.enc.outcnt }, draws := countDraws s.draws s.enc.outcnt }

/-- S.d_shifts counts one decoder shift (42_coder.md R243). -/
def State.countShift (s : State) : State :=
  { s with dec := { s.dec with shifts := countUp s.draws s.dec.shifts }, draws := countDraws s.draws s.dec.shifts }

/-- S.d_fetched counts one byte of the bit reader (43_bitio.md R264). -/
def State.countFetched (s : State) : State :=
  { s with dec := { s.dec with fetched := countUp s.draws s.dec.fetched }, draws := countDraws s.draws s.dec.fetched }

/-- S.sat_count counts one saturation event (41_modeller.md R194, R198). -/
def State.countSaturation (s : State) : State :=
  { s with model := { s.model with satCount := countUp s.draws s.model.satCount }
           draws := countDraws s.draws s.model.satCount }

/-! ## Byte ports -/

/-- OutByte: one byte handed to the host, which accepts it (20_memory.md R75). -/
def State.outByte (s : State) (b : Byte) : State := { s with output := s.output ++ [b] }

/-- InByte: the host's next byte, or `none` for END; END for ever after the last byte (20_memory.md R75,
70_reset_and_hazards.md R347). -/
def State.inByte (s : State) : Option Byte × State :=
  match s.input with
  | [] => (none, s)
  | b :: rest => (some b, { s with input := rest })

/-! ## Command port -/

/-- The words of the next command and the words after it, once all of them are on the port: the core reads w0, takes the
length from its opcode, and reads the extension words before it checks anything (30_encoding.md R91); until they are
there it waits (60_exceptions.md R314, log entry 2). -/
def fetchCommand (port : List Word) : Option (Word × List Word × List Word) :=
  match port with
  | [] => none
  | w0 :: rest =>
    let len := commandLength (opcode w0)
    if len ≤ (w0 :: rest).length then some (w0, (w0 :: rest).take len, (w0 :: rest).drop len) else none

end Sys2Proof.Machine
end

