-- ==== Sys2Proof/Machine/Flags.lean ====
section
/-! DEFINITION. The STATUS register: every field a copy of state the core holds elsewhere (10_state.md R23), so it is a
view and is stored nowhere (log entry 12). -/

namespace Sys2Proof.Machine

/-- STATUS.FCODE: the recorded code, 0 while STATUS.FAULT is 0 (10_state.md R23). -/
def State.statusCode (s : State) : BitVec 4 := if s.fault then s.fcode else 0#4

/-- STATUS (10_state.md R23), written from bit 31 down: 31:14 zero, OUTSCALE, BOOT_EN, EOF, DEC_ACTIVE, ENC_ACTIVE, FULL,
FCODE in 7:4, 3:2 zero, FAULT, CFG. -/
def State.status (s : State) : BitVec 32 :=
  (((0#18 ++ BitVec.ofBool s.model.outscale) ++ (BitVec.ofBool s.model.bootEn ++ BitVec.ofBool s.dec.eof)) ++
    ((BitVec.ofBool s.dec.active ++ BitVec.ofBool s.enc.active) ++ BitVec.ofBool s.table.isFull)) ++
  ((s.statusCode ++ 0#2) ++ (BitVec.ofBool s.fault ++ BitVec.ofBool s.cfg))

end Sys2Proof.Machine
end

