-- ==== Sys2Proof/Machine/BitIO.lean ====
section
/-! DEFINITION. The bit_io unit: the bit writer (43_bitio.md R262, R263), the bit reader (R264, R265), and the meanings
of the BIT_* and RAW_* commands (R270 to R274). -/

namespace Sys2Proof.Machine

/-! ## Bit writer -/

/-- put_bit(b): the eighth bit delivers the byte (43_bitio.md R262). -/
def State.putBit (s : State) (b : Bool) : State :=
  let buf := (s.bits.wrBuf <<< 1) ||| (BitVec.ofBool b).setWidth 8
  if s.bits.wrCnt.toNat + 1 = 8 then
    ((s.outByte buf).countOutByte).setBits { s.bits with wrBuf := 0#8, wrCnt := 0#3 }
  else s.setBits { s.bits with wrBuf := buf, wrCnt := s.bits.wrCnt + 1#3 }

/-- put_bit(b), `n` times. -/
def State.putBits : Nat → Bool → State → State
  | 0, _, s => s
  | n + 1, b, s => State.putBits n b (s.putBit b)

/-- flush_bits with at most `n` pad bits (43_bitio.md R263). -/
def State.padBits : Nat → State → State
  | 0, s => s
  | n + 1, s => if s.bits.wrCnt = 0#3 then s else State.padBits n (s.putBit false)

/-- flush_bits(): zero bits up to a byte boundary, at most seven of them (43_bitio.md R263). -/
def State.flushBits (s : State) : State := s.padBits 7

/-! ## Bit reader -/

/-- The next bit of the byte the reader holds (43_bitio.md R264). -/
def State.shiftOut (s : State) : Bool × State :=
  (s.bits.rdBuf.getLsbD 7,
    s.setBits { s.bits with rdBuf := s.bits.rdBuf <<< 1, rdCnt := s.bits.rdCnt - 1#4 })

/-- The reader takes the byte `x` (43_bitio.md R264). -/
def State.loadByte (s : State) (x : Byte) : State :=
  let s' := (s.setBits { s.bits with rdBuf := x, rdCnt := 8#4 }).countFetched
  s'.setDec { s'.dec with hist := (s'.dec.hist <<< 8) ||| x.setWidth 32 }

/-- The end of the input has been met (43_bitio.md R265). -/
def State.meetEnd (s : State) : State := s.setDec { s.dec with eof := true }

/-- get_bit(): the host is asked for a byte only when no unread bit is left, and never again after END; a fill bit is 0
(43_bitio.md R264, R265). -/
def State.getBit (s : State) : Bool × State :=
  if s.bits.rdCnt = 0#4 then
    if s.dec.eof then (false, s)
    else
      match s.inByte with
      | (none, s') => (false, s'.meetEnd)
      | (some x, s') => (s'.loadByte x).shiftOut
  else s.shiftOut

/-! ## Commands -/

/-- BIT_PUT (43_bitio.md R270). -/
def execBitPut (sym : BitVec 9) (s : State) : Host.Outcome State Fault Refusal :=
  .next (s.command fun s => if 1 < sym.toNat then s.raise .badSymbol else s.putBit (sym.getLsbD 0))

/-- BIT_FLUSH (43_bitio.md R271). -/
def execBitFlush (s : State) : Host.Outcome State Fault Refusal :=
  .next (s.command fun s => s.flushBits)

/-- BIT_GET: bit 1 of RESULT tells a fill bit (43_bitio.md R272). -/
def execBitGet (s : State) : Host.Outcome State Fault Refusal :=
  .next (s.command fun s =>
    let r := s.getBit
    r.2.setResult ((flag64 r.2.dec.eof <<< 1) ||| flag64 r.1))

/-- RAW_PUT: one whole byte, on a byte boundary only; it is not counted (43_bitio.md R273). -/
def execRawPut (sym : BitVec 9) (s : State) : Host.Outcome State Fault Refusal :=
  .next (s.command fun s =>
    if 255 < sym.toNat then s.raise .badSymbol
    else if s.bits.wrCnt ≠ 0#3 then s.raise .sequence
    else s.outByte (sym.setWidth 8))

/-- RAW_GET: one whole byte, on a byte boundary only; the end of the input is RESULT 0x100 (43_bitio.md R274). -/
def execRawGet (s : State) : Host.Outcome State Fault Refusal :=
  .next (s.command fun s =>
    if s.bits.rdCnt ≠ 0#4 then s.raise .sequence
    else if s.dec.eof then s.setResult 0x100#64
    else
      match s.inByte with
      | (none, s') => s'.meetEnd.setResult 0x100#64
      | (some x, s') => s'.setResult (x.setWidth 64))

end Sys2Proof.Machine
end

