-- ==== Sys2Proof/Machine/Hash.lean ====
section
/-! DEFINITION. The two hash pairs of the table (40_table.md R124 to R126). -/

namespace Sys2Proof.Machine

/-- Byte `j` of a 64-bit value, byte 0 least significant (20_memory.md R74). -/
def keyByte (k : Key) (j : Nat) : BitVec 32 := (k.extractLsb' (8 * j) 8).setWidth 32

/-- `n` rounds of the reflected CRC-32C, polynomial 0x82F63B78 (40_table.md R125). -/
def crcBits : Nat → BitVec 32 → BitVec 32
  | 0, crc => crc
  | n + 1, crc => crcBits n (if crc.getLsbD 0 then (crc >>> 1) ^^^ 0x82F63B78#32 else crc >>> 1)

/-- One byte folded into the CRC (40_table.md R125). -/
def crcByte (crc b : BitVec 32) : BitVec 32 := crcBits 8 (crc ^^^ b)

/-- H1 of the CRC32C pair: bytes 0 to 7, initial value and final inversion 0xFFFFFFFF (40_table.md R125). -/
def crcHash1 (k : Key) : BitVec 32 :=
  ([0, 1, 2, 3, 4, 5, 6, 7].map (keyByte k)).foldl crcByte 0xFFFFFFFF#32 ^^^ 0xFFFFFFFF#32

/-- H2 of the CRC32C pair: the upper half of the key folded first, bytes 4 to 7 and then 0 to 3 (40_table.md R125). -/
def crcHash2 (k : Key) : BitVec 32 :=
  ([4, 5, 6, 7, 0, 1, 2, 3].map (keyByte k)).foldl crcByte 0xFFFFFFFF#32 ^^^ 0xFFFFFFFF#32

/-- One byte of FNV-1a, 32-bit (40_table.md R126). -/
def fnvByte (h b : BitVec 32) : BitVec 32 := (h ^^^ b) * 0x01000193#32

/-- H1 of the FNVJ pair: FNV-1a over bytes 0 to 7 (40_table.md R126). -/
def fnvHash (k : Key) : BitVec 32 := ([0, 1, 2, 3, 4, 5, 6, 7].map (keyByte k)).foldl fnvByte 0x811C9DC5#32

/-- `h + (h << n)`, modulo 2^32 (40_table.md R126). -/
def addShifted (n : Nat) (h : BitVec 32) : BitVec 32 := h + (h <<< n)

/-- `h ^ (h >> n)` (40_table.md R126). -/
def xorShifted (n : Nat) (h : BitVec 32) : BitVec 32 := h ^^^ (h >>> n)

/-- One byte of Jenkins one-at-a-time (40_table.md R126). -/
def oaatByte (h b : BitVec 32) : BitVec 32 := xorShifted 6 (addShifted 10 (h + b))

/-- H2 of the FNVJ pair: Jenkins one-at-a-time over bytes 0 to 7 (40_table.md R126). -/
def oaatHash (k : Key) : BitVec 32 :=
  addShifted 15 (xorShifted 11 (addShifted 3 (([0, 1, 2, 3, 4, 5, 6, 7].map (keyByte k)).foldl oaatByte 0#32)))

/-- H1 of the selected pair (40_table.md R124). -/
def hashOne (hs : HashSel) (k : Key) : BitVec 32 :=
  match hs with
  | .crc32c => crcHash1 k
  | .fnvj => fnvHash k

/-- H2 of the selected pair (40_table.md R124). -/
def hashTwo (hs : HashSel) (k : Key) : BitVec 32 :=
  match hs with
  | .crc32c => crcHash2 k
  | .fnvj => oaatHash k

end Sys2Proof.Machine
end

