-- ==== Sys2Proof/Machine/Operands.lean ====
section
/-! DEFINITION. What the operand fields stand for: the order of format O, the fields of CONFIG, the fields and legality
of context keys (40_table.md R120 to R123), and the registers RD_REG names (44_control.md R286). -/

namespace Sys2Proof.Machine

/-! ## Order and configuration -/

/-- The order an `ordf` field encodes: 4-bit two's complement (30_encoding.md R95). -/
def orderOf (ordf : BitVec 4) : Int := if ordf.toNat ≤ 7 then (ordf.toNat : Int) else (ordf.toNat : Int) - 16

/-- The CONFIG word of four fields (10_state.md R24, 30_encoding.md R97). -/
def configWord (o : BitVec 4) (b : BitVec 12) (boot adapt : BitVec 8) : BitVec 32 := (o ++ b) ++ (boot ++ adapt)

/-- O, CONFIG[31:28] (10_state.md R24). -/
def State.order (s : State) : Nat := (s.config.extractLsb' 28 4).toNat

/-- ADAPT, CONFIG[7:0] (10_state.md R24). -/
def State.adapt (s : State) : Nat := (s.config.extractLsb' 0 8).toNat

/-- INIT's fields are in the stream header's ranges: O in 1..6, B in 8..2048, ADAPT at most 32; every BOOT is legal
(00_scope.md R7, 44_control.md R283). -/
def configLegal (o : BitVec 4) (b : BitVec 12) (adapt : BitVec 8) : Bool :=
  decide (1 ≤ o.toNat) && decide (o.toNat ≤ 6) && decide (8 ≤ b.toNat) && decide (b.toNat ≤ 2048) &&
    decide (adapt.toNat ≤ 32)

/-- N = floor(B * 2^20 / 30) (00_scope.md R8). -/
def tableSlots (b : BitVec 12) : Nat := b.toNat * 2 ^ 20 / 30

/-- M = floor(N / 2) (00_scope.md R8). -/
def poolSize (b : BitVec 12) : Nat := tableSlots b / 2

/-- H = O + 1 when BOOT = 0, otherwise BOOT * 1024 (00_scope.md R8). -/
def windowSize (o : BitVec 4) (boot : BitVec 8) : Nat := if boot = 0#8 then o.toNat + 1 else boot.toNat * 1024

/-- The adaptation threshold: 0 when ADAPT = 0, otherwise 2^ADAPT - 1 (44_control.md R283). -/
def adaptThreshold (adapt : BitVec 8) : Nat := if adapt = 0#8 then 0 else 2 ^ adapt.toNat - 1

/-! ## Context keys -/

/-- The length nibble of a key, K[59:56] (40_table.md R121). -/
def keyLen (k : Key) : Nat := (k.extractLsb' 56 4).toNat

/-- The context bytes of a key, K[55:0] (40_table.md R121). -/
def keyBytes (k : Key) : BitVec 56 := k.extractLsb' 0 56

/-- The key of length `len` over the context bits `x` (40_table.md R121). -/
def mkKey (len : Nat) (x : BitVec 56) : Key := (0x80#8 ||| BitVec.ofNat 8 len) ++ x

/-- The parent of a key: one shorter, without its trailing byte (40_table.md R122). -/
def parentKey (k : Key) : Key := mkKey (keyLen k - 1) (keyBytes k >>> 8)

/-- The child of a key with trailing byte `c` (40_table.md R122). -/
def childKey (p : Key) (c : Byte) : Key := mkKey (keyLen p + 1) ((keyBytes p <<< 8) ||| c.setWidth 56)

/-- The trailing byte of a key, K[7:0] (40_table.md R121). -/
def trailingByte (k : Key) : Nat := (k.extractLsb' 0 8).toNat

/-- A legal key operand: K[63:60] = 8, length at most 7, and no context byte above the length (40_table.md R123). -/
def legalKey (k : Key) : Bool :=
  (k.extractLsb' 60 4 == 8#4) && decide (keyLen k ≤ 7) && (keyBytes k >>> (8 * keyLen k) == 0#56)

/-- The key of a context, oldest byte first: the newest byte in bits 7:0 and each older byte eight bits higher
(40_table.md R120, 41_modeller.md R180). -/
def contextKey (bytes : List Byte) : Key :=
  mkKey bytes.length (bytes.foldl (fun x b => (x <<< 8) ||| b.setWidth 56) 0#56)

/-! ## Registers that RD_REG reads -/

/-- The visit-list entries RD_REG names, selectors 0x18 to 0x1E, those below S.visit_len only (44_control.md R286). -/
def visitSelectors (visit : List Key) : List (Nat × Reg) :=
  ((visit.take visitMax).zipIdx 0x18).map fun e => (e.2, e.1)

/-- RD_REG's selectors and the registers they name, each zero-extended (44_control.md R286). -/
def State.registers (s : State) : List (Nat × Reg) :=
  [(0x00, s.status.setWidth 64), (0x01, s.config.setWidth 64), (0x02, s.table.n.setWidth 64),
   (0x03, s.table.m.setWidth 64), (0x04, s.model.h.setWidth 64), (0x05, s.table.nextFree.setWidth 64),
   (0x06, flag64 s.table.isFull), (0x07, s.model.satCount),
   (0x10, BitVec.ofNat 64 s.model.win.length), (0x11, BitVec.ofNat 64 s.model.visit.length),
   (0x12, flag64 s.model.outscale), (0x13, s.model.sumEsc), (0x14, s.model.adaptThr.setWidth 64),
   (0x15, s.model.lastRun.setWidth 64), (0x16, s.model.latestRun.setWidth 64), (0x17, flag64 s.model.bootEn)] ++
  visitSelectors s.model.visit ++
  [(0x20, s.enc.low), (0x21, s.enc.high), (0x22, s.enc.btf), (0x23, s.enc.outcnt), (0x24, flag64 s.enc.active),
   (0x28, s.dec.low), (0x29, s.dec.high), (0x2A, s.dec.value), (0x2B, s.dec.shifts), (0x2C, s.dec.fetched),
   (0x2D, flag64 s.dec.eof), (0x2E, flag64 s.dec.active),
   (0x30, s.bits.wrBuf.setWidth 64), (0x31, s.bits.wrCnt.setWidth 64), (0x32, s.bits.rdBuf.setWidth 64),
   (0x33, s.bits.rdCnt.setWidth 64)]

/-- The value of the register a selector names, none for a selector outside the table (44_control.md R286). -/
def State.register (s : State) (sel : Nat) : Option Reg := s.registers.lookup sel

end Sys2Proof.Machine
end

