-- ==== Sys2Proof/Machine/Table.lean ====
section
/-! DEFINITION. The cuckoo_hash_table: its operations (40_table.md R128 to R137) as functions on the table alone, and the
meanings of the TBL_* commands (R150 to R161). -/

namespace Sys2Proof.Machine

/-! ## Operations -/

/-- h1(K) = H1(K) mod N (40_table.md R124). -/
def Table.h1 (t : Table) (hs : HashSel) (k : Key) : Nat := (hashOne hs k).toNat % t.n.toNat

/-- h2(K) = H2(K) mod N (40_table.md R124). -/
def Table.h2 (t : Table) (hs : HashSel) (k : Key) : Nat := (hashTwo hs k).toNat % t.n.toNat

/-- The slot that holds a key, h1 first (40_table.md R128). -/
def Table.slotOf (t : Table) (hs : HashSel) (k : Key) : Option Nat :=
  if t.key.read (t.h1 hs k) = k then some (t.h1 hs k)
  else if t.key.read (t.h2 hs k) = k then some (t.h2 hs k)
  else none

/-- contains(K) (40_table.md R129). -/
def Table.contains (t : Table) (hs : HashSel) (k : Key) : Bool := (t.slotOf hs k).isSome

/-- count(K): the stored count, else 0 (40_table.md R130). -/
def Table.countOf (t : Table) (hs : HashSel) (k : Key) : BitVec 16 :=
  match t.slotOf hs k with
  | some i => t.count.read i
  | none => 0#16

/-- What one slot holds: key, count and follower index move together (40_table.md R131). -/
structure Entry where
  key : Key
  count : BitVec 16
  fidx : BitVec 32
deriving DecidableEq, Repr

/-- The entry at slot `pos`. -/
def Table.readSlot (t : Table) (pos : Nat) : Entry :=
  { key := t.key.read pos, count := t.count.read pos, fidx := t.fidx.read pos }

/-- Slot `pos` becomes `e`. -/
def Table.writeSlot (t : Table) (pos : Nat) (e : Entry) : Table :=
  { t with key := t.key.write pos e.key, count := t.count.write pos e.count, fidx := t.fidx.write pos e.fidx }

/-- The alternate slot of a key displaced from `pos`: the one of h1 and h2 it does not sit in (40_table.md R131). -/
def Table.otherSlot (t : Table) (hs : HashSel) (k : Key) (pos : Nat) : Nat :=
  if pos = t.h1 hs k then t.h2 hs k else t.h1 hs k

/-- The kick loop with `fuel` probes left: `cur` is carried to slot `pos`; when the probes run out the table is full and
`cur` is discarded (40_table.md R131). -/
def Table.kick (hs : HashSel) : Nat → Entry → Nat → Table → Table × Bool
  | 0, _, _, t => ({ t with isFull := true }, false)
  | fuel + 1, cur, pos, t =>
    if t.key.read pos = 0#64 then (t.writeSlot pos cur, true)
    else Table.kick hs fuel (t.readSlot pos) (t.otherSlot hs (t.key.read pos) pos) (t.writeSlot pos cur)

/-- insert(K): true if K is present afterwards (40_table.md R131). -/
def Table.insert (t : Table) (hs : HashSel) (k : Key) : Table × Bool :=
  if t.isFull then (t, false)
  else if t.contains hs k then (t, true)
  else if t.m ≤ t.nextFree then ({ t with isFull := true }, false)
  else
    Table.kick hs maxKicks { key := k, count := 0#16, fidx := t.nextFree } (t.h1 hs k)
      { t with nextFree := t.nextFree + 1#32 }

/-- get_follower_vec(K): 0 for an absent key or a key without an index (40_table.md R133). -/
def Table.followers (t : Table) (hs : HashSel) (k : Key) : Bitmap :=
  match t.slotOf hs k with
  | none => 0#256
  | some i => if t.fidx.read i = 0#32 then 0#256 else t.pool.read (t.fidx.read i).toNat

/-- A count one event later, saturating at MAX_FREQ (40_table.md R134, decision D10). -/
def bumpCount (c : BitVec 16) : BitVec 16 := if c.toNat < maxFreq then c + 1#16 else c

/-- seen's last step: bit K[7:0] set in the follower bitmap of parent(K), if K is not the root and the parent is present
with an index (40_table.md R134). -/
def Table.markParent (t : Table) (hs : HashSel) (k : Key) : Table :=
  if k = root then t
  else
    match t.slotOf hs (parentKey k) with
    | none => t
    | some p =>
      if t.fidx.read p = 0#32 then t
      else
        { t with pool := t.pool.write (t.fidx.read p).toNat
                           (setBit (t.pool.read (t.fidx.read p).toNat) (trailingByte k)) }

/-- seen on a key that is present: its count goes up and its parent's bitmap is marked (40_table.md R134). -/
def Table.seenPresent (t : Table) (hs : HashSel) (k : Key) : Table × Bool :=
  match t.slotOf hs k with
  | none => (t, false)
  | some i => (Table.markParent { t with count := t.count.write i (bumpCount (t.count.read i)) } hs k, true)

/-- seen(K) (40_table.md R134). -/
def Table.seen (t : Table) (hs : HashSel) (k : Key) : Table × Bool :=
  if t.contains hs k then t.seenPresent hs k
  else
    match t.insert hs k with
    | (t', true) => t'.seenPresent hs k
    | (t', false) => (t', false)

/-- rescale(): the count of every occupied slot is halved; nothing else changes (40_table.md R135). -/
def Table.rescale (t : Table) : Table :=
  { t with count := t.count.mapElements fun i c =>
      if i < t.n.toNat ∧ t.key.read i ≠ 0#64 then c >>> 1 else c }

/-- The empty table reset builds before it sees the root (40_table.md R137): the elements below N, or below M for the
pool, are 0. -/
def Table.cleared (t : Table) : Table :=
  { t with key := t.key.clearBelow t.n.toNat, count := t.count.clearBelow t.n.toNat,
           fidx := t.fidx.clearBelow t.n.toNat, pool := t.pool.clearBelow t.m.toNat,
           isFull := false, nextFree := 1#32 }

/-- reset() (40_table.md R137). -/
def Table.reset (t : Table) (hs : HashSel) : Table := (t.cleared.seen hs root).1

/-! ## Commands -/

/-- A command with a key operand: BAD_KEY before anything changes (40_table.md R123). -/
def State.keyCommand (s : State) (k : Key) (body : State → State) : State :=
  s.command fun s => if legalKey k then body s else s.raise .badKey

/-- TBL_CONTAINS (40_table.md R150). -/
def execTblContains (k : Key) (s : State) : Host.Outcome State Fault Refusal :=
  .next (s.keyCommand k fun s => s.setResult (flag64 (s.table.contains s.build.hashSel k)))

/-- TBL_COUNT (40_table.md R151). -/
def execTblCount (k : Key) (s : State) : Host.Outcome State Fault Refusal :=
  .next (s.keyCommand k fun s => s.setResult ((s.table.countOf s.build.hashSel k).setWidth 64))

/-- TBL_INSERT (40_table.md R152). -/
def execTblInsert (k : Key) (s : State) : Host.Outcome State Fault Refusal :=
  .next (s.keyCommand k fun s =>
    let r := s.table.insert s.build.hashSel k
    (s.setTable r.1).setResult (flag64 r.2))

/-- TBL_SEEN (40_table.md R153). -/
def execTblSeen (k : Key) (s : State) : Host.Outcome State Fault Refusal :=
  .next (s.keyCommand k fun s =>
    let r := s.table.seen s.build.hashSel k
    (s.setTable r.1).setResult (flag64 r.2))

/-- TBL_FOLLOWER (40_table.md R154). -/
def execTblFollower (sel : BitVec 2) (k : Key) (s : State) : Host.Outcome State Fault Refusal :=
  .next (s.keyCommand k fun s => s.setResult (bitmapWord (s.table.followers s.build.hashSel k) sel.toNat))

/-- TBL_RESCALE (40_table.md R155). -/
def execTblRescale (s : State) : Host.Outcome State Fault Refusal :=
  .next (s.command fun s => s.setTable s.table.rescale)

/-- TBL_RESET (40_table.md R156). -/
def execTblReset (s : State) : Host.Outcome State Fault Refusal :=
  .next (s.command fun s => s.setTable (s.table.reset s.build.hashSel))

/-- TBL_FULL (40_table.md R157). -/
def execTblFull (s : State) : Host.Outcome State Fault Refusal :=
  .next (s.command fun s => s.setResult (flag64 s.table.isFull))

/-- The field of a slot that TBL_PEEK selects (40_table.md R160). -/
def Table.peek (t : Table) (sel : BitVec 2) (slot : Nat) : Reg :=
  match sel.toNat with
  | 0 => t.key.read slot
  | 1 => (t.count.read slot).setWidth 64
  | _ => (t.fidx.read slot).setWidth 64

/-- TBL_PEEK (40_table.md R160). -/
def execTblPeek (sel : BitVec 2) (slot : Reg) (s : State) : Host.Outcome State Fault Refusal :=
  .next (s.commandSel (peekSelLegal sel) fun s =>
    if s.table.n.toNat ≤ slot.toNat then s.raise .badIndex else s.setResult (s.table.peek sel slot.toNat))

/-- TBL_HASH (40_table.md R161). -/
def execTblHash (sel : BitVec 2) (k : Key) (s : State) : Host.Outcome State Fault Refusal :=
  .next (s.commandSel (hashSelLegal sel) fun s =>
    s.setResult (BitVec.ofNat 64
      (if sel = 0#2 then s.table.h1 s.build.hashSel k else s.table.h2 s.build.hashSel k)))

end Sys2Proof.Machine
end

