-- ==== Sys2Proof/Machine/Modeller.lean ====
section
/-! DEFINITION. The ppm_modeller: distribute (41_modeller.md R180 to R189), update (R190 to R196), bootstrap replay (R197
to R199), and the meanings of MDL_DIST and MDL_UPDATE (R200, R201). -/

namespace Sys2Proof.Machine

/-! ## distribute -/

/-- S.dist[i] as an exact number (41_modeller.md R171). -/
def Modeller.distAt (m : Modeller) (i : Nat) : Nat := (m.dist.read i).toNat

/-- The key of the last `ord` bytes of the window (41_modeller.md R180). -/
def Modeller.windowKey (m : Modeller) (ord : Nat) : Key := contextKey (m.win.drop (m.win.length - ord))

/-- push(p): appended to the visit list (41_modeller.md R188). -/
def Modeller.push (m : Modeller) (p : Key) : Modeller := { m with visit := m.visit ++ [p] }

/-- What step 5 carries from byte to byte (41_modeller.md R182): the distribution array, dist_check and exclude_mask,
the running sum and the number of symbols so far. -/
structure Scan where
  dist : Memory 32
  dchk : Bitmap
  excl : Bitmap
  run : Nat
  n : Nat
deriving DecidableEq, Repr

/-- Step 5 for one byte `c`, with `freq c` the count of the child (41_modeller.md R182): a byte in the follower vector
with a count above 0 gets the stretched frequency 2f - 1. -/
def scanByte (fv : Bitmap) (freq : Nat → Nat) (acc : Scan) (c : Nat) : Scan :=
  if fv.getLsbD c = true ∧ 0 < freq c then
    { dist := (acc.dist.write c (BitVec.ofNat 32 acc.run)).write (c + 1) (BitVec.ofNat 32 (acc.run + 2 * freq c - 1))
      dchk := setBit acc.dchk c
      excl := clearBit acc.excl c
      run := acc.run + 2 * freq c - 1
      n := acc.n + 1 }
  else acc

/-- Step 5 over every byte, ascending (41_modeller.md R182). -/
def scanBytes (fv : Bitmap) (freq : Nat → Nat) (acc : Scan) : Scan := (List.range 256).foldl (scanByte fv freq) acc

/-- The scan of one context: its followers that are not excluded, each with the count of its child (41_modeller.md
R182). -/
def Modeller.scan (m : Modeller) (t : Table) (hs : HashSel) (p : Key) : Scan :=
  scanBytes (t.followers hs p &&& m.excl) (fun c => (t.countOf hs (childKey p (BitVec.ofNat 8 c))).toNat)
    { dist := m.dist, dchk := m.dchk, excl := m.excl, run := 0, n := 0 }

/-- Parent present, steps 5 to 8 (41_modeller.md R182, R184, R185, R188). -/
def Modeller.distPresent (m : Modeller) (t : Table) (hs : HashSel) (p : Key) : Modeller :=
  let r := m.scan t hs p
  let escape := r.run + max 1 r.n
  Modeller.push
    { m with dist := ((r.dist.write 256 (BitVec.ofNat 32 r.run)).write 257 (BitVec.ofNat 32 escape)).write 258
                       (BitVec.ofNat 32 escape)
             dchk := r.dchk
             excl := r.excl
             latestRun := BitVec.ofNat 32 r.run
             lastRun := BitVec.ofNat 32 escape
             outscale := m.outscale || decide (coderRescale < escape) } p

/-- The last three entries of a distribution in which ESCAPE alone has width: L 0, R and total 1 (41_modeller.md R183,
R186). -/
def escapeOnly (dist : Memory 32) : Memory 32 := ((dist.write 256 0#32).write 257 1#32).write 258 1#32

/-- Window shorter than the order (41_modeller.md R183). -/
def Modeller.distShort (m : Modeller) : Modeller :=
  { m with dist := escapeOnly m.dist, latestRun := 0#32, lastRun := 1#32 }

/-- Parent absent: the array is 0 but for the escape, and the parent is pushed (41_modeller.md R186). -/
def Modeller.distAbsent (m : Modeller) (p : Key) : Modeller :=
  Modeller.push { m with dist := escapeOnly (m.dist.clearBelow 257), latestRun := 0#32, lastRun := 1#32 } p

/-- Order -1 for one byte: its right end is the number of bytes not excluded up to it (41_modeller.md R187). -/
def fallbackByte (excl : Bitmap) (acc : Memory 32 × Nat) (c : Nat) : Memory 32 × Nat :=
  let run := if excl.getLsbD c then acc.2 + 1 else acc.2
  (acc.1.write (c + 1) (BitVec.ofNat 32 run), run)

/-- Order -1 over every byte, ascending, from dist[0] = 0 (41_modeller.md R187). -/
def fallbackBytes (excl : Bitmap) (dist : Memory 32) : Memory 32 × Nat :=
  (List.range 256).foldl (fallbackByte excl) (dist.write 0 0#32, 0)

/-- Order -1: every byte not excluded has frequency 1, and EOS 1 (41_modeller.md R187). -/
def Modeller.distFallback (m : Modeller) : Modeller :=
  let r := fallbackBytes m.excl m.dist
  { m with dist := (r.1.write 257 (BitVec.ofNat 32 r.2)).write 258 (BitVec.ofNat 32 (r.2 + 1)), dchk := m.excl }

/-- Step 1: a chain that starts at the configured order starts afresh; dist_check is cleared by every call
(41_modeller.md R181). -/
def Modeller.distStart (m : Modeller) (first : Bool) : Modeller :=
  if first then
    { m with dchk := 0#256, dist := m.dist.clearBelow distLen, excl := BitVec.allOnes 256, visit := [] }
  else { m with dchk := 0#256 }

/-- distribute for an order from 0 up, after step 1 (41_modeller.md R181, steps 2 to 8). -/
def Modeller.distOrder (m : Modeller) (t : Table) (hs : HashSel) (ord : Nat) : Modeller :=
  if m.win.length < ord then m.distShort
  else if t.contains hs (m.windowKey ord) then m.distPresent t hs (m.windowKey ord)
  else m.distAbsent (m.windowKey ord)

/-- distribute(ord) for an order from -1 to `o` (41_modeller.md R181). -/
def Modeller.distribute (m : Modeller) (t : Table) (hs : HashSel) (o : Nat) (ord : Int) : Modeller :=
  let m1 := m.distStart (decide (ord = (o : Int)))
  if ord = -1 then m1.distFallback else m1.distOrder t hs ord.toNat

/-! ## bootstrap -/

/-- The keys of replay pass `len`: the contexts of length `len` + 1 that end at positions `len` and up, oldest first
(41_modeller.md R197). -/
def passKeys (win : List Byte) (len : Nat) : List Key :=
  (List.range (win.length - len)).map fun i => contextKey ((win.drop i).take (len + 1))

/-- Every key of a replay in its order: passes 0 to O (41_modeller.md R197). -/
def replayKeys (win : List Byte) (o : Nat) : List Key := (List.range (o + 1)).flatMap (passKeys win)

/-- seen on each key in turn, stopping at the first that fails (41_modeller.md R197). -/
def Table.replay (hs : HashSel) : List Key → Table → Table × Bool
  | [], t => (t, true)
  | k :: ks, t =>
    match t.seen hs k with
    | (t', true) => Table.replay hs ks t'
    | (t', false) => (t', false)

/-- The table is reset (40_table.md R137). -/
def State.resetTable (s : State) : State := s.setTable (s.table.reset s.build.hashSel)

/-- bootstrap_failed(): one more saturation event, a reset, and no bootstrap until the next INIT (41_modeller.md R198). -/
def State.bootstrapFailed (s : State) : State :=
  let s' := s.countSaturation.resetTable
  s'.setModel { s'.model with bootEn := false }

/-- bootstrap(): the retained window is replayed into the table (41_modeller.md R197, R198). -/
def State.bootstrap (s : State) : State :=
  match s.table.replay s.build.hashSel (replayKeys s.model.win s.order) with
  | (t, true) => s.setTable t
  | (t, false) => (s.setTable t).bootstrapFailed

/-! ## update -/

/-- Step 1, fast adaptation (41_modeller.md R190). -/
def State.adaptStep (s : State) : State :=
  if s.adapt = 0 then s
  else
    let sum := s.model.sumEsc + BitVec.ofNat 64 (s.model.lastRun.toNat - s.model.latestRun.toNat)
    if s.model.adaptThr.toNat ≤ sum.toNat then s.setModel { s.model with outscale := true, sumEsc := 0#64 }
    else s.setModel { s.model with sumEsc := sum }

/-- Step 2: a child of a visited key whose count would reach MAX_FREQ asks for a rescale (41_modeller.md R191). -/
def State.checkCounts (s : State) (c : Byte) : State :=
  if s.model.visit.any fun v => decide (maxFreq ≤ (s.table.countOf s.build.hashSel (childKey v c)).toNat + 1) then
    s.setModel { s.model with outscale := true }
  else s

/-- Step 3: a pending rescale is served (41_modeller.md R192). -/
def State.serveRescale (s : State) : State :=
  if s.model.outscale then
    (s.setTable s.table.rescale).setModel { s.model with sumEsc := 0#64, outscale := false }
  else s

/-- Step 4 for one visited key: created if absent, then its child seen; false when the table is full (41_modeller.md
R193). -/
def Table.visitKey (t : Table) (hs : HashSel) (c : Byte) (v : Key) : Table × Bool :=
  if t.contains hs v then t.seen hs (childKey v c)
  else
    match t.insert hs v with
    | (t', true) => t'.seen hs (childKey v c)
    | (t', false) => (t', false)

/-- Step 4 over the visit list in push order, stopping at the first failure (41_modeller.md R193). -/
def Table.visitAll (hs : HashSel) (c : Byte) : List Key → Table → Table × Bool
  | [], t => (t, true)
  | v :: vs, t =>
    match t.visitKey hs c v with
    | (t', true) => Table.visitAll hs c vs t'
    | (t', false) => (t', false)

/-- Saturation in update: one event, a reset, and a replay if bootstrap is enabled and the window is full
(41_modeller.md R194). -/
def State.saturationInUpdate (s : State) : State :=
  let s' := s.countSaturation.resetTable
  if s'.model.bootEn = true ∧ s'.model.h.toNat ≤ s'.model.win.length then s'.bootstrap else s'

/-- Step 4 (41_modeller.md R193, R194). -/
def State.countVisits (s : State) (c : Byte) : State :=
  match s.table.visitAll s.build.hashSel c s.model.visit with
  | (t, true) => s.setTable t
  | (t, false) => (s.setTable t).saturationInUpdate

/-- Step 5: the visit list is cleared, and `c` is appended to the window after the oldest byte is evicted at capacity
(41_modeller.md R195). -/
def Modeller.advance (m : Modeller) (c : Byte) : Modeller :=
  { m with visit := [], win := (if m.h.toNat ≤ m.win.length then m.win.drop 1 else m.win) ++ [c] }

/-- update(c) (41_modeller.md R196). -/
def State.update (s : State) (c : Byte) : State :=
  let s' := (((s.adaptStep).checkCounts c).serveRescale).countVisits c
  s'.setModel (s'.model.advance c)

/-! ## Commands -/

/-- A push by this MDL_DIST would overflow the visit list (41_modeller.md R200, R188). -/
def State.visitOverflows (s : State) (ord : Int) : Bool :=
  decide (ord ≠ (s.order : Int)) && decide (0 ≤ ord) && decide (ord ≤ (s.model.win.length : Int)) &&
    decide (visitMax ≤ s.model.visit.length)

/-- MDL_DIST (41_modeller.md R200). -/
def execMdlDist (ordf : BitVec 4) (s : State) : Host.Outcome State Fault Refusal :=
  .next (s.command fun s =>
    let ord := orderOf ordf
    if ord < -1 ∨ (s.order : Int) < ord then s.raise .badOrder
    else if s.visitOverflows ord then s.raise .visitOverflow
    else
      let m := s.model.distribute s.table s.build.hashSel s.order ord
      (s.setModel m).setResult ((m.dist.read 258).setWidth 64))

/-- MDL_UPDATE (41_modeller.md R201). -/
def execMdlUpdate (sym : BitVec 9) (s : State) : Host.Outcome State Fault Refusal :=
  .next (s.command fun s =>
    if 255 < sym.toNat then s.raise .badSymbol
    else
      let s' := s.update (sym.setWidth 8)
      s'.setResult (s'.model.satCount - s.model.satCount))

end Sys2Proof.Machine
end

