-- ==== Sys2Proof/Machine/Coder.lean ====
section
/-! DEFINITION. The arithmetic_coder: narrowing and renormalisation (42_coder.md R221, R223, R243), the encoder (R224,
R225), the decoder (R241, R242), and the meanings of the ENC_* and DEC_* commands (R230 to R247). -/

namespace Sys2Proof.Machine

/-! ## Shared arithmetic -/

/-- The new low end, from the old low (42_coder.md R221). -/
def narrowLow (low high : Reg) (l t : Nat) : Reg :=
  BitVec.ofNat 64 (low.toNat + (high.toNat - low.toNat + 1) * l / t)

/-- The new high end, from the old low (42_coder.md R221). -/
def narrowHigh (low high : Reg) (r t : Nat) : Reg :=
  BitVec.ofNat 64 (low.toNat + (high.toNat - low.toNat + 1) * r / t - 1)

/-- What one renormalisation iteration does (42_coder.md R223, R243). -/
inductive RenormCase where
  /-- Bits 31 of low and high are equal. -/
  | sameBit
  /-- The straddle case: low at or above QTR and high below 3QTR. -/
  | straddle
  /-- Neither: the loop exits. -/
  | exit
deriving DecidableEq, Repr

/-- The case of an interval (42_coder.md R223). -/
def renormCase (low high : Reg) : RenormCase :=
  if low.getLsbD 31 = high.getLsbD 31 then .sameBit
  else if qtr ≤ low ∧ high < threeQtr then .straddle
  else .exit

/-- `(low << 1) & TOP` (42_coder.md R223). -/
def shiftLow (low : Reg) : Reg := (low <<< 1) &&& top

/-- `((high << 1) | 1) & TOP` (42_coder.md R223). -/
def shiftHigh (high : Reg) : Reg := ((high <<< 1) ||| 1#64) &&& top

/-- The low end in the straddle case, before the shift (42_coder.md R223). -/
def straddleLow (low : Reg) : Reg := low &&& (qtr - 1#64)

/-- The high end in the straddle case, before the shift (42_coder.md R223). -/
def straddleHigh (high : Reg) : Reg := high ||| qtr

/-- The most iterations a renormalisation makes: after 32 of them every bit of low is a shifted-in 0 and every bit of
high a shifted-in 1, which is the exit case, so the bound cuts nothing off (42_coder.md R251). -/
abbrev renormFuel : Nat := 32

/-! ## Encoder -/

/-- bit_plus_follow(b): b, then the pending follow bits inverted (42_coder.md R224). -/
def State.bitPlusFollow (s : State) (b : Bool) : State :=
  let s' := (s.putBit b).putBits s.enc.btf.toNat (!b)
  s'.setEnc { s'.enc with btf := 0#64 }

/-- The encoder's shift (42_coder.md R223). -/
def State.encShift (s : State) : State :=
  s.setEnc { s.enc with low := shiftLow s.enc.low, high := shiftHigh s.enc.high }

/-- The encoder's straddle case: one more follow bit, and both ends lose QTR (42_coder.md R223). -/
def State.encStraddle (s : State) : State :=
  let s' := s.countFollow
  s'.setEnc { s'.enc with low := straddleLow s'.enc.low, high := straddleHigh s'.enc.high }

/-- enc_renorm with `fuel` iterations left (42_coder.md R223). -/
def State.encRenorm : Nat → State → State
  | 0, s => s
  | fuel + 1, s =>
    match renormCase s.enc.low s.enc.high with
    | .sameBit => State.encRenorm fuel ((s.bitPlusFollow (s.enc.low.getLsbD 31)).encShift)
    | .straddle => State.encRenorm fuel s.encStraddle.encShift
    | .exit => s

/-- The encoder symbol step: narrow, then renormalise (42_coder.md R222). -/
def State.encodeInterval (s : State) (l r t : Nat) : State :=
  State.encRenorm renormFuel
    (s.setEnc { s.enc with low := narrowLow s.enc.low s.enc.high l t, high := narrowHigh s.enc.low s.enc.high r t })

/-- enc_finish: one more follow bit, the bit that selects the quarter, and the padding (42_coder.md R225). -/
def State.encFinishBits (s : State) : State :=
  let s' := s.countFollow
  (s'.bitPlusFollow (decide (qtr ≤ s'.enc.low))).flushBits

/-! ## Decoder -/

/-- The decoder target f (42_coder.md R241). -/
def Decoder.target (d : Decoder) (t : Nat) : Nat :=
  ((d.value.toNat - d.low.toNat + 1) * t - 1) / (d.high.toNat - d.low.toNat + 1)

/-- Symbol `c` of 0 to ESCAPE answers the search for `f`: ESCAPE is always a candidate (42_coder.md R242, decision
D18). -/
def Modeller.answers (m : Modeller) (f c : Nat) : Bool :=
  (c == escapeSym || m.dchk.getLsbD c) && decide (f < m.distAt (c + 1))

/-- search(f): the smallest candidate whose right end lies above f, else EOS, else none (42_coder.md R242). -/
def Modeller.search (m : Modeller) (f : Nat) : Option Nat :=
  match (List.range 257).find? (m.answers f) with
  | some c => some c
  | none => if m.distAt 257 ≤ f then some eosSym else none

/-- A bit shifted into the decoder's value, truncated by `mask` (42_coder.md R240, R243). -/
def shiftIn (value : Reg) (b : Bool) : Reg := (value <<< 1) ||| flag64 b

/-- The decoder's shift: one bit read into value, and one more shift counted (42_coder.md R243). -/
def State.decShift (s : State) : State :=
  let r := s.getBit
  let d := r.2.dec
  (r.2.setDec { d with low := shiftLow d.low, high := shiftHigh d.high,
                       value := shiftIn d.value r.1 &&& top }).countShift

/-- The decoder's straddle case: low, high and value lose QTR (42_coder.md R243, decision D22). -/
def State.decStraddle (s : State) : State :=
  s.setDec { s.dec with low := straddleLow s.dec.low, high := straddleHigh s.dec.high, value := s.dec.value - qtr }

/-- The decoder's renormalisation with `fuel` iterations left (42_coder.md R243). -/
def State.decRenorm : Nat → State → State
  | 0, s => s
  | fuel + 1, s =>
    match renormCase s.dec.low s.dec.high with
    | .sameBit => State.decRenorm fuel s.decShift
    | .straddle => State.decRenorm fuel s.decStraddle.decShift
    | .exit => s

/-- The decoder narrows to the interval of a symbol and renormalises (42_coder.md R243). -/
def State.decodeInterval (s : State) (l r t : Nat) : State :=
  State.decRenorm renormFuel
    (s.setDec { s.dec with low := narrowLow s.dec.low s.dec.high l t, high := narrowHigh s.dec.low s.dec.high r t })

/-- `n` bits read into the decoder's value (42_coder.md R240). -/
def State.primeBits : Nat → State → State
  | 0, s => s
  | n + 1, s =>
    let r := s.getBit
    State.primeBits n (r.2.setDec { r.2.dec with value := shiftIn r.2.dec.value r.1 })

/-! ## The trailer -/

/-- P, the bytes of the code payload (42_coder.md R246). -/
def payloadBytes (shifts : Reg) : Nat := (shifts.toNat + 2 + 7) / 8

/-- k, the trailer bytes the reader has already fetched, clamped to 0..4 (42_coder.md R247). -/
def Decoder.trailerFetched (d : Decoder) : Nat := min (d.fetched.toNat - payloadBytes d.shifts) 4

/-- hist[8k - 1 : 0] (42_coder.md R247). -/
def histBytes (hist : BitVec 32) (k : Nat) : BitVec 32 := hist &&& BitVec.ofNat 32 (2 ^ (8 * k) - 1)

/-- The next trailer byte: 0 after the end of the input, which stays ended (42_coder.md R247). -/
def State.trailerByte (s : State) : Byte × State :=
  if s.dec.eof then (0#8, s)
  else
    match s.inByte with
    | (none, s') => (0#8, s'.meetEnd)
    | (some x, s') => (x, s')

/-- `n` more trailer bytes behind `w` (42_coder.md R247). -/
def State.trailerBytes : Nat → BitVec 32 → State → BitVec 32 × State
  | 0, w, s => (w, s)
  | n + 1, w, s =>
    let r := s.trailerByte
    State.trailerBytes n ((w <<< 8) ||| r.1.setWidth 32) r.2

/-! ## Encoder commands -/

/-- ENC_START (42_coder.md R230). -/
def execEncStart (s : State) : Host.Outcome State Fault Refusal :=
  .next (s.command fun s =>
    if s.bits.wrCnt ≠ 0#3 then s.raise .sequence
    else s.setEnc { low := 0#64, high := top, btf := 0#64, outcnt := 0#64, active := true })

/-- The interval of a symbol is empty, lies outside 0..T, or T = 0 (42_coder.md R231, decision D43). -/
def Modeller.zeroFreq (m : Modeller) (sym : Nat) : Bool :=
  decide (m.distAt 258 = 0) || decide (m.distAt (sym + 1) ≤ m.distAt sym) ||
    decide (m.distAt 258 < m.distAt (sym + 1))

/-- ENC_SYM (42_coder.md R231). -/
def execEncSym (sym : BitVec 9) (s : State) : Host.Outcome State Fault Refusal :=
  .next (s.command fun s =>
    if eosSym < sym.toNat then s.raise .badSymbol
    else if s.enc.active = false then s.raise .sequence
    else if s.model.zeroFreq sym.toNat then s.raise .zeroFreq
    else s.encodeInterval (s.model.distAt sym.toNat) (s.model.distAt (sym.toNat + 1)) (s.model.distAt 258))

/-- ENC_FINISH (42_coder.md R232). -/
def execEncFinish (s : State) : Host.Outcome State Fault Refusal :=
  .next (s.command fun s =>
    if s.enc.active = false then s.raise .sequence
    else
      let s' := s.encFinishBits
      (s'.setEnc { s'.enc with active := false }).setResult s'.enc.outcnt)

/-! ## Decoder commands -/

/-- DEC_START: 32 bits primed, then TRUNCATED if the input ended in them (42_coder.md R240). -/
def execDecStart (s : State) : Host.Outcome State Fault Refusal :=
  .next (s.command fun s =>
    if s.bits.rdCnt ≠ 0#4 then s.raise .sequence
    else
      let s' := State.primeBits 32 (s.setDec { low := 0#64, high := top, value := 0#64, shifts := 0#64, fetched := 0#64,
                                               hist := 0#32, eof := false, active := s.dec.active })
      (s'.setDec { s'.dec with active := true }).checkTruncated)

/-- DEC_SYM: the search comes before any write (42_coder.md R245, 60_exceptions.md R306). -/
def execDecSym (s : State) : Host.Outcome State Fault Refusal :=
  .next (s.command fun s =>
    if s.dec.active = false then s.raise .sequence
    else if s.model.distAt 258 = 0 then s.raise .decInternal
    else
      match s.model.search (s.dec.target (s.model.distAt 258)) with
      | none => s.raise .decInternal
      | some sym =>
        ((s.decodeInterval (s.model.distAt sym) (s.model.distAt (sym + 1)) (s.model.distAt 258)).setResult
          (BitVec.ofNat 64 sym)).checkTruncated)

/-- DEC_TRAILER (42_coder.md R247). -/
def execDecTrailer (s : State) : Host.Outcome State Fault Refusal :=
  .next (s.command fun s =>
    if s.dec.active = false then s.raise .sequence
    else
      let k := s.dec.trailerFetched
      let r := State.trailerBytes (4 - k) (histBytes s.dec.hist k) s
      let s' := (r.2.setBits { r.2.bits with rdBuf := 0#8, rdCnt := 0#4 }).setResult (r.1.setWidth 64)
      (s'.setDec { s'.dec with active := false }).checkTruncated)

end Sys2Proof.Machine
end

