-- ==== Sys2Proof/Machine/Control.lean ====
section
/-! DEFINITION. The control and readback commands (44_control.md R280 to R290). -/

namespace Sys2Proof.Machine

/-- NOP changes nothing, whether accepted or discarded (44_control.md R280). -/
def execNop (s : State) : Host.Outcome State Fault Refusal := .next s

/-! ## INIT -/

/-- The modeller after INIT (10_state.md R56, 44_control.md R283): an empty window of capacity `h`, no visited keys, an
all-zero distribution. -/
def Modeller.afterInit (m : Modeller) (h : Nat) (thr : Nat) (bootEn : Bool) : Modeller :=
  { h := BitVec.ofNat 18 h, adaptThr := BitVec.ofNat 33 thr, win := [], visit := [], outscale := false, sumEsc := 0#64,
    lastRun := 0#32, latestRun := 0#32, bootEn := bootEn, dist := m.dist.clearBelow distLen, dchk := 0#256,
    excl := 0#256, satCount := 0#64 }

/-- The encoder after INIT (10_state.md R56). -/
def Encoder.afterInit : Encoder := { low := 0#64, high := top, btf := 0#64, outcnt := 0#64, active := false }

/-- The decoder after INIT (10_state.md R56). -/
def Decoder.afterInit : Decoder :=
  { low := 0#64, high := top, value := 0#64, shifts := 0#64, fetched := 0#64, hist := 0#32, eof := false,
    active := false }

/-- The bit_io unit after INIT (10_state.md R56). -/
def BitIO.afterInit : BitIO := { wrBuf := 0#8, wrCnt := 0#3, rdBuf := 0#8, rdCnt := 0#4 }

/-- The table after INIT with B MiB: its sizes set, then reset (44_control.md R283, R284). -/
def Table.afterInit (t : Table) (hs : HashSel) (b : BitVec 12) : Table :=
  Table.reset { t with n := BitVec.ofNat 32 (tableSlots b), m := BitVec.ofNat 32 (poolSize b) } hs

/-- The state an INIT that passes its checks leaves (44_control.md R283, 10_state.md R56). -/
def State.configure (s : State) (o : BitVec 4) (b : BitVec 12) (boot adapt : BitVec 8) : State :=
  { s.clearFault with
    result := 0#64
    cfg := true
    config := configWord o b boot adapt
    table := s.table.afterInit s.build.hashSel b
    model := s.model.afterInit (windowSize o boot) (adaptThreshold adapt) (boot != 0#8)
    enc := Encoder.afterInit
    dec := Decoder.afterInit
    bits := BitIO.afterInit }

/-- INIT: accepted in every state; CONFIG before ALLOC (44_control.md R283, 60_exceptions.md R304, R305). -/
def execInit (o : BitVec 4) (b : BitVec 12) (boot adapt : BitVec 8) (s : State) : Host.Outcome State Fault Refusal :=
  .next
    (if configLegal o b adapt = false then s.raise .config
     else if s.build.memMaxMib < b.toNat then s.raise .alloc
     else s.configure o b boot adapt)

/-! ## Readback -/

/-- RESULT becomes a value that was found, or BAD_INDEX is raised (44_control.md R286 to R290). -/
def State.readback (s : State) (v : Option Reg) : State :=
  match v with
  | some v => s.setResult v
  | none => s.raise .badIndex

/-- RD_REG (44_control.md R286). -/
def execRdReg (sel : BitVec 24) (s : State) : Host.Outcome State Fault Refusal :=
  .next (s.command fun s => s.readback (s.register sel.toNat))

/-- RD_DIST (44_control.md R287). -/
def execRdDist (idx : BitVec 24) (s : State) : Host.Outcome State Fault Refusal :=
  .next (s.command fun s =>
    s.readback (if 258 < idx.toNat then none else some ((s.model.dist.read idx.toNat).setWidth 64)))

/-- Word `w` of a bitmap register, for the four words it has (44_control.md R288, R289). -/
def bitmapReadback (v : Bitmap) (w : Nat) : Option Reg := if 3 < w then none else some (bitmapWord v w)

/-- RD_DCHK (44_control.md R288). -/
def execRdDchk (idx : BitVec 24) (s : State) : Host.Outcome State Fault Refusal :=
  .next (s.command fun s => s.readback (bitmapReadback s.model.dchk idx.toNat))

/-- RD_EXCL (44_control.md R289). -/
def execRdExcl (idx : BitVec 24) (s : State) : Host.Outcome State Fault Refusal :=
  .next (s.command fun s => s.readback (bitmapReadback s.model.excl idx.toNat))

/-- RD_WIN: index 0 is the oldest byte (44_control.md R290). -/
def execRdWin (idx : BitVec 24) (s : State) : Host.Outcome State Fault Refusal :=
  .next (s.command fun s => s.readback ((s.model.win[idx.toNat]?).map fun b => b.setWidth 64))

end Sys2Proof.Machine
end

