-- ==== Sys2Proof/Machine/Dispatch.lean ====
section
/-! DEFINITION. The dispatch from a command to its meaning: one arm for each constructor of `Instr`. -/

namespace Sys2Proof.Machine

def exec (i : Instr) (s : State) : Host.Outcome State Fault Refusal :=
  match i with
  | .nop => Sys2Proof.Machine.execNop s
  | .init o b boot adapt => Sys2Proof.Machine.execInit o b boot adapt s
  | .rdReg sel => Sys2Proof.Machine.execRdReg sel s
  | .rdDist idx => Sys2Proof.Machine.execRdDist idx s
  | .rdDchk idx => Sys2Proof.Machine.execRdDchk idx s
  | .rdExcl idx => Sys2Proof.Machine.execRdExcl idx s
  | .rdWin idx => Sys2Proof.Machine.execRdWin idx s
  | .tblContains key => Sys2Proof.Machine.execTblContains key s
  | .tblCount key => Sys2Proof.Machine.execTblCount key s
  | .tblInsert key => Sys2Proof.Machine.execTblInsert key s
  | .tblSeen key => Sys2Proof.Machine.execTblSeen key s
  | .tblFollower sel key => Sys2Proof.Machine.execTblFollower sel key s
  | .tblRescale => Sys2Proof.Machine.execTblRescale s
  | .tblReset => Sys2Proof.Machine.execTblReset s
  | .tblFull => Sys2Proof.Machine.execTblFull s
  | .tblPeek sel slot => Sys2Proof.Machine.execTblPeek sel slot s
  | .tblHash sel key => Sys2Proof.Machine.execTblHash sel key s
  | .mdlDist ordf => Sys2Proof.Machine.execMdlDist ordf s
  | .mdlUpdate sym => Sys2Proof.Machine.execMdlUpdate sym s
  | .encStart => Sys2Proof.Machine.execEncStart s
  | .encSym sym => Sys2Proof.Machine.execEncSym sym s
  | .encFinish => Sys2Proof.Machine.execEncFinish s
  | .decStart => Sys2Proof.Machine.execDecStart s
  | .decSym => Sys2Proof.Machine.execDecSym s
  | .decTrailer => Sys2Proof.Machine.execDecTrailer s
  | .bitPut sym => Sys2Proof.Machine.execBitPut sym s
  | .bitFlush => Sys2Proof.Machine.execBitFlush s
  | .bitGet => Sys2Proof.Machine.execBitGet s
  | .rawPut sym => Sys2Proof.Machine.execRawPut sym s
  | .rawGet => Sys2Proof.Machine.execRawGet s

end Sys2Proof.Machine
end

