-- ==== Sys2Proof/Machine/Step.lean ====
section
/-! DEFINITION. The command cycle (44_control.md R281): read the command's words, apply the common checks, execute. -/

namespace Sys2Proof.Machine

/-- One step: the next command of the port is read whole, taken off the port, decoded and executed; words that no command
has are rejected with ILLEGAL (60_exceptions.md R304). With no whole command on the port the core waits and nothing
changes (R314, log entry 2). -/
def step (s : State) : Host.Outcome State Fault Refusal :=
  match fetchCommand s.port with
  | none => .next s
  | some (w0, words, rest) =>
    match decode words with
    | .ok i => exec i (s.setPort rest)
    | .error _ => .next ((s.setPort rest).rejectWords (opcode w0))

/-- The words of one command issued on the command port, ahead of what is there, so that the next step runs it: the host
issuing a command (log entry 2). -/
def State.withFetchWord (s : State) (nbits w : Nat) : State := s.setPort (tableWords nbits w ++ s.port)

end Sys2Proof.Machine
end

