-- ==== Sys2Proof/Safety.lean ====
section
/-! DEFINITION. What the statements speak of: a core that passes the common checks, the bit streams of the two byte
ports, and the invariants of 40_table.md R138, 42_coder.md R226 and R244 and 10_state.md. -/

namespace Sys2Proof.Machine

/-- Configured and with no fault recorded: every command passes the common checks of 60_exceptions.md R304. -/
abbrev State.Ready (s : State) : Prop := s.cfg = true ∧ s.fault = false

/-! ## Bit streams -/

/-- The bits of a byte, most significant first (43_bitio.md R261). -/
def byteBits (b : Byte) : List Bool := (List.range 8).map fun j => b.getLsbD (7 - j)

/-- The bits written since the last byte was delivered, the oldest first (10_state.md R52). -/
def BitIO.pending (b : BitIO) : List Bool := (List.range b.wrCnt.toNat).map fun j => b.wrBuf.getLsbD (b.wrCnt.toNat - 1 - j)

/-- Every bit that has left by the output port or waits in the bit writer, the oldest first. -/
def State.bitsOut (s : State) : List Bool := s.output.flatMap byteBits ++ s.bits.pending

/-- The bits of the last byte taken that have not been read, the next first (10_state.md R53). -/
def BitIO.unread (b : BitIO) : List Bool := (List.range b.rdCnt.toNat).map fun j => b.rdBuf.getLsbD (7 - j)

/-- Every bit the reader can still return before the end of the input, the next first. -/
def State.bitsIn (s : State) : List Bool := s.bits.unread ++ s.input.flatMap byteBits

/-- Commands run one after another, stopping at the first that answers no next state. -/
def execAll : List Instr → State → Host.Outcome State Fault Refusal
  | [], s => .next s
  | i :: is, s =>
    match exec i s with
    | .next t => execAll is t
    | .fault r => .fault r
    | .refused r => .refused r

/-- The state a command leaves, or the state before it where it leaves none. -/
def State.after (s : State) (i : Instr) : State :=
  match exec i s with
  | .next t => t
  | .fault _ => s
  | .refused _ => s

/-- A list of bytes as one number, the first byte most significant (20_memory.md R77). -/
def bigEndian (bytes : List Byte) : Nat := bytes.foldl (fun v b => v * 256 + b.toNat) 0

/-- A list of bits as one number, the first bit most significant (20_memory.md R76, 43_bitio.md R261). -/
def bitsValue (bits : List Bool) : Nat := bits.foldl (fun v b => 2 * v + b.toNat) 0

/-! ## Distributions -/

/-- The exclusion mask a distribute starts from: all ones when the order is the configured one (41_modeller.md R181). -/
def State.exclBefore (s : State) (ord : Nat) : Bitmap := if ord = s.order then BitVec.allOnes 256 else s.model.excl

/-- The visit list a distribute starts from: empty when the order is the configured one (41_modeller.md R181). -/
def State.visitBefore (s : State) (ord : Nat) : List Key := if ord = s.order then [] else s.model.visit

/-- Entry `i` of the distribution array a distribute starts from: 0 when the order is the configured one
(41_modeller.md R181). -/
def State.distBefore (s : State) (ord i : Nat) : Nat := if ord = s.order then 0 else s.model.distAt i

/-- The context of the last `ord` bytes of the window (41_modeller.md R180). -/
def State.contextAt (s : State) (ord : Nat) : Key := contextKey (s.model.win.drop (s.model.win.length - ord))

/-- The count of the child of that context with trailing byte `c` (41_modeller.md R182). -/
def State.childCount (s : State) (ord c : Nat) : Nat :=
  (s.table.countOf s.build.hashSel (childKey (s.contextAt ord) (BitVec.ofNat 8 c))).toNat

/-- Byte `c` gets an interval at this order: a follower of the context, not excluded, of count above 0 (41_modeller.md
R182). -/
def State.codable (s : State) (ord c : Nat) : Bool :=
  (s.table.followers s.build.hashSel (s.contextAt ord)).getLsbD c && (s.exclBefore ord).getLsbD c &&
    decide (0 < s.childCount ord c)

/-- The stretched frequencies 2f - 1 of the codable bytes below `c`, summed (41_modeller.md R182). -/
def State.weightBelow (s : State) (ord c : Nat) : Nat :=
  (((List.range c).filter (s.codable ord)).map fun b => 2 * s.childCount ord b - 1).sum

/-- How many of the bytes below `c` are not excluded (41_modeller.md R187). -/
def openBelow (excl : Bitmap) (c : Nat) : Nat := ((List.range c).filter fun b => excl.getLsbD b).length

/-! ## Updates in terms of commands -/

/-- MDL_UPDATE of `c` rescales before it counts: a rescale was pending, the escape sum reaches the threshold of the fast
adaptation (41_modeller.md R190), or the count of a visited key's child would reach MAX_FREQ (R191). -/
def State.rescaleDue (s : State) (c : Byte) : Bool :=
  s.model.outscale ||
    (decide (s.adapt ≠ 0) &&
      decide (s.model.adaptThr.toNat ≤ s.model.sumEsc.toNat + (s.model.lastRun.toNat - s.model.latestRun.toNat))) ||
    s.model.visit.any fun v => decide (65535 ≤ (s.table.countOf s.build.hashSel (childKey v c)).toNat + 1)

/-- TBL_INSERT of a key that is not present; a present key needs none (41_modeller.md R193, decision D11). RESULT is 0
exactly when the insertion failed. -/
def State.ensure (s : State) (k : Key) : State :=
  if s.table.contains s.build.hashSel k then { s with result := 1#64 } else s.after (.tblInsert k)

/-- The commands that count one visited key after another: TBL_INSERT of a key that is not present, then TBL_SEEN of its
child with trailing byte `c`, up to the first RESULT 0, which the second component tells (41_modeller.md R193). -/
def State.seeChildren (c : Byte) : List Key → State → State × Bool
  | [], s => (s, true)
  | v :: vs, s =>
    if (s.ensure v).result = 0#64 then (s.ensure v, false)
    else if ((s.ensure v).after (.tblSeen (childKey v c))).result = 0#64 then
      ((s.ensure v).after (.tblSeen (childKey v c)), false)
    else State.seeChildren c vs ((s.ensure v).after (.tblSeen (childKey v c)))

/-- TBL_SEEN of one key after another, up to the first RESULT 0, which the second component tells (41_modeller.md
R197). -/
def State.seeKeys : List Key → State → State × Bool
  | [], s => (s, true)
  | k :: ks, s =>
    if (s.after (.tblSeen k)).result = 0#64 then (s.after (.tblSeen k), false)
    else State.seeKeys ks (s.after (.tblSeen k))

/-! ## Memories -/

/-- Every internal memory held as a sparse list has its canonical form. -/
def State.MemoryWf (s : State) : Prop :=
  s.table.key.wf = true ∧ s.table.count.wf = true ∧ s.table.fidx.wf = true ∧ s.table.pool.wf = true ∧
    s.model.dist.wf = true

/-! ## Configuration and bounds -/

/-- The configuration registers hold the values INIT derives from a legal word (00_scope.md R7, R8). -/
def State.ConfigOk (s : State) : Prop :=
  ∃ (o : BitVec 4) (b : BitVec 12) (boot adapt : BitVec 8),
    configLegal o b adapt = true ∧ b.toNat ≤ s.build.memMaxMib ∧ s.config = configWord o b boot adapt ∧
    s.table.n.toNat = tableSlots b ∧ s.table.m.toNat = poolSize b ∧
    s.model.h.toNat = windowSize o boot ∧ s.model.adaptThr.toNat = adaptThreshold adapt

/-- The bounds of 10_state.md: a configured core has the derived parameters of its CONFIG and a window of at most H bytes
(R25, R33); at most seven visited keys (R34), at most eight unread bits (R53), R(ESCAPE) not below L(ESCAPE) (R37), a
fault code in 1 to 13 while a fault is recorded and 0 otherwise (R23, 60_exceptions.md R300). -/
def State.Bounded (s : State) : Prop :=
  (s.cfg = true → s.ConfigOk) ∧ s.model.win.length ≤ s.model.h.toNat ∧ s.model.visit.length ≤ 7 ∧
    s.bits.rdCnt.toNat ≤ 8 ∧ s.model.latestRun.toNat ≤ s.model.lastRun.toNat ∧
    (s.fault = true → 1 ≤ s.fcode.toNat ∧ s.fcode.toNat ≤ 13) ∧ (s.fault = false → s.fcode = 0#4)

/-! ## Table -/

/-- The invariants of 40_table.md R138 on the slots below N: I1 (a key sits in one of its two slots), P3 (no two slots
hold one key), I2 and the last sentence of R138 (an empty slot has count 0 and index 0), I4 (every key has an index of
its own, from 1 up and below S.next_free), with S.next_free in 1..M (10_state.md R31). I5 holds by the width of COUNT. -/
def Table.Consistent (t : Table) (hs : HashSel) : Prop :=
  0 < t.n.toNat ∧ 1 ≤ t.nextFree.toNat ∧ t.nextFree.toNat ≤ t.m.toNat ∧
  (∀ i < t.n.toNat, t.key.read i ≠ 0#64 → i = t.h1 hs (t.key.read i) ∨ i = t.h2 hs (t.key.read i)) ∧
  (∀ i < t.n.toNat, ∀ j < t.n.toNat, t.key.read i ≠ 0#64 → t.key.read i = t.key.read j → i = j) ∧
  (∀ i < t.n.toNat, t.key.read i = 0#64 → t.count.read i = 0#16 ∧ t.fidx.read i = 0#32) ∧
  (∀ i < t.n.toNat, t.key.read i ≠ 0#64 → 1 ≤ (t.fidx.read i).toNat ∧ (t.fidx.read i).toNat < t.nextFree.toNat) ∧
  (∀ i < t.n.toNat, ∀ j < t.n.toNat, t.key.read i ≠ 0#64 → t.key.read j ≠ 0#64 →
    t.fidx.read i = t.fidx.read j → i = j)

/-- The count and the follower index of a key, if it is present (40_table.md R128). -/
def Table.entryOf (t : Table) (hs : HashSel) (k : Key) : Option (BitVec 16 × BitVec 32) :=
  (t.slotOf hs k).map fun i => (t.count.read i, t.fidx.read i)

/-- A key the modeller can visit: legal, and short enough to have a child (41_modeller.md R180, R188). -/
def visitable (k : Key) : Prop := legalKey k = true ∧ keyLen k ≤ 6

/-- Once configured, the table is consistent and the visit list holds keys the modeller can visit; the memories are
canonical. -/
def State.TableConsistent (s : State) : Prop :=
  s.MemoryWf ∧
    (s.cfg = true → s.ConfigOk ∧ s.table.Consistent s.build.hashSel ∧ ∀ k ∈ s.model.visit, visitable k)

/-! ## Coder -/

/-- A renormalised interval: low below HALF, high from HALF to TOP, and not the straddle case (42_coder.md R226). -/
def rangeOk (low high : Reg) : Prop :=
  low.toNat < 0x80000000 ∧ 0x80000000 ≤ high.toNat ∧ high.toNat ≤ 0xFFFFFFFF ∧
    (low.toNat < 0x40000000 ∨ 0xC0000000 ≤ high.toNat)

/-- The exact low end of the interval [`l`, ...) of total `t` in [low, high] (42_coder.md R221). -/
def symbolLow (low high : Reg) (l t : Nat) : Nat := low.toNat + (high.toNat - low.toNat + 1) * l / t

/-- The exact width of the interval [`l`, `r`) of total `t` in [low, high] (42_coder.md R221, R226). -/
def symbolWidth (low high : Reg) (l r t : Nat) : Nat :=
  (high.toNat - low.toNat + 1) * r / t - (high.toNat - low.toNat + 1) * l / t

/-- The distribution registers hold a distribution the decoder can search: every f below the total lies in the interval
of the symbol the search finds (42_coder.md R242). True when the total is 0. -/
def Modeller.Decodable (m : Modeller) : Prop :=
  ∀ f < m.distAt 258, ∃ sym, m.search f = some sym ∧ sym ≤ 257 ∧ m.distAt sym ≤ f ∧ f < m.distAt (sym + 1) ∧
    m.distAt (sym + 1) ≤ m.distAt 258

/-- Once configured: both coders hold a renormalised interval, the decoder's value lies in its own (42_coder.md R226,
R244), no entry of the distribution array exceeds 33553920 (10_state.md R39), and the distribution can be searched. -/
def State.CoderInRange (s : State) : Prop :=
  s.model.dist.wf = true ∧
    (s.cfg = true →
      rangeOk s.enc.low s.enc.high ∧ rangeOk s.dec.low s.dec.high ∧
      s.dec.low.toNat ≤ s.dec.value.toNat ∧ s.dec.value.toNat ≤ s.dec.high.toNat ∧
      (∀ i ≤ 258, s.model.distAt i ≤ 33553920) ∧ s.model.Decodable)

end Sys2Proof.Machine
end

