-- ==== Sys2Proof/Certificates/Slice0/Obligations.lean ====
section
/-! DEFINITION. The statements for the provers. Each docstring says which rule of spec/ it formalises; a statement that
rests on a choice of the model says so and names the log entry. -/

open Sys2Proof Sys2Proof.Machine

/-! ## Encoding -/

/-- 30_encoding.md R92 to R98: every command the core accepts is read back from its own words, every operand at every
value its field holds. -/
def Obligations.DecodeOfEncode : Prop :=
  ∀ i : Instr, i.wellFormed = true → decode (encode i) = .ok i

/-- 30_encoding.md R92 to R101: words that decode are exactly the words of the command they decode to, so that no bit is
ignored and no command has a second spelling. -/
def Obligations.EncodeOfDecode : Prop :=
  ∀ (ws : List Word) (i : Instr), decode ws = .ok i → i.wellFormed = true ∧ encode i = ws

/-- 30_encoding.md section 5 and 95_test_vectors.md: words written out from the formats decode to the commands they
stand for. -/
def Obligations.WordsDecodeAsWritten : Prop :=
  decode [0x00000000#32] = .ok .nop ∧
  decode [0x01000000#32, 0x30080000#32] = .ok (.init 3#4 8#12 0#8 0#8) ∧
  decode [0x01000000#32, 0x6800FF20#32] = .ok (.init 6#4 2048#12 255#8 32#8) ∧
  decode [0x0200002A#32] = .ok (.rdReg 0x2A#24) ∧
  decode [0x11000000#32, 0x81000000#32, 0x00000041#32] = .ok (.tblCount 0x8100000000000041#64) ∧
  decode [0x14000001#32, 0x80000000#32, 0x00000000#32] = .ok (.tblFollower 1#2 0x8000000000000000#64) ∧
  decode [0x18000002#32, 0x00000000#32, 0x0000AD02#32] = .ok (.tblPeek 2#2 0xAD02#64) ∧
  decode [0x2000000F#32] = .ok (.mdlDist 0xF#4) ∧
  decode [0x31000101#32] = .ok (.encSym 0x101#9) ∧
  decode [0x3A000000#32] = .ok .decTrailer ∧
  decode [0x430000D3#32] = .ok (.rawPut 0xD3#9)

/-! ## The command cycle -/

/-- 44_control.md R281: when the words next on the command port decode to a command, a step takes them off the port and
is that command's meaning. -/
def Obligations.StepRunsTheDecodedCommand : Prop :=
  ∀ (s : State) (ws rest : List Word) (i : Instr),
    decode ws = .ok i → s.port = ws ++ rest → step s = exec i { s with port := rest }

/-- The model's reading of 30_encoding.md R91 and 60_exceptions.md R314 (log entry 2): with no word on the port, or fewer
words than the opcode calls for, the core waits and nothing changes. -/
def Obligations.StepWaitsForAWholeCommand : Prop :=
  ∀ s : State,
    (s.port = [] ∨ ∃ w0 ext, s.port = w0 :: ext ∧ (w0 :: ext).length < commandLength (opcode w0)) →
      step s = .next s

/-- 30_encoding.md R102 and R91: a whole command on the port is consumed, and exactly its words, whether it is executed,
refused because a fault is recorded, or faults. -/
def Obligations.StepConsumesTheCommandsWords : Prop :=
  ∀ (s : State) (w0 : Word) (ext : List Word),
    s.port = w0 :: ext → commandLength (opcode w0) ≤ (w0 :: ext).length →
      ∃ t, step s = .next t ∧ t.port = (w0 :: ext).drop (commandLength (opcode w0))

/-- 30_encoding.md R99: an opcode outside the map is one word long and faults with ILLEGAL. -/
def Obligations.UnassignedOpcodeIsIllegal : Prop :=
  ∀ (s : State) (w0 : Word) (rest : List Word),
    s.fault = false → s.port = w0 :: rest →
    ((0x07 ≤ (opcode w0).toNat ∧ (opcode w0).toNat ≤ 0x0F) ∨ (0x1A ≤ (opcode w0).toNat ∧ (opcode w0).toNat ≤ 0x1F) ∨
     (0x22 ≤ (opcode w0).toNat ∧ (opcode w0).toNat ≤ 0x2F) ∨ (0x33 ≤ (opcode w0).toNat ∧ (opcode w0).toNat ≤ 0x37) ∨
     (0x3B ≤ (opcode w0).toNat ∧ (opcode w0).toNat ≤ 0x3F) ∨ 0x45 ≤ (opcode w0).toNat) →
      commandLength (opcode w0) = 1 ∧
      step s = .next { s with port := rest, fault := true, fcode := 1#4 }

/-- 30_encoding.md R100: a set reserved bit of any format, TBL_PEEK with selector 3 and TBL_HASH with selector 2 or 3
fault with ILLEGAL. -/
def Obligations.ReservedBitsAreIllegal : Prop :=
  ∀ (s : State) (w0 : Word) (ext rest : List Word),
    s.fault = false → s.port = w0 :: ext ++ rest → (w0 :: ext).length = commandLength (opcode w0) →
    (((opcode w0).toNat ∈ [0x00, 0x01, 0x10, 0x11, 0x12, 0x13, 0x15, 0x16, 0x17, 0x30, 0x32, 0x38, 0x39, 0x3A, 0x41,
        0x42, 0x44] ∧ w0.extractLsb' 0 24 ≠ 0#24) ∨
     ((opcode w0).toNat ∈ [0x21, 0x31, 0x40, 0x43] ∧ w0.extractLsb' 9 15 ≠ 0#15) ∨
     ((opcode w0).toNat = 0x20 ∧ w0.extractLsb' 4 20 ≠ 0#20) ∨
     ((opcode w0).toNat ∈ [0x14, 0x18, 0x19] ∧ w0.extractLsb' 2 22 ≠ 0#22) ∨
     ((opcode w0).toNat = 0x18 ∧ (w0.extractLsb' 0 2).toNat = 3) ∨
     ((opcode w0).toNat = 0x19 ∧ 2 ≤ (w0.extractLsb' 0 2).toNat)) →
      step s = .next { s with port := rest, fault := true, fcode := 1#4 }

/-! ## Faults -/

/-- 60_exceptions.md R304 and R305: while a fault is recorded every command but INIT is discarded, and so are words that no
command has, unless their opcode is INIT's: those replace the recorded code with ILLEGAL. -/
def Obligations.RecordedFaultDiscardsCommands : Prop :=
  (∀ (i : Instr) (s : State),
    s.fault = true → (∀ o b boot adapt, i ≠ .init o b boot adapt) → exec i s = .next s) ∧
  (∀ (s : State) (w0 : Word) (ext rest : List Word),
    s.fault = true → s.port = w0 :: ext ++ rest → (w0 :: ext).length = commandLength (opcode w0) →
    (opcode w0 ≠ 0x01#8 → step s = .next { s with port := rest }) ∧
    (opcode w0 = 0x01#8 → w0.extractLsb' 0 24 ≠ 0#24 →
      step s = .next { s with port := rest, fault := true, fcode := 1#4 }))

/-- 60_exceptions.md R304 and 44_control.md R280: before INIT, every command but NOP and INIT faults NOT_CONFIGURED,
whatever its operands, and changes nothing else. -/
def Obligations.UnconfiguredCommandsFault : Prop :=
  ∀ (i : Instr) (s : State),
    s.fault = false → s.cfg = false → i.wellFormed = true → i ≠ .nop → (∀ o b boot adapt, i ≠ .init o b boot adapt) →
      exec i s = .next { s with fault := true, fcode := 4#4 }

/-- 60_exceptions.md R303: a command that records any fault but TRUNCATED changes nothing but the fault record, and
TRUNCATED is recorded only by DEC_START, DEC_SYM and DEC_TRAILER, when the input has ended. -/
def Obligations.FaultsArePrecise : Prop :=
  ∀ (i : Instr) (s t : State), exec i s = .next t → t.fault = true →
    (t.fcode ≠ 10#4 → t = { s with fault := true, fcode := t.fcode }) ∧
    (s.fault = false → t.fcode = 10#4 → (i = .decStart ∨ i = .decSym ∨ i = .decTrailer) ∧ t.dec.eof = true)

/-- 60_exceptions.md R305: a recorded fault is left only by an INIT that passes its checks. -/
def Obligations.OnlyInitLeavesAFault : Prop :=
  ∀ s t : State, s.fault = true → step s = .next t → t.fault = false →
    ∃ o b boot adapt rest, s.port = encode (.init o b boot adapt) ++ rest ∧
      1 ≤ o.toNat ∧ o.toNat ≤ 6 ∧ 8 ≤ b.toNat ∧ b.toNat ≤ 2048 ∧ adapt.toNat ≤ 32 ∧ b.toNat ≤ s.build.memMaxMib

/-- 10_state.md R23: each field of STATUS, bit by bit, and STATUS as RD_REG selector 0. -/
def Obligations.StatusShowsTheFlags : Prop :=
  ∀ s : State,
    s.status.getLsbD 0 = s.cfg ∧ s.status.getLsbD 1 = s.fault ∧ s.status.extractLsb' 2 2 = 0#2 ∧
    s.status.extractLsb' 4 4 = (if s.fault then s.fcode else 0#4) ∧ s.status.getLsbD 8 = s.table.isFull ∧
    s.status.getLsbD 9 = s.enc.active ∧ s.status.getLsbD 10 = s.dec.active ∧ s.status.getLsbD 11 = s.dec.eof ∧
    s.status.getLsbD 12 = s.model.bootEn ∧ s.status.getLsbD 13 = s.model.outscale ∧
    s.status.extractLsb' 14 18 = 0#18 ∧
    (s.Ready → exec (.rdReg 0#24) s = .next { s with result := s.status.setWidth 64 })

/-! ## Control and readback -/

/-- 44_control.md R280: NOP is the word 0, changes nothing in any state, and with a reserved bit set is no command. -/
def Obligations.NopChangesNothing : Prop :=
  encode .nop = [0x00000000#32] ∧ (∀ s : State, exec .nop s = .next s) ∧
  (∀ x : BitVec 24, x ≠ 0#24 → decode [0x00#8 ++ x] = .error (.reservedBits "NOP"))

/-- 44_control.md R283: INIT refuses a field out of range with CONFIG, then a B above MEM_MAX_MIB with ALLOC, in every
state, and changes nothing but the fault record. -/
def Obligations.InitRefusesBadFields : Prop :=
  ∀ (s : State) (o : BitVec 4) (b : BitVec 12) (boot adapt : BitVec 8),
    ((o.toNat < 1 ∨ 6 < o.toNat ∨ b.toNat < 8 ∨ 2048 < b.toNat ∨ 32 < adapt.toNat) →
      exec (.init o b boot adapt) s = .next { s with fault := true, fcode := 2#4 }) ∧
    (¬ (o.toNat < 1 ∨ 6 < o.toNat ∨ b.toNat < 8 ∨ 2048 < b.toNat ∨ 32 < adapt.toNat) →
      s.build.memMaxMib < b.toNat →
      exec (.init o b boot adapt) s = .next { s with fault := true, fcode := 3#4 })

/-- 44_control.md R283, 10_state.md R56, 00_scope.md R8: what an INIT that passes its checks leaves, register by
register, from every state, a faulted one included; the table holds the root alone in slot h1(root), and elements beyond
the configured sizes are as they were (R284). -/
def Obligations.InitSetsEveryRegister : Prop :=
  ∀ (s : State) (o : BitVec 4) (b : BitVec 12) (boot adapt : BitVec 8),
    1 ≤ o.toNat → o.toNat ≤ 6 → 8 ≤ b.toNat → b.toNat ≤ 2048 → adapt.toNat ≤ 32 → b.toNat ≤ s.build.memMaxMib →
    ∃ t, exec (.init o b boot adapt) s = .next t ∧
      t.result = 0#64 ∧ t.cfg = true ∧ t.fault = false ∧ t.fcode = 0#4 ∧
      t.config.extractLsb' 28 4 = o ∧ t.config.extractLsb' 16 12 = b ∧ t.config.extractLsb' 8 8 = boot ∧
      t.config.extractLsb' 0 8 = adapt ∧
      t.table.n.toNat = b.toNat * 1048576 / 30 ∧ t.table.m.toNat = b.toNat * 1048576 / 30 / 2 ∧
      t.model.h.toNat = (if boot = 0#8 then o.toNat + 1 else boot.toNat * 1024) ∧
      t.model.adaptThr.toNat = (if adapt = 0#8 then 0 else 2 ^ adapt.toNat - 1) ∧
      (∀ i < t.table.n.toNat,
        t.table.key.read i = (if i = t.table.h1 s.build.hashSel 0x8000000000000000#64 then 0x8000000000000000#64 else 0#64) ∧
        t.table.count.read i = (if i = t.table.h1 s.build.hashSel 0x8000000000000000#64 then 1#16 else 0#16) ∧
        t.table.fidx.read i = (if i = t.table.h1 s.build.hashSel 0x8000000000000000#64 then 1#32 else 0#32)) ∧
      (∀ k < t.table.m.toNat, t.table.pool.read k = 0#256) ∧
      (∀ i, t.table.n.toNat ≤ i → t.table.key.read i = s.table.key.read i ∧
        t.table.count.read i = s.table.count.read i ∧ t.table.fidx.read i = s.table.fidx.read i) ∧
      (∀ k, t.table.m.toNat ≤ k → t.table.pool.read k = s.table.pool.read k) ∧
      t.table.nextFree = 2#32 ∧ t.table.isFull = false ∧
      t.model.win = [] ∧ t.model.visit = [] ∧ t.model.outscale = false ∧ t.model.sumEsc = 0#64 ∧
      t.model.lastRun = 0#32 ∧ t.model.latestRun = 0#32 ∧ (t.model.bootEn = true ↔ boot ≠ 0#8) ∧
      (∀ i ≤ 258, t.model.dist.read i = 0#32) ∧ t.model.dchk = 0#256 ∧ t.model.excl = 0#256 ∧
      t.model.satCount = 0#64 ∧
      t.enc = { low := 0#64, high := 0xFFFFFFFF#64, btf := 0#64, outcnt := 0#64, active := false } ∧
      t.dec = { low := 0#64, high := 0xFFFFFFFF#64, value := 0#64, shifts := 0#64, fetched := 0#64, hist := 0#32,
                eof := false, active := false } ∧
      t.bits = { wrBuf := 0#8, wrCnt := 0#3, rdBuf := 0#8, rdCnt := 0#4 } ∧
      t.build = s.build ∧ t.port = s.port ∧ t.input = s.input ∧ t.output = s.output ∧ t.draws = s.draws

/-- 44_control.md R286: RD_REG puts the selected register, zero-extended, in RESULT and changes nothing else; every other
selector, and a visit-list entry at or above S.visit_len, is BAD_INDEX. -/
def Obligations.RdRegReadsTheSelectedRegister : Prop :=
  ∀ s : State, s.Ready →
    (∀ sel, encode (.rdReg sel) = [0x02#8 ++ sel]) ∧
    (∀ sel v, (sel, v) ∈ ([
        (0x00#24, s.status.setWidth 64), (0x01#24, s.config.setWidth 64), (0x02#24, s.table.n.setWidth 64),
        (0x03#24, s.table.m.setWidth 64), (0x04#24, s.model.h.setWidth 64), (0x05#24, s.table.nextFree.setWidth 64),
        (0x06#24, if s.table.isFull then 1#64 else 0#64), (0x07#24, s.model.satCount),
        (0x10#24, BitVec.ofNat 64 s.model.win.length), (0x11#24, BitVec.ofNat 64 s.model.visit.length),
        (0x12#24, if s.model.outscale then 1#64 else 0#64), (0x13#24, s.model.sumEsc),
        (0x14#24, s.model.adaptThr.setWidth 64), (0x15#24, s.model.lastRun.setWidth 64),
        (0x16#24, s.model.latestRun.setWidth 64), (0x17#24, if s.model.bootEn then 1#64 else 0#64),
        (0x20#24, s.enc.low), (0x21#24, s.enc.high), (0x22#24, s.enc.btf), (0x23#24, s.enc.outcnt),
        (0x24#24, if s.enc.active then 1#64 else 0#64), (0x28#24, s.dec.low), (0x29#24, s.dec.high),
        (0x2A#24, s.dec.value), (0x2B#24, s.dec.shifts), (0x2C#24, s.dec.fetched),
        (0x2D#24, if s.dec.eof then 1#64 else 0#64), (0x2E#24, if s.dec.active then 1#64 else 0#64),
        (0x30#24, s.bits.wrBuf.setWidth 64), (0x31#24, s.bits.wrCnt.setWidth 64), (0x32#24, s.bits.rdBuf.setWidth 64),
        (0x33#24, s.bits.rdCnt.setWidth 64)] : List (BitVec 24 × BitVec 64)) →
      exec (.rdReg sel) s = .next { s with result := v }) ∧
    (∀ (j : Nat) (k : BitVec 64), j ≤ 6 → s.model.visit[j]? = some k →
      exec (.rdReg (BitVec.ofNat 24 (0x18 + j))) s = .next { s with result := k }) ∧
    (∀ sel : BitVec 24,
      ((0x08 ≤ sel.toNat ∧ sel.toNat ≤ 0x0F) ∨ sel.toNat = 0x1F ∨ (0x25 ≤ sel.toNat ∧ sel.toNat ≤ 0x27) ∨
       sel.toNat = 0x2F ∨ 0x34 ≤ sel.toNat ∨
       (0x18 ≤ sel.toNat ∧ sel.toNat ≤ 0x1E ∧ s.model.visit.length ≤ sel.toNat - 0x18)) →
      exec (.rdReg sel) s = .next { s with fault := true, fcode := 13#4 })

/-- 44_control.md R287 to R290: RD_DIST, RD_DCHK, RD_EXCL and RD_WIN put the selected element or bitmap word in RESULT and
change nothing else; an index out of range is BAD_INDEX. -/
def Obligations.IndexedReadbackReadsTheElement : Prop :=
  ∀ (s : State) (idx : BitVec 24), s.Ready →
    encode (.rdDist idx) = [0x03#8 ++ idx] ∧ encode (.rdDchk idx) = [0x04#8 ++ idx] ∧
    encode (.rdExcl idx) = [0x05#8 ++ idx] ∧ encode (.rdWin idx) = [0x06#8 ++ idx] ∧
    (idx.toNat ≤ 258 → exec (.rdDist idx) s = .next { s with result := (s.model.dist.read idx.toNat).setWidth 64 }) ∧
    (258 < idx.toNat → exec (.rdDist idx) s = .next { s with fault := true, fcode := 13#4 }) ∧
    (idx.toNat ≤ 3 → ∃ v : BitVec 64, exec (.rdDchk idx) s = .next { s with result := v } ∧
      ∀ j < 64, v.getLsbD j = s.model.dchk.getLsbD (64 * idx.toNat + j)) ∧
    (idx.toNat ≤ 3 → ∃ v : BitVec 64, exec (.rdExcl idx) s = .next { s with result := v } ∧
      ∀ j < 64, v.getLsbD j = s.model.excl.getLsbD (64 * idx.toNat + j)) ∧
    (3 < idx.toNat → exec (.rdDchk idx) s = .next { s with fault := true, fcode := 13#4 } ∧
      exec (.rdExcl idx) s = .next { s with fault := true, fcode := 13#4 }) ∧
    (∀ c : BitVec 8, s.model.win[idx.toNat]? = some c →
      exec (.rdWin idx) s = .next { s with result := c.setWidth 64 }) ∧
    (s.model.win.length ≤ idx.toNat → exec (.rdWin idx) s = .next { s with fault := true, fcode := 13#4 })

/-! ## Context keys and hashes -/

/-- 40_table.md R120 and R123: the key of a context of at most seven bytes has the stated layout, and a key is legal
exactly when it is the key of such a context. -/
def Obligations.LegalKeysAreContextKeys : Prop :=
  (∀ bytes : List Byte, bytes.length ≤ 7 →
    (contextKey bytes).extractLsb' 56 8 = 0x80#8 ||| BitVec.ofNat 8 bytes.length ∧
    (∀ j, (h : j < bytes.length) →
      (contextKey bytes).extractLsb' (8 * j) 8 = bytes[bytes.length - 1 - j]'(by omega)) ∧
    (∀ i, 8 * bytes.length ≤ i → i < 56 → (contextKey bytes).getLsbD i = false)) ∧
  (∀ k : Key, legalKey k = true ↔ ∃ bytes : List Byte, bytes.length ≤ 7 ∧ k = contextKey bytes) ∧
  contextKey [] = 0x8000000000000000#64

/-- 40_table.md R122: the child of a context is the context followed by the byte, one longer and legal, with that byte as
its trailing byte, and its parent is the context again. -/
def Obligations.ParentOfChild : Prop :=
  ∀ (p : Key) (c : Byte), legalKey p = true → keyLen p ≤ 6 →
    parentKey (childKey p c) = p ∧ legalKey (childKey p c) = true ∧ keyLen (childKey p c) = keyLen p + 1 ∧
    trailingByte (childKey p c) = c.toNat ∧
    (∀ bytes : List Byte, bytes.length ≤ 6 → childKey (contextKey bytes) c = contextKey (bytes ++ [c]))

/-- 40_table.md R161 and R124: TBL_HASH gives the 32-bit hash reduced modulo N, by the selected pair of R125 or R126, for
any 64-bit value; a selector of 2 or 3 is ILLEGAL. -/
def Obligations.TblHashReducesModuloN : Prop :=
  ∀ (s : State) (k : Key), s.Ready →
    exec (.tblHash 0#2 k) s =
      .next { s with result := BitVec.ofNat 64 ((match s.build.hashSel with
        | .crc32c => crcHash1 k
        | .fnvj => fnvHash k).toNat % s.table.n.toNat) } ∧
    exec (.tblHash 1#2 k) s =
      .next { s with result := BitVec.ofNat 64 ((match s.build.hashSel with
        | .crc32c => crcHash2 k
        | .fnvj => oaatHash k).toNat % s.table.n.toNat) } ∧
    (∀ sel : BitVec 2, 2 ≤ sel.toNat → exec (.tblHash sel k) s = .next { s with fault := true, fcode := 1#4 }) ∧
    crcHash2 k = crcHash1 (k.extractLsb' 0 32 ++ k.extractLsb' 32 32)

/-! ## Table -/

/-- 40_table.md R150, R151, R128 to R130: TBL_CONTAINS and TBL_COUNT look in slot h1 and then in slot h2, and change
nothing but RESULT; an operand that is no legal key is BAD_KEY. -/
def Obligations.TblLookupsReadTheTwoSlots : Prop :=
  ∀ (s : State) (k : Key), s.Ready →
    (legalKey k = false →
      exec (.tblContains k) s = .next { s with fault := true, fcode := 7#4 } ∧
      exec (.tblCount k) s = .next { s with fault := true, fcode := 7#4 }) ∧
    (legalKey k = true →
      exec (.tblContains k) s = .next { s with
        result := if s.table.key.read (s.table.h1 s.build.hashSel k) = k ∨
                      s.table.key.read (s.table.h2 s.build.hashSel k) = k then 1#64 else 0#64 } ∧
      exec (.tblCount k) s = .next { s with
        result := if s.table.key.read (s.table.h1 s.build.hashSel k) = k
                  then (s.table.count.read (s.table.h1 s.build.hashSel k)).setWidth 64
                  else if s.table.key.read (s.table.h2 s.build.hashSel k) = k
                  then (s.table.count.read (s.table.h2 s.build.hashSel k)).setWidth 64 else 0#64 })

/-- 40_table.md R154, R133: TBL_FOLLOWER reads 64 bits of the bitmap of a present key with an index, and 0 otherwise, and
changes nothing but RESULT. -/
def Obligations.TblFollowerReadsTheBitmap : Prop :=
  ∀ (s : State) (sel : BitVec 2) (k : Key), s.Ready →
    (legalKey k = false → exec (.tblFollower sel k) s = .next { s with fault := true, fcode := 7#4 }) ∧
    (legalKey k = true → s.table.slotOf s.build.hashSel k = none →
      exec (.tblFollower sel k) s = .next { s with result := 0#64 }) ∧
    (∀ i, legalKey k = true → s.table.slotOf s.build.hashSel k = some i → s.table.fidx.read i = 0#32 →
      exec (.tblFollower sel k) s = .next { s with result := 0#64 }) ∧
    (∀ i, legalKey k = true → s.table.slotOf s.build.hashSel k = some i → s.table.fidx.read i ≠ 0#32 →
      ∃ v : BitVec 64, exec (.tblFollower sel k) s = .next { s with result := v } ∧
        ∀ j < 64, v.getLsbD j = (s.table.pool.read (s.table.fidx.read i).toNat).getLsbD (64 * sel.toNat + j))

/-- 40_table.md R152, R131: TBL_INSERT where no entry has to move: refused while the table is full, nothing to do for a
present key, failing when the pool has run out, and placed in an empty slot h1 with count 0 and the next pool index. -/
def Obligations.TblInsertWithoutKicks : Prop :=
  ∀ (s : State) (k : Key), s.Ready →
    (legalKey k = false → exec (.tblInsert k) s = .next { s with fault := true, fcode := 7#4 }) ∧
    (legalKey k = true → s.table.isFull = true → exec (.tblInsert k) s = .next { s with result := 0#64 }) ∧
    (legalKey k = true → s.table.isFull = false → s.table.contains s.build.hashSel k = true →
      exec (.tblInsert k) s = .next { s with result := 1#64 }) ∧
    (legalKey k = true → s.table.isFull = false → s.table.contains s.build.hashSel k = false →
      s.table.m.toNat ≤ s.table.nextFree.toNat →
      exec (.tblInsert k) s = .next { s with result := 0#64, table := { s.table with isFull := true } }) ∧
    (legalKey k = true → s.MemoryWf → s.table.isFull = false → s.table.contains s.build.hashSel k = false →
      s.table.nextFree.toNat < s.table.m.toNat → s.table.key.read (s.table.h1 s.build.hashSel k) = 0#64 →
      ∃ t, exec (.tblInsert k) s = .next t ∧ t.result = 1#64 ∧
        t = { s with result := t.result, table := { s.table with
          key := t.table.key, count := t.table.count, fidx := t.table.fidx, nextFree := s.table.nextFree + 1#32 } } ∧
        (∀ i, t.table.key.read i = if i = s.table.h1 s.build.hashSel k then k else s.table.key.read i) ∧
        (∀ i, t.table.count.read i = if i = s.table.h1 s.build.hashSel k then 0#16 else s.table.count.read i) ∧
        (∀ i, t.table.fidx.read i =
          if i = s.table.h1 s.build.hashSel k then s.table.nextFree else s.table.fidx.read i))

/-- 40_table.md R131, R132, R138, R140: in a consistent table an insertion that answers 1 leaves the key present, and every
key that was present still present with its count, its index and its follower vector, wherever the kicks moved it; a key
that was absent has count 0 and the next pool index. One that answers 0 leaves the table full: with nothing else changed
if it was full or the pool had run out, and else with one entry discarded, which may be the new one, and every other
entry present with its count and index. Either way no other key appears, and no bitmap and nothing outside the table but
RESULT changes. -/
def Obligations.InsertionKeepsEveryKey : Prop :=
  ∀ (s : State) (k : Key), s.Ready → s.TableConsistent → legalKey k = true →
    ∃ t, exec (.tblInsert k) s = .next t ∧ (t.result = 0#64 ∨ t.result = 1#64) ∧
      t = { s with result := t.result
                   table := { t.table with n := s.table.n, m := s.table.m, pool := s.table.pool } } ∧
      (t.result = 1#64 → t.table.contains s.build.hashSel k = true ∧ t.table.isFull = false ∧
        (s.table.contains s.build.hashSel k = true → t.table = s.table) ∧
        (s.table.contains s.build.hashSel k = false → t.table.nextFree = s.table.nextFree + 1#32) ∧
        (∀ k', k' ≠ 0#64 → t.table.entryOf s.build.hashSel k' =
          if k' = k ∧ s.table.contains s.build.hashSel k = false then some (0#16, s.table.nextFree)
          else s.table.entryOf s.build.hashSel k') ∧
        ∀ k', k' ≠ 0#64 → s.table.contains s.build.hashSel k' = true →
          t.table.contains s.build.hashSel k' = true ∧
          t.table.countOf s.build.hashSel k' = s.table.countOf s.build.hashSel k' ∧
          t.table.followers s.build.hashSel k' = s.table.followers s.build.hashSel k') ∧
      (t.result = 0#64 → t.table.isFull = true ∧
        (s.table.isFull = true → t.table = s.table) ∧
        (s.table.isFull = false → s.table.m.toNat ≤ s.table.nextFree.toNat →
          t.table = { s.table with isFull := true }) ∧
        (s.table.isFull = false → s.table.nextFree.toNat < s.table.m.toNat →
          t.table.nextFree = s.table.nextFree + 1#32 ∧
          ∃ d, d ≠ 0#64 ∧ (d = k ∨ s.table.contains s.build.hashSel d = true) ∧
            t.table.entryOf s.build.hashSel d = none ∧
            ∀ k', k' ≠ 0#64 → k' ≠ d → t.table.entryOf s.build.hashSel k' =
              if k' = k then some (0#16, s.table.nextFree) else s.table.entryOf s.build.hashSel k')) ∧
      (∀ k', k' ≠ 0#64 → t.table.contains s.build.hashSel k' = true →
        k' = k ∨ s.table.contains s.build.hashSel k' = true)

/-- 40_table.md R153, R134: TBL_SEEN of a present key raises its count, never past 65535, and marks the key's trailing
byte in its parent's bitmap when the key is not the root and the parent is present with an index; nothing else changes.
An absent key is inserted first as TBL_INSERT does, and answers 0 with nothing more done when that fails. -/
def Obligations.TblSeenCountsAndMarks : Prop :=
  ∀ (s : State) (k : Key), s.Ready →
    (legalKey k = false → exec (.tblSeen k) s = .next { s with fault := true, fcode := 7#4 }) ∧
    (∀ u, legalKey k = true → s.MemoryWf → s.table.contains s.build.hashSel k = false →
      exec (.tblInsert k) s = .next u →
      (u.result = 0#64 → exec (.tblSeen k) s = .next u) ∧
      (u.result ≠ 0#64 → u.table.contains s.build.hashSel k = true ∧ exec (.tblSeen k) s = exec (.tblSeen k) u)) ∧
    (∀ i, legalKey k = true → s.MemoryWf → s.table.slotOf s.build.hashSel k = some i →
      ∃ t, exec (.tblSeen k) s = .next t ∧ t.result = 1#64 ∧
        t = { s with result := t.result, table := { s.table with count := t.table.count, pool := t.table.pool } } ∧
        (t.table.count.read i).toNat = min ((s.table.count.read i).toNat + 1) 65535 ∧
        (∀ j, j ≠ i → t.table.count.read j = s.table.count.read j) ∧
        (k = 0x8000000000000000#64 ∨ s.table.slotOf s.build.hashSel (parentKey k) = none →
          t.table.pool = s.table.pool) ∧
        (∀ p, k ≠ 0x8000000000000000#64 → s.table.slotOf s.build.hashSel (parentKey k) = some p →
          (s.table.fidx.read p = 0#32 → t.table.pool = s.table.pool) ∧
          (s.table.fidx.read p ≠ 0#32 → ∀ q c, c < 256 →
            (t.table.pool.read q).getLsbD c =
              ((s.table.pool.read q).getLsbD c ||
                (decide (q = (s.table.fidx.read p).toNat) && decide (c = trailingByte k))))))

/-- 40_table.md R155, R135: TBL_RESCALE halves the count of every occupied slot below N and changes nothing else. -/
def Obligations.TblRescaleHalvesTheCounts : Prop :=
  ∀ s : State, s.Ready → s.MemoryWf →
    encode .tblRescale = [0x15000000#32] ∧
    ∃ t, exec .tblRescale s = .next t ∧ t = { s with table := { s.table with count := t.table.count } } ∧
      ∀ i, (t.table.count.read i).toNat =
        if i < s.table.n.toNat ∧ s.table.key.read i ≠ 0#64 then (s.table.count.read i).toNat / 2
        else (s.table.count.read i).toNat

/-- 40_table.md R156, R137: TBL_RESET leaves the root alone, in slot h1(root) with count 1 and index 1, every bitmap
empty, S.next_free 2 and S.is_full 0, and changes nothing outside the table. -/
def Obligations.TblResetLeavesTheRootAlone : Prop :=
  ∀ s : State, s.Ready → 0 < s.table.n.toNat → 1 < s.table.m.toNat →
    encode .tblReset = [0x16000000#32] ∧
    ∃ t, exec .tblReset s = .next t ∧ t = { s with table := t.table } ∧
      t.table.n = s.table.n ∧ t.table.m = s.table.m ∧ t.table.nextFree = 2#32 ∧ t.table.isFull = false ∧
      (∀ i < s.table.n.toNat,
        t.table.key.read i = (if i = s.table.h1 s.build.hashSel 0x8000000000000000#64 then 0x8000000000000000#64 else 0#64) ∧
        t.table.count.read i = (if i = s.table.h1 s.build.hashSel 0x8000000000000000#64 then 1#16 else 0#16) ∧
        t.table.fidx.read i = (if i = s.table.h1 s.build.hashSel 0x8000000000000000#64 then 1#32 else 0#32)) ∧
      (∀ q < s.table.m.toNat, t.table.pool.read q = 0#256)

/-- 40_table.md R157, R136, R160: TBL_FULL gives S.is_full and TBL_PEEK one field of one slot, and each changes nothing but
RESULT; for TBL_PEEK a slot at or above N is BAD_INDEX, and selector 3 is ILLEGAL whatever the slot. -/
def Obligations.TblFullAndTblPeekReadTheTable : Prop :=
  encode .tblFull = [0x17000000#32] ∧
  ∀ (s : State) (slot : Reg), s.Ready →
    exec .tblFull s = .next { s with result := if s.table.isFull then 1#64 else 0#64 } ∧
    exec (.tblPeek 3#2 slot) s = .next { s with fault := true, fcode := 1#4 } ∧
    (∀ sel : BitVec 2, sel ≠ 3#2 → s.table.n.toNat ≤ slot.toNat →
      exec (.tblPeek sel slot) s = .next { s with fault := true, fcode := 13#4 }) ∧
    (slot.toNat < s.table.n.toNat →
      exec (.tblPeek 0#2 slot) s = .next { s with result := s.table.key.read slot.toNat } ∧
      exec (.tblPeek 1#2 slot) s = .next { s with result := (s.table.count.read slot.toNat).setWidth 64 } ∧
      exec (.tblPeek 2#2 slot) s = .next { s with result := (s.table.fidx.read slot.toNat).setWidth 64 })

/-! ## Modeller -/

/-- 41_modeller.md R200, 30_encoding.md R95: MDL_DIST refuses an order below -1 (fields 8 to 14) or above O with
BAD_ORDER, and a push onto a list of seven keys with VISIT_OVERFLOW, and then changes nothing else. -/
def Obligations.MdlDistRefusesBadOrders : Prop :=
  ∀ (s : State) (ordf : BitVec 4), s.Ready →
    ((8 ≤ ordf.toNat ∧ ordf.toNat ≤ 14) ∨ (ordf.toNat ≤ 7 ∧ s.order < ordf.toNat) →
      exec (.mdlDist ordf) s = .next { s with fault := true, fcode := 5#4 }) ∧
    (ordf.toNat ≤ 7 → ordf.toNat < s.order → ordf.toNat ≤ s.model.win.length → s.model.visit.length = 7 →
      exec (.mdlDist ordf) s = .next { s with fault := true, fcode := 12#4 })

/-- 41_modeller.md R183, R181, R185: an order above the window's length gives ESCAPE frequency 1 of total 1, and pushes
nothing; below the configured order the rest of the array and the exclusion mask stay. -/
def Obligations.MdlDistShortWindow : Prop :=
  ∀ (s : State) (ordf : BitVec 4), s.Ready → s.model.dist.wf = true → ordf.toNat ≤ 7 → ordf.toNat ≤ s.order →
    s.model.win.length < ordf.toNat →
    ∃ t, exec (.mdlDist ordf) s = .next t ∧
      t = { s with result := 1#64, model := { s.model with
        dist := t.model.dist, dchk := 0#256, excl := s.exclBefore ordf.toNat, visit := s.visitBefore ordf.toNat,
        latestRun := 0#32, lastRun := 1#32 } } ∧
      t.model.distAt 256 = 0 ∧ t.model.distAt 257 = 1 ∧ t.model.distAt 258 = 1 ∧
      (∀ i < 256, t.model.distAt i = s.distBefore ordf.toNat i)

/-- 41_modeller.md R186, R185, R188: a context that is not in the table gives an all-zero array but for the escape, and is
pushed. -/
def Obligations.MdlDistAbsentParent : Prop :=
  ∀ (s : State) (ordf : BitVec 4), s.Ready → s.model.dist.wf = true → ordf.toNat ≤ 7 → ordf.toNat ≤ s.order →
    ordf.toNat ≤ s.model.win.length → (s.visitBefore ordf.toNat).length < 7 →
    s.table.contains s.build.hashSel (s.contextAt ordf.toNat) = false →
    ∃ t, exec (.mdlDist ordf) s = .next t ∧
      t = { s with result := 1#64, model := { s.model with
        dist := t.model.dist, dchk := 0#256, excl := s.exclBefore ordf.toNat,
        visit := s.visitBefore ordf.toNat ++ [s.contextAt ordf.toNat], latestRun := 0#32, lastRun := 1#32 } } ∧
      (∀ i ≤ 256, t.model.distAt i = 0) ∧ t.model.distAt 257 = 1 ∧ t.model.distAt 258 = 1

/-- 41_modeller.md R182, R184, R185, R188, R189: a present context gives each follower that is not excluded and has a
count f the interval of width 2f - 1 at the sum of the widths below it, ESCAPE an interval as wide as the number of such
bytes (at least 1), and EOS none; those bytes become the candidates and are excluded from lower orders. -/
def Obligations.MdlDistPresentParent : Prop :=
  ∀ (s : State) (ordf : BitVec 4), s.Ready → s.model.dist.wf = true → ordf.toNat ≤ 7 → ordf.toNat ≤ s.order →
    ordf.toNat ≤ s.model.win.length → (s.visitBefore ordf.toNat).length < 7 →
    s.table.contains s.build.hashSel (s.contextAt ordf.toNat) = true →
    ∃ t, exec (.mdlDist ordf) s = .next t ∧
      t = { s with result := t.result, model := { s.model with
        dist := t.model.dist, dchk := t.model.dchk, excl := t.model.excl,
        visit := s.visitBefore ordf.toNat ++ [s.contextAt ordf.toNat],
        latestRun := t.model.latestRun, lastRun := t.model.lastRun,
        outscale := s.model.outscale || decide (65535 < t.model.distAt 257) } } ∧
      (∀ c < 256, t.model.dchk.getLsbD c = s.codable ordf.toNat c) ∧
      (∀ c < 256, t.model.excl.getLsbD c = ((s.exclBefore ordf.toNat).getLsbD c && !(s.codable ordf.toNat c))) ∧
      (∀ c < 256, s.codable ordf.toNat c = true →
        t.model.distAt c = s.weightBelow ordf.toNat c ∧
        t.model.distAt (c + 1) = s.weightBelow ordf.toNat c + (2 * s.childCount ordf.toNat c - 1)) ∧
      (∀ i < 256, s.codable ordf.toNat i = false → (0 < i → s.codable ordf.toNat (i - 1) = false) →
        t.model.distAt i = s.distBefore ordf.toNat i) ∧
      t.model.distAt 256 = s.weightBelow ordf.toNat 256 ∧
      t.model.distAt 257 =
        s.weightBelow ordf.toNat 256 + max 1 ((List.range 256).filter (s.codable ordf.toNat)).length ∧
      t.model.distAt 258 = t.model.distAt 257 ∧
      t.result.toNat = t.model.distAt 258 ∧ t.model.latestRun.toNat = t.model.distAt 256 ∧
      t.model.lastRun.toNat = t.model.distAt 257 ∧ t.model.distAt 258 ≤ 33553920

/-- 41_modeller.md R187: order -1 gives every byte not excluded frequency 1, every excluded byte and ESCAPE 0, and EOS 1;
the candidates are the bytes not excluded; nothing is pushed and no other modeller state changes. -/
def Obligations.MdlDistFallback : Prop :=
  ∀ s : State, s.Ready → s.model.dist.wf = true →
    ∃ t, exec (.mdlDist 15#4) s = .next t ∧
      t = { s with result := t.result, model := { s.model with dist := t.model.dist, dchk := s.model.excl } } ∧
      (∀ c ≤ 256, t.model.distAt c = openBelow s.model.excl c) ∧
      t.model.distAt 257 = openBelow s.model.excl 256 ∧ t.model.distAt 258 = openBelow s.model.excl 256 + 1 ∧
      t.result.toNat = openBelow s.model.excl 256 + 1

/-- 41_modeller.md R201, R195, R196: MDL_UPDATE clears the visit list and the rescale request, appends the byte to the
window (evicting the oldest at capacity), answers how many saturation events it handled, and touches only the table and
the named modeller registers; a symbol above 255 is BAD_SYMBOL. -/
def Obligations.MdlUpdateAdvancesTheWindow : Prop :=
  ∀ (s : State) (sym : BitVec 9), s.Ready →
    encode (.mdlUpdate sym) = [0x21#8 ++ (0#15 ++ sym)] ∧
    (255 < sym.toNat → exec (.mdlUpdate sym) s = .next { s with fault := true, fcode := 6#4 }) ∧
    (sym.toNat ≤ 255 → ∃ t, exec (.mdlUpdate sym) s = .next t ∧
      t = { s with result := t.result, draws := t.draws
                   table := { t.table with n := s.table.n, m := s.table.m }
                   model := { s.model with win := t.model.win, visit := [], outscale := false,
                                           sumEsc := t.model.sumEsc, bootEn := t.model.bootEn,
                                           satCount := t.model.satCount } } ∧
      t.model.win = (if s.model.h.toNat ≤ s.model.win.length then s.model.win.drop 1 else s.model.win) ++
        [BitVec.ofNat 8 sym.toNat] ∧
      (t.model.bootEn = true → s.model.bootEn = true) ∧
      (s.model.satCount.toNat + 2 < 2 ^ 64 →
        t.result.toNat ≤ 2 ∧ t.model.satCount.toNat = s.model.satCount.toNat + t.result.toNat ∧ t.draws = s.draws))

/-- 41_modeller.md R190 to R193, R196: an update first serves a rescale that is due (a pending one, the adaptation
threshold reached, or a count about to reach MAX_FREQ) as TBL_RESCALE does, and then does to the table exactly what
TBL_INSERT of each visited key that is absent and TBL_SEEN of each visited key's child do, in push order; where none of
them fails it answers 0 and handles no saturation event. -/
def Obligations.MdlUpdateSeesTheChild : Prop :=
  ∀ (s : State) (c : Byte) (r u : State), s.Ready → (∀ v ∈ s.model.visit, visitable v) →
    s.model.sumEsc.toNat + (s.model.lastRun.toNat - s.model.latestRun.toNat) < 2 ^ 64 →
    r = (if s.rescaleDue c then s.after .tblRescale else s) →
    r.seeChildren c s.model.visit = (u, true) →
    ∃ t, exec (.mdlUpdate (c.setWidth 9)) s = .next t ∧ t.result = 0#64 ∧ t.table = u.table ∧
      t.model.satCount = s.model.satCount ∧ t.model.bootEn = s.model.bootEn ∧ t.draws = s.draws ∧
      t.model.sumEsc.toNat =
        (if s.rescaleDue c then 0 else if s.adapt = 0 then s.model.sumEsc.toNat
         else s.model.sumEsc.toNat + (s.model.lastRun.toNat - s.model.latestRun.toNat))

/-- 41_modeller.md R190, R192: with the adaptation on and no key visited, an update adds the last escape frequency to
S.sum_esc, and rescales the table and clears the sum when the threshold is reached or a rescale was pending. -/
def Obligations.MdlUpdateAdapts : Prop :=
  ∀ (s : State) (c : Byte), s.Ready → s.adapt ≠ 0 → s.model.visit = [] →
    s.model.sumEsc.toNat + (s.model.lastRun.toNat - s.model.latestRun.toNat) < 2 ^ 64 →
    ∃ t, exec (.mdlUpdate (c.setWidth 9)) s = .next t ∧ t.result = 0#64 ∧
      (s.model.adaptThr.toNat ≤ s.model.sumEsc.toNat + (s.model.lastRun.toNat - s.model.latestRun.toNat) ∨
        s.model.outscale = true →
        t.model.sumEsc = 0#64 ∧ exec .tblRescale s = .next { s with table := t.table }) ∧
      (s.model.sumEsc.toNat + (s.model.lastRun.toNat - s.model.latestRun.toNat) < s.model.adaptThr.toNat →
        s.model.outscale = false →
        t.model.sumEsc.toNat = s.model.sumEsc.toNat + (s.model.lastRun.toNat - s.model.latestRun.toNat) ∧
        t.table = s.table)

/-- 41_modeller.md R193, R194, R197, R198: an update whose insertion or increment of a visited key fails stops there, resets
the table as TBL_RESET does and counts one saturation event; with a full window and bootstrap enabled it then replays the
window as TBL_SEEN of each replay key does, and a replay that fails counts a second event, resets the table again (the
root alone, every bitmap empty, not full) and disables bootstrap. The replay keys are, for each length from 1 to O + 1,
the contexts of that length ending at each window position that has one, oldest first. -/
def Obligations.SaturationResetsTheTable : Prop :=
  (∀ win : List Byte, replayKeys win 0 = win.map fun b => contextKey [b]) ∧
  (∀ (win : List Byte) (o : Nat), ∃ pass, replayKeys win (o + 1) = replayKeys win o ++ pass ∧
    pass.length = win.length - (o + 1) ∧
    ∀ i, o + 1 ≤ i → i < win.length →
      pass[i - (o + 1)]? = some (contextKey ((win.take (i + 1)).drop (i - (o + 1))))) ∧
  (∀ (s : State) (c : Byte) (r u : State), s.Ready → (∀ v ∈ s.model.visit, visitable v) →
    s.model.sumEsc.toNat + (s.model.lastRun.toNat - s.model.latestRun.toNat) < 2 ^ 64 →
    s.model.satCount.toNat + 2 < 2 ^ 64 →
    r = (if s.rescaleDue c then s.after .tblRescale else s) →
    r.seeChildren c s.model.visit = (u, false) →
    ∃ t z, exec (.mdlUpdate (c.setWidth 9)) s = .next t ∧ exec .tblReset u = .next z ∧
      (s.model.bootEn = false ∨ s.model.win.length < s.model.h.toNat →
        t.table = z.table ∧ t.result = 1#64 ∧ t.model.bootEn = s.model.bootEn) ∧
      (∀ w, s.model.bootEn = true → s.model.h.toNat ≤ s.model.win.length → s.order ≤ 6 →
        z.seeKeys (replayKeys s.model.win s.order) = (w, true) →
        t.table = w.table ∧ t.result = 1#64 ∧ t.model.bootEn = true) ∧
      (∀ w, s.model.bootEn = true → s.model.h.toNat ≤ s.model.win.length → s.order ≤ 6 →
        0 < s.table.n.toNat → 1 < s.table.m.toNat →
        z.seeKeys (replayKeys s.model.win s.order) = (w, false) →
        t.result = 2#64 ∧ t.model.bootEn = false ∧ (∃ y, exec .tblReset w = .next y ∧ t.table = y.table) ∧
        t.table.isFull = false ∧ t.table.nextFree = 2#32 ∧ (∀ q < s.table.m.toNat, t.table.pool.read q = 0#256) ∧
        (∀ i < s.table.n.toNat, t.table.key.read i = z.table.key.read i ∧
          t.table.count.read i = z.table.count.read i ∧ t.table.fidx.read i = z.table.fidx.read i)))

/-! ## Arithmetic coder -/

/-- 42_coder.md R230, R231: ENC_START sets the whole range and clears the counters, leaving the bit writer and everything
else; with a partial byte in the writer it is SEQUENCE. ENC_SYM refuses, in this order, a symbol above 257 (BAD_SYMBOL),
an inactive encoder (SEQUENCE) and an empty or out-of-range interval (ZERO_FREQ), and then changes nothing else. -/
def Obligations.EncStartAndEncSymRefusals : Prop :=
  encode .encStart = [0x30000000#32] ∧
  ∀ (s : State) (sym : BitVec 9), s.Ready →
    (s.bits.wrCnt ≠ 0#3 → exec .encStart s = .next { s with fault := true, fcode := 9#4 }) ∧
    (s.bits.wrCnt = 0#3 → exec .encStart s = .next { s with enc :=
      { low := 0#64, high := 0xFFFFFFFF#64, btf := 0#64, outcnt := 0#64, active := true } }) ∧
    (257 < sym.toNat → exec (.encSym sym) s = .next { s with fault := true, fcode := 6#4 }) ∧
    (sym.toNat ≤ 257 → s.enc.active = false → exec (.encSym sym) s = .next { s with fault := true, fcode := 9#4 }) ∧
    (sym.toNat ≤ 257 → s.enc.active = true →
      (s.model.distAt 258 = 0 ∨ s.model.distAt (sym.toNat + 1) ≤ s.model.distAt sym.toNat ∨
        s.model.distAt 258 < s.model.distAt (sym.toNat + 1)) →
      exec (.encSym sym) s = .next { s with fault := true, fcode := 8#4 })

/-- 42_coder.md R231, R221 to R224, R226, R246: ENC_SYM of a symbol with a proper interval completes and changes nothing
but the encoder, the bit writer and the output. From a renormalised range it narrows to the symbol's interval and shifts
it k times, at most 32, until it is renormalised: the width doubles with each shift, each shift is one more bit, sent or
pending, and the bits sent, the pending bits and the new low end together spell the low end of the symbol's interval, k
places up (with the bits that were pending before above it). S.outcnt counts the bytes delivered. A symbol as wide as the
total changes nothing. -/
def Obligations.EncSymNarrowsTheRange : Prop :=
  ∀ (s : State) (sym : BitVec 9) (l r total : Nat), s.Ready → sym.toNat ≤ 257 → s.enc.active = true →
    l = s.model.distAt sym.toNat → r = s.model.distAt (sym.toNat + 1) → total = s.model.distAt 258 →
    l < r → r ≤ total →
    ∃ t, exec (.encSym sym) s = .next t ∧
      t = { s with enc := { s.enc with low := t.enc.low, high := t.enc.high, btf := t.enc.btf, outcnt := t.enc.outcnt }
                   bits := { s.bits with wrBuf := t.bits.wrBuf, wrCnt := t.bits.wrCnt }
                   output := t.output, draws := t.draws } ∧
      (rangeOk s.enc.low s.enc.high → total ≤ 33553920 → s.enc.btf.toNat + 32 < 2 ^ 64 →
        rangeOk t.enc.low t.enc.high ∧
        (∃ k out, k ≤ 32 ∧ t.bitsOut = s.bitsOut ++ out ∧ out.length + t.enc.btf.toNat = s.enc.btf.toNat + k ∧
          t.enc.high.toNat - t.enc.low.toNat + 1 = symbolWidth s.enc.low s.enc.high l r total * 2 ^ k ∧
          ((2 ^ s.enc.btf.toNat - 1) * 2 ^ 31 + symbolLow s.enc.low s.enc.high l total) * 2 ^ k =
            bitsValue out * 2 ^ (32 + t.enc.btf.toNat) +
              ((2 ^ t.enc.btf.toNat - 1) * 2 ^ 31 + t.enc.low.toNat)) ∧
        (s.enc.outcnt.toNat + t.output.length < 2 ^ 64 →
          t.enc.outcnt.toNat + s.output.length = s.enc.outcnt.toNat + t.output.length ∧ t.draws = s.draws) ∧
        (l = 0 → r = total → t = s))

/-- 42_coder.md R243, R221, R223: from equal ranges the encoder coding a symbol and the decoder finding that symbol end in
equal ranges, whatever the input holds. -/
def Obligations.EncoderAndDecoderStayEqual : Prop :=
  ∀ (s : State) (sym : BitVec 9) (t u : State), s.Ready → s.enc.active = true → s.dec.active = true →
    s.enc.low = s.dec.low → s.enc.high = s.dec.high →
    s.model.search (s.dec.target (s.model.distAt 258)) = some sym.toNat → s.model.zeroFreq sym.toNat = false →
    exec (.encSym sym) s = .next t → exec .decSym s = .next u →
    t.enc.low = u.dec.low ∧ t.enc.high = u.dec.high

/-- 42_coder.md R232, R225: ENC_FINISH writes the bit that selects the quarter, one more follow bit than are pending, each
inverted, and zero pad bits to a byte boundary; RESULT is S.outcnt with the bytes it delivered; an inactive encoder is
SEQUENCE. -/
def Obligations.EncFinishFlushesTheCode : Prop :=
  ∀ s : State, s.Ready →
    (s.enc.active = false → exec .encFinish s = .next { s with fault := true, fcode := 9#4 }) ∧
    (s.enc.active = true → s.enc.outcnt.toNat + s.enc.btf.toNat + 3 < 2 ^ 64 →
      ∃ t pad, exec .encFinish s = .next t ∧ pad < 8 ∧
        t.bitsOut = s.bitsOut ++ (decide (0x40000000 ≤ s.enc.low.toNat) ::
          List.replicate (s.enc.btf.toNat + 1) (!(decide (0x40000000 ≤ s.enc.low.toNat))) ++
          List.replicate pad false) ∧
        t.result = t.enc.outcnt ∧
        t.enc.outcnt.toNat + s.output.length = s.enc.outcnt.toNat + t.output.length ∧
        t = { s with result := t.result, output := t.output
                     enc := { s.enc with btf := 0#64, outcnt := t.enc.outcnt, active := false }
                     bits := { s.bits with wrBuf := 0#8, wrCnt := 0#3 } })

/-- 42_coder.md R240: DEC_START primes the value with four input bytes, the first in bits 31:24; with fewer, the missing
bits are 0 and TRUNCATED is recorded after the command completes; unread bits are SEQUENCE. -/
def Obligations.DecStartPrimesTheValue : Prop :=
  ∀ s : State, s.Ready →
    (s.bits.rdCnt ≠ 0#4 → exec .decStart s = .next { s with fault := true, fcode := 9#4 }) ∧
    (∀ b0 b1 b2 b3 rest, s.bits.rdCnt = 0#4 → s.input = b0 :: b1 :: b2 :: b3 :: rest →
      exec .decStart s = .next { s with input := rest, bits := { s.bits with rdBuf := 0#8, rdCnt := 0#4 }
                                        dec := { low := 0#64, high := 0xFFFFFFFF#64
                                                 value := 0#32 ++ ((b0 ++ b1) ++ (b2 ++ b3)), shifts := 0#64
                                                 fetched := 4#64, hist := (b0 ++ b1) ++ (b2 ++ b3)
                                                 eof := false, active := true } }) ∧
    (s.bits.rdCnt = 0#4 → s.input.length < 4 →
      ∃ t, exec .decStart s = .next t ∧ t.fault = true ∧ t.fcode = 10#4 ∧ t.input = [] ∧
        t.dec.value.toNat = bigEndian (s.input ++ List.replicate (4 - s.input.length) 0#8) ∧
        t.dec.fetched.toNat = s.input.length ∧ t.dec.low = 0#64 ∧ t.dec.high = 0xFFFFFFFF#64 ∧
        t.dec.shifts = 0#64 ∧ t.dec.eof = true ∧ t.dec.active = true ∧ t.bits.rdCnt = 0#4 ∧
        t = { s with fault := true, fcode := 10#4, dec := t.dec, input := t.input
                     bits := { s.bits with rdBuf := t.bits.rdBuf, rdCnt := 0#4 } })

/-- 42_coder.md R245, R242: DEC_SYM refuses an inactive decoder (SEQUENCE) and a zero total (DEC_INTERNAL) before any
write; otherwise RESULT is the symbol found, and TRUNCATED is recorded after the writes exactly when the input has ended.
ESCAPE being always a candidate, the search finds a symbol in every state, so it never causes DEC_INTERNAL itself. -/
def Obligations.DecSymAnswersTheSymbolFound : Prop :=
  ∀ s : State, s.Ready →
    (s.dec.active = false → exec .decSym s = .next { s with fault := true, fcode := 9#4 }) ∧
    (s.dec.active = true → s.model.distAt 258 = 0 → exec .decSym s = .next { s with fault := true, fcode := 11#4 }) ∧
    (∀ f, ∃ sym ≤ 257, s.model.search f = some sym) ∧
    (∀ sym, s.dec.active = true → s.model.distAt 258 ≠ 0 →
      s.model.search (s.dec.target (s.model.distAt 258)) = some sym →
      ∃ t, exec .decSym s = .next t ∧ t.result = BitVec.ofNat 64 sym ∧ t.fault = t.dec.eof ∧
        (t.dec.eof = true → t.fcode = 10#4) ∧ (t.dec.eof = false → t.fcode = s.fcode) ∧
        t = { s with result := t.result, fault := t.fault, fcode := t.fcode, dec := t.dec, input := t.input
                     bits := { s.bits with rdBuf := t.bits.rdBuf, rdCnt := t.bits.rdCnt }, draws := t.draws } ∧
        t.dec.active = true)

/-- 42_coder.md R241 to R244, R246: with the coder invariants and 32 bits of input left, DEC_SYM finds the symbol whose
interval holds the target, narrows to it, and reads one bit for each of k shifts; no fault. The low end doubles with each
shift (modulo 2^31, the straddle case taking QTR off first), the width doubles, and the distance of the value from the
low end doubles and takes in the bit read. -/
def Obligations.DecSymFollowsTheCode : Prop :=
  ∀ (s : State) (total : Nat), s.Ready → s.CoderInRange → s.dec.active = true → s.dec.eof = false →
    total = s.model.distAt 258 → 0 < total →
    s.bits.rdCnt.toNat ≤ 8 → 32 ≤ s.bitsIn.length → s.dec.shifts.toNat + 32 < 2 ^ 64 →
    ∃ t sym l r k, exec .decSym s = .next t ∧ t.fault = false ∧ t.result = BitVec.ofNat 64 sym ∧ sym ≤ 257 ∧
      l = s.model.distAt sym ∧ r = s.model.distAt (sym + 1) ∧
      l ≤ s.dec.target total ∧ s.dec.target total < r ∧
      k ≤ 32 ∧ t.bitsIn = s.bitsIn.drop k ∧ t.dec.shifts.toNat = s.dec.shifts.toNat + k ∧ t.dec.eof = false ∧
      rangeOk t.dec.low t.dec.high ∧ t.dec.low.toNat ≤ t.dec.value.toNat ∧ t.dec.value.toNat ≤ t.dec.high.toNat ∧
      t.dec.high.toNat - t.dec.low.toNat + 1 = symbolWidth s.dec.low s.dec.high l r total * 2 ^ k ∧
      t.dec.low.toNat = symbolLow s.dec.low s.dec.high l total * 2 ^ k % 2 ^ 31 ∧
      symbolLow s.dec.low s.dec.high l total ≤ s.dec.value.toNat ∧
      t.dec.value.toNat - t.dec.low.toNat =
        (s.dec.value.toNat - symbolLow s.dec.low s.dec.high l total) * 2 ^ k + bitsValue (s.bitsIn.take k)

/-- 41_modeller.md R181 to R187 with 42_coder.md R242: every MDL_DIST that does not fault leaves a distribution in which
the decoder's search finds, for every target below the total, the one symbol whose interval holds it. -/
def Obligations.DistributionsCanBeSearched : Prop :=
  ∀ (s t : State) (ordf : BitVec 4), s.Ready → s.model.dist.wf = true →
    exec (.mdlDist ordf) s = .next t → t.fault = false →
    0 < t.model.distAt 258 ∧ t.model.distAt 258 ≤ 33553920 ∧ t.model.Decodable

/-- 42_coder.md R247, R246: DEC_TRAILER joins the k bytes already fetched past the payload, oldest first, with the next
4 - k input bytes, big-endian, aligns the reader and stops the decoder; if the input ends in them (or had ended, and then
no byte is asked for) the missing bytes are 0 and TRUNCATED is recorded after the writes; an inactive decoder is
SEQUENCE. -/
def Obligations.DecTrailerReadsTheTrailer : Prop :=
  ∀ (s : State) (k : Nat), s.Ready →
    k = min (s.dec.fetched.toNat - (s.dec.shifts.toNat + 9) / 8) 4 →
    (s.dec.active = false → exec .decTrailer s = .next { s with fault := true, fcode := 9#4 }) ∧
    (s.dec.active = true → s.dec.eof = false → 4 - k ≤ s.input.length →
      exec .decTrailer s = .next { s with
        result := BitVec.ofNat 64 (bigEndian (([s.dec.hist.extractLsb' 24 8, s.dec.hist.extractLsb' 16 8,
          s.dec.hist.extractLsb' 8 8, s.dec.hist.extractLsb' 0 8].drop (4 - k)) ++ s.input.take (4 - k)))
        input := s.input.drop (4 - k), bits := { s.bits with rdBuf := 0#8, rdCnt := 0#4 }
        dec := { s.dec with active := false } }) ∧
    (∀ taken, s.dec.active = true → s.dec.eof = true ∨ s.input.length < 4 - k →
      taken = (if s.dec.eof then [] else s.input) →
      exec .decTrailer s = .next { s with
        result := BitVec.ofNat 64 (bigEndian (([s.dec.hist.extractLsb' 24 8, s.dec.hist.extractLsb' 16 8,
          s.dec.hist.extractLsb' 8 8, s.dec.hist.extractLsb' 0 8].drop (4 - k)) ++ taken ++
          List.replicate (4 - k - taken.length) 0#8))
        fault := true, fcode := 10#4, input := s.input.drop taken.length
        bits := { s.bits with rdBuf := 0#8, rdCnt := 0#4 }
        dec := { s.dec with eof := true, active := false } })

/-! ## Bit and byte input and output -/

/-- 43_bitio.md R270, R262: BIT_PUT appends one bit to the written bits, most significant bit of a byte first; the eighth
delivers the byte and counts it; a value above 1 is BAD_SYMBOL. -/
def Obligations.BitPutAppendsOneBit : Prop :=
  ∀ (s : State) (sym : BitVec 9), s.Ready →
    (1 < sym.toNat → exec (.bitPut sym) s = .next { s with fault := true, fcode := 6#4 }) ∧
    (sym.toNat ≤ 1 → ∃ t, exec (.bitPut sym) s = .next t ∧
      t.bitsOut = s.bitsOut ++ [decide (sym = 1#9)] ∧
      t.bits.wrCnt.toNat = (s.bits.wrCnt.toNat + 1) % 8 ∧
      t = { s with output := t.output, draws := t.draws, enc := { s.enc with outcnt := t.enc.outcnt }
                   bits := { s.bits with wrBuf := t.bits.wrBuf, wrCnt := t.bits.wrCnt } } ∧
      (s.bits.wrCnt.toNat < 7 → t.output = s.output ∧ t.enc.outcnt = s.enc.outcnt) ∧
      (s.bits.wrCnt.toNat = 7 → t.output.length = s.output.length + 1 ∧
        (s.enc.outcnt.toNat + 1 < 2 ^ 64 → t.enc.outcnt.toNat = s.enc.outcnt.toNat + 1 ∧ t.draws = s.draws)))

/-- 43_bitio.md R271, R263: BIT_FLUSH appends zero bits up to a byte boundary, and nothing when the writer is on one. -/
def Obligations.BitFlushPadsToAByte : Prop :=
  ∀ s : State, s.Ready →
    encode .bitFlush = [0x41000000#32] ∧
    (s.bits.wrCnt = 0#3 → exec .bitFlush s = .next s) ∧
    ∃ t, exec .bitFlush s = .next t ∧ t.bits.wrCnt = 0#3 ∧
      t.bitsOut = s.bitsOut ++ List.replicate ((8 - s.bits.wrCnt.toNat) % 8) false ∧
      t = { s with output := t.output, draws := t.draws, enc := { s.enc with outcnt := t.enc.outcnt }
                   bits := { s.bits with wrBuf := t.bits.wrBuf, wrCnt := 0#3 } } ∧
      (s.bits.wrCnt ≠ 0#3 → s.enc.outcnt.toNat + 1 < 2 ^ 64 →
        t.enc.outcnt.toNat = s.enc.outcnt.toNat + 1 ∧ t.output.length = s.output.length + 1)

/-- 43_bitio.md R272, R264, R265: BIT_GET takes the next input bit, asking for a byte only when no unread bit is left; at
the end of the input it answers 2 and S.eof is 1. -/
def Obligations.BitGetTakesTheNextBit : Prop :=
  ∀ s : State, s.Ready → s.bits.rdCnt.toNat ≤ 8 →
    (∀ b rest, s.dec.eof = false → s.bitsIn = b :: rest →
      ∃ t, exec .bitGet s = .next t ∧ t.bitsIn = rest ∧ t.result = (if b then 1#64 else 0#64) ∧
        t.dec.eof = false ∧
        t = { s with result := t.result, input := t.input, draws := t.draws
                     dec := { s.dec with fetched := t.dec.fetched, hist := t.dec.hist }
                     bits := { s.bits with rdBuf := t.bits.rdBuf, rdCnt := t.bits.rdCnt } } ∧
        (s.bits.rdCnt ≠ 0#4 → t.input = s.input ∧ t.dec.fetched = s.dec.fetched ∧ t.dec.hist = s.dec.hist) ∧
        (∀ x xs, s.bits.rdCnt = 0#4 → s.input = x :: xs →
          t.input = xs ∧ t.dec.hist = (s.dec.hist <<< 8) ||| x.setWidth 32 ∧
          (s.dec.fetched.toNat + 1 < 2 ^ 64 → t.dec.fetched.toNat = s.dec.fetched.toNat + 1))) ∧
    (s.bits.rdCnt = 0#4 → s.dec.eof = true ∨ s.input = [] →
      exec .bitGet s = .next { s with result := 2#64, dec := { s.dec with eof := true } })

/-- 43_bitio.md R273, R274: RAW_PUT delivers and RAW_GET takes one whole byte, uncounted, on a byte boundary only; for
RAW_PUT BAD_SYMBOL comes before SEQUENCE; for RAW_GET the end of the input is RESULT 0x100, remembered in S.eof. -/
def Obligations.RawBytesPassUncounted : Prop :=
  encode .rawGet = [0x44000000#32] ∧
  ∀ (s : State) (sym : BitVec 9), s.Ready →
    encode (.rawPut sym) = [0x43#8 ++ (0#15 ++ sym)] ∧
    (255 < sym.toNat → exec (.rawPut sym) s = .next { s with fault := true, fcode := 6#4 }) ∧
    (sym.toNat ≤ 255 → s.bits.wrCnt ≠ 0#3 → exec (.rawPut sym) s = .next { s with fault := true, fcode := 9#4 }) ∧
    (sym.toNat ≤ 255 → s.bits.wrCnt = 0#3 →
      exec (.rawPut sym) s = .next { s with output := s.output ++ [BitVec.ofNat 8 sym.toNat] }) ∧
    (s.bits.rdCnt ≠ 0#4 → exec .rawGet s = .next { s with fault := true, fcode := 9#4 }) ∧
    (s.bits.rdCnt = 0#4 → s.dec.eof = true → exec .rawGet s = .next { s with result := 0x100#64 }) ∧
    (s.bits.rdCnt = 0#4 → s.dec.eof = false → s.input = [] →
      exec .rawGet s = .next { s with result := 0x100#64, dec := { s.dec with eof := true } }) ∧
    (∀ x rest, s.bits.rdCnt = 0#4 → s.dec.eof = false → s.input = x :: rest →
      exec .rawGet s = .next { s with result := x.setWidth 64, input := rest })

/-- 43_bitio.md R266: bits written with BIT_PUT from a byte boundary and ended with BIT_FLUSH, read back with BIT_GET
from an input holding the bytes delivered, are the same bits followed by the pad zeros. -/
def Obligations.WrittenBitsReadBack : Prop :=
  ∀ (s : State) (bs : List Bool), s.Ready → s.bits.wrCnt = 0#3 →
    ∃ t bytes pad, execAll ((bs.map fun b => Instr.bitPut (if b then 1#9 else 0#9)) ++ [.bitFlush]) s = .next t ∧
      t.output = s.output ++ bytes ∧ pad < 8 ∧ bs.length + pad = 8 * bytes.length ∧
      ∀ (r : State) (rest : List Byte), r.Ready → r.bits.rdCnt = 0#4 → r.dec.eof = false → r.input = bytes ++ rest →
        ∀ n b, (bs ++ List.replicate pad false)[n]? = some b →
          ∃ u, execAll (List.replicate (n + 1) .bitGet) r = .next u ∧ u.result = if b then 1#64 else 0#64

/-! ## The whole machine -/

/-- 10_state.md R24, R25, 20_memory.md R82: no command but INIT changes S.cfg, CONFIG, N, M, H or the adaptation
threshold, and none changes the build parameters. -/
def Obligations.OnlyInitChangesTheConfiguration : Prop :=
  ∀ (i : Instr) (s t : State), exec i s = .next t →
    t.build = s.build ∧
    ((∀ o b boot adapt, i ≠ .init o b boot adapt) →
      t.cfg = s.cfg ∧ t.config = s.config ∧ t.table.n = s.table.n ∧ t.table.m = s.table.m ∧ t.model.h = s.model.h ∧
      t.model.adaptThr = s.model.adaptThr)

/-- 20_memory.md R75, R81: a step only appends to the output and only takes bytes from the front of the input. -/
def Obligations.BytePortsMoveForward : Prop :=
  ∀ s t : State, step s = .next t → (∃ out, t.output = s.output ++ out) ∧ ∃ taken, s.input = taken ++ t.input

/-- 40_table.md sections 3 (R137) and 5, 42_coder.md sections 3 and 4, 43_bitio.md section 3: the components a command
cannot reach: TBL_* commands
leave the modeller, both coders and bit_io alone; ENC_* and bit-writer commands leave the table, the modeller and the
decoder alone; DEC_* and bit-reader commands leave the table, the modeller, the encoder and the output alone. -/
def Obligations.CommandsKeepToTheirComponent : Prop :=
  ∀ (i : Instr) (s t : State), exec i s = .next t →
    (((∃ k, i = .tblContains k) ∨ (∃ k, i = .tblCount k) ∨ (∃ k, i = .tblInsert k) ∨ (∃ k, i = .tblSeen k) ∨
        (∃ w k, i = .tblFollower w k) ∨ i = .tblRescale ∨ i = .tblReset ∨ i = .tblFull ∨
        (∃ w k, i = .tblPeek w k) ∨ (∃ w k, i = .tblHash w k)) →
      t.model = s.model ∧ t.enc = s.enc ∧ t.dec = s.dec ∧ t.bits = s.bits ∧ t.input = s.input ∧ t.output = s.output) ∧
    ((i = .encStart ∨ (∃ x, i = .encSym x) ∨ i = .encFinish ∨ (∃ x, i = .bitPut x) ∨ i = .bitFlush ∨
        (∃ x, i = .rawPut x)) →
      t.table = s.table ∧ t.model = s.model ∧ t.dec = s.dec ∧ t.input = s.input ∧
      t.bits.rdBuf = s.bits.rdBuf ∧ t.bits.rdCnt = s.bits.rdCnt) ∧
    ((i = .decStart ∨ i = .decSym ∨ i = .decTrailer ∨ i = .bitGet ∨ i = .rawGet) →
      t.table = s.table ∧ t.model = s.model ∧ t.enc = s.enc ∧ t.output = s.output ∧
      t.bits.wrBuf = s.bits.wrBuf ∧ t.bits.wrCnt = s.bits.wrCnt)

/-! ## Invariants -/

/-- 70_reset_and_hazards.md R330: the values the spec gives for power-on; with the model's own choices for the rest (log
entries 1 and 7) the invariants below hold there. -/
def Obligations.PowerOnState : Prop :=
  State.reset.cfg = false ∧ State.reset.fault = false ∧ State.reset.fcode = 0#4 ∧ State.reset.enc.active = false ∧
  State.reset.dec.active = false ∧ State.reset.dec.eof = false ∧
  State.reset.MemoryWf ∧ State.reset.Bounded ∧ State.reset.TableConsistent ∧ State.reset.CoderInRange

/-- Every internal memory stays in canonical form (the model's own form, log entry 7), so that equal memories are equal
data. -/
def Obligations.MemoriesStayCanonical : Prop :=
  ∀ s t : State, s.MemoryWf → step s = .next t → t.MemoryWf

/-- 10_state.md R23, R25, R33, R34, R53: the bounds of the registers hold after every step. -/
def Obligations.BoundsHold : Prop :=
  ∀ s t : State, s.Bounded → step s = .next t → t.Bounded

/-- 40_table.md R138 (sections 3 and 4): the invariants I1, I2, I4 and P3 of the table hold after every step, kicks,
saturation, resets and replays included. I5 holds by the width of COUNT. The invariant also carries the canonical form of
the memories (the model's own, log entry 7), the parameters INIT derives (00_scope.md R8) and visited keys that are legal
and have a child (41_modeller.md R180), without which it would not be kept. -/
def Obligations.TableStaysConsistent : Prop :=
  ∀ s t : State, s.TableConsistent → step s = .next t → t.TableConsistent

/-- 42_coder.md R226, R244: both coders stay renormalised and the decoder's value stays in its interval after every step,
whatever the host issues and whatever the input holds. -/
def Obligations.CodersStayInRange : Prop :=
  ∀ s t : State, s.CoderInRange → step s = .next t → t.CoderInRange
end

