-- ==== Sys2Proof/Laws/State.lean ====
section
/-! SUPPORT. What each named update makes each field of `State` read: one lemma per field per update. -/

namespace Sys2Proof.Machine

variable (s : State)

@[simp] theorem State.raise_result (c : FaultCode) : (s.raise c).result = s.result := rfl
@[simp] theorem State.raise_cfg (c : FaultCode) : (s.raise c).cfg = s.cfg := rfl
@[simp] theorem State.raise_fault (c : FaultCode) : (s.raise c).fault = true := rfl
@[simp] theorem State.raise_fcode (c : FaultCode) : (s.raise c).fcode = faultNumber c := rfl
@[simp] theorem State.raise_config (c : FaultCode) : (s.raise c).config = s.config := rfl
@[simp] theorem State.raise_table (c : FaultCode) : (s.raise c).table = s.table := rfl
@[simp] theorem State.raise_model (c : FaultCode) : (s.raise c).model = s.model := rfl
@[simp] theorem State.raise_enc (c : FaultCode) : (s.raise c).enc = s.enc := rfl
@[simp] theorem State.raise_dec (c : FaultCode) : (s.raise c).dec = s.dec := rfl
@[simp] theorem State.raise_bits (c : FaultCode) : (s.raise c).bits = s.bits := rfl
@[simp] theorem State.raise_build (c : FaultCode) : (s.raise c).build = s.build := rfl
@[simp] theorem State.raise_port (c : FaultCode) : (s.raise c).port = s.port := rfl
@[simp] theorem State.raise_input (c : FaultCode) : (s.raise c).input = s.input := rfl
@[simp] theorem State.raise_output (c : FaultCode) : (s.raise c).output = s.output := rfl
@[simp] theorem State.raise_draws (c : FaultCode) : (s.raise c).draws = s.draws := rfl

@[simp] theorem State.clearFault_result : s.clearFault.result = s.result := rfl
@[simp] theorem State.clearFault_cfg : s.clearFault.cfg = s.cfg := rfl
@[simp] theorem State.clearFault_fault : s.clearFault.fault = false := rfl
@[simp] theorem State.clearFault_fcode : s.clearFault.fcode = 0#4 := rfl
@[simp] theorem State.clearFault_config : s.clearFault.config = s.config := rfl
@[simp] theorem State.clearFault_table : s.clearFault.table = s.table := rfl
@[simp] theorem State.clearFault_model : s.clearFault.model = s.model := rfl
@[simp] theorem State.clearFault_enc : s.clearFault.enc = s.enc := rfl
@[simp] theorem State.clearFault_dec : s.clearFault.dec = s.dec := rfl
@[simp] theorem State.clearFault_bits : s.clearFault.bits = s.bits := rfl
@[simp] theorem State.clearFault_build : s.clearFault.build = s.build := rfl
@[simp] theorem State.clearFault_port : s.clearFault.port = s.port := rfl
@[simp] theorem State.clearFault_input : s.clearFault.input = s.input := rfl
@[simp] theorem State.clearFault_output : s.clearFault.output = s.output := rfl
@[simp] theorem State.clearFault_draws : s.clearFault.draws = s.draws := rfl

@[simp] theorem State.setResult_result (v : Reg) : (s.setResult v).result = v := rfl
@[simp] theorem State.setResult_cfg (v : Reg) : (s.setResult v).cfg = s.cfg := rfl
@[simp] theorem State.setResult_fault (v : Reg) : (s.setResult v).fault = s.fault := rfl
@[simp] theorem State.setResult_fcode (v : Reg) : (s.setResult v).fcode = s.fcode := rfl
@[simp] theorem State.setResult_config (v : Reg) : (s.setResult v).config = s.config := rfl
@[simp] theorem State.setResult_table (v : Reg) : (s.setResult v).table = s.table := rfl
@[simp] theorem State.setResult_model (v : Reg) : (s.setResult v).model = s.model := rfl
@[simp] theorem State.setResult_enc (v : Reg) : (s.setResult v).enc = s.enc := rfl
@[simp] theorem State.setResult_dec (v : Reg) : (s.setResult v).dec = s.dec := rfl
@[simp] theorem State.setResult_bits (v : Reg) : (s.setResult v).bits = s.bits := rfl
@[simp] theorem State.setResult_build (v : Reg) : (s.setResult v).build = s.build := rfl
@[simp] theorem State.setResult_port (v : Reg) : (s.setResult v).port = s.port := rfl
@[simp] theorem State.setResult_input (v : Reg) : (s.setResult v).input = s.input := rfl
@[simp] theorem State.setResult_output (v : Reg) : (s.setResult v).output = s.output := rfl
@[simp] theorem State.setResult_draws (v : Reg) : (s.setResult v).draws = s.draws := rfl

@[simp] theorem State.setTable_result (t : Table) : (s.setTable t).result = s.result := rfl
@[simp] theorem State.setTable_cfg (t : Table) : (s.setTable t).cfg = s.cfg := rfl
@[simp] theorem State.setTable_fault (t : Table) : (s.setTable t).fault = s.fault := rfl
@[simp] theorem State.setTable_fcode (t : Table) : (s.setTable t).fcode = s.fcode := rfl
@[simp] theorem State.setTable_config (t : Table) : (s.setTable t).config = s.config := rfl
@[simp] theorem State.setTable_table (t : Table) : (s.setTable t).table = t := rfl
@[simp] theorem State.setTable_model (t : Table) : (s.setTable t).model = s.model := rfl
@[simp] theorem State.setTable_enc (t : Table) : (s.setTable t).enc = s.enc := rfl
@[simp] theorem State.setTable_dec (t : Table) : (s.setTable t).dec = s.dec := rfl
@[simp] theorem State.setTable_bits (t : Table) : (s.setTable t).bits = s.bits := rfl
@[simp] theorem State.setTable_build (t : Table) : (s.setTable t).build = s.build := rfl
@[simp] theorem State.setTable_port (t : Table) : (s.setTable t).port = s.port := rfl
@[simp] theorem State.setTable_input (t : Table) : (s.setTable t).input = s.input := rfl
@[simp] theorem State.setTable_output (t : Table) : (s.setTable t).output = s.output := rfl
@[simp] theorem State.setTable_draws (t : Table) : (s.setTable t).draws = s.draws := rfl

@[simp] theorem State.setModel_result (m : Modeller) : (s.setModel m).result = s.result := rfl
@[simp] theorem State.setModel_cfg (m : Modeller) : (s.setModel m).cfg = s.cfg := rfl
@[simp] theorem State.setModel_fault (m : Modeller) : (s.setModel m).fault = s.fault := rfl
@[simp] theorem State.setModel_fcode (m : Modeller) : (s.setModel m).fcode = s.fcode := rfl
@[simp] theorem State.setModel_config (m : Modeller) : (s.setModel m).config = s.config := rfl
@[simp] theorem State.setModel_table (m : Modeller) : (s.setModel m).table = s.table := rfl
@[simp] theorem State.setModel_model (m : Modeller) : (s.setModel m).model = m := rfl
@[simp] theorem State.setModel_enc (m : Modeller) : (s.setModel m).enc = s.enc := rfl
@[simp] theorem State.setModel_dec (m : Modeller) : (s.setModel m).dec = s.dec := rfl
@[simp] theorem State.setModel_bits (m : Modeller) : (s.setModel m).bits = s.bits := rfl
@[simp] theorem State.setModel_build (m : Modeller) : (s.setModel m).build = s.build := rfl
@[simp] theorem State.setModel_port (m : Modeller) : (s.setModel m).port = s.port := rfl
@[simp] theorem State.setModel_input (m : Modeller) : (s.setModel m).input = s.input := rfl
@[simp] theorem State.setModel_output (m : Modeller) : (s.setModel m).output = s.output := rfl
@[simp] theorem State.setModel_draws (m : Modeller) : (s.setModel m).draws = s.draws := rfl

@[simp] theorem State.setEnc_result (e : Encoder) : (s.setEnc e).result = s.result := rfl
@[simp] theorem State.setEnc_cfg (e : Encoder) : (s.setEnc e).cfg = s.cfg := rfl
@[simp] theorem State.setEnc_fault (e : Encoder) : (s.setEnc e).fault = s.fault := rfl
@[simp] theorem State.setEnc_fcode (e : Encoder) : (s.setEnc e).fcode = s.fcode := rfl
@[simp] theorem State.setEnc_config (e : Encoder) : (s.setEnc e).config = s.config := rfl
@[simp] theorem State.setEnc_table (e : Encoder) : (s.setEnc e).table = s.table := rfl
@[simp] theorem State.setEnc_model (e : Encoder) : (s.setEnc e).model = s.model := rfl
@[simp] theorem State.setEnc_enc (e : Encoder) : (s.setEnc e).enc = e := rfl
@[simp] theorem State.setEnc_dec (e : Encoder) : (s.setEnc e).dec = s.dec := rfl
@[simp] theorem State.setEnc_bits (e : Encoder) : (s.setEnc e).bits = s.bits := rfl
@[simp] theorem State.setEnc_build (e : Encoder) : (s.setEnc e).build = s.build := rfl
@[simp] theorem State.setEnc_port (e : Encoder) : (s.setEnc e).port = s.port := rfl
@[simp] theorem State.setEnc_input (e : Encoder) : (s.setEnc e).input = s.input := rfl
@[simp] theorem State.setEnc_output (e : Encoder) : (s.setEnc e).output = s.output := rfl
@[simp] theorem State.setEnc_draws (e : Encoder) : (s.setEnc e).draws = s.draws := rfl

@[simp] theorem State.setDec_result (d : Decoder) : (s.setDec d).result = s.result := rfl
@[simp] theorem State.setDec_cfg (d : Decoder) : (s.setDec d).cfg = s.cfg := rfl
@[simp] theorem State.setDec_fault (d : Decoder) : (s.setDec d).fault = s.fault := rfl
@[simp] theorem State.setDec_fcode (d : Decoder) : (s.setDec d).fcode = s.fcode := rfl
@[simp] theorem State.setDec_config (d : Decoder) : (s.setDec d).config = s.config := rfl
@[simp] theorem State.setDec_table (d : Decoder) : (s.setDec d).table = s.table := rfl
@[simp] theorem State.setDec_model (d : Decoder) : (s.setDec d).model = s.model := rfl
@[simp] theorem State.setDec_enc (d : Decoder) : (s.setDec d).enc = s.enc := rfl
@[simp] theorem State.setDec_dec (d : Decoder) : (s.setDec d).dec = d := rfl
@[simp] theorem State.setDec_bits (d : Decoder) : (s.setDec d).bits = s.bits := rfl
@[simp] theorem State.setDec_build (d : Decoder) : (s.setDec d).build = s.build := rfl
@[simp] theorem State.setDec_port (d : Decoder) : (s.setDec d).port = s.port := rfl
@[simp] theorem State.setDec_input (d : Decoder) : (s.setDec d).input = s.input := rfl
@[simp] theorem State.setDec_output (d : Decoder) : (s.setDec d).output = s.output := rfl
@[simp] theorem State.setDec_draws (d : Decoder) : (s.setDec d).draws = s.draws := rfl

@[simp] theorem State.setBits_result (b : BitIO) : (s.setBits b).result = s.result := rfl
@[simp] theorem State.setBits_cfg (b : BitIO) : (s.setBits b).cfg = s.cfg := rfl
@[simp] theorem State.setBits_fault (b : BitIO) : (s.setBits b).fault = s.fault := rfl
@[simp] theorem State.setBits_fcode (b : BitIO) : (s.setBits b).fcode = s.fcode := rfl
@[simp] theorem State.setBits_config (b : BitIO) : (s.setBits b).config = s.config := rfl
@[simp] theorem State.setBits_table (b : BitIO) : (s.setBits b).table = s.table := rfl
@[simp] theorem State.setBits_model (b : BitIO) : (s.setBits b).model = s.model := rfl
@[simp] theorem State.setBits_enc (b : BitIO) : (s.setBits b).enc = s.enc := rfl
@[simp] theorem State.setBits_dec (b : BitIO) : (s.setBits b).dec = s.dec := rfl
@[simp] theorem State.setBits_bits (b : BitIO) : (s.setBits b).bits = b := rfl
@[simp] theorem State.setBits_build (b : BitIO) : (s.setBits b).build = s.build := rfl
@[simp] theorem State.setBits_port (b : BitIO) : (s.setBits b).port = s.port := rfl
@[simp] theorem State.setBits_input (b : BitIO) : (s.setBits b).input = s.input := rfl
@[simp] theorem State.setBits_output (b : BitIO) : (s.setBits b).output = s.output := rfl
@[simp] theorem State.setBits_draws (b : BitIO) : (s.setBits b).draws = s.draws := rfl

@[simp] theorem State.setPort_result (ws : List Word) : (s.setPort ws).result = s.result := rfl
@[simp] theorem State.setPort_cfg (ws : List Word) : (s.setPort ws).cfg = s.cfg := rfl
@[simp] theorem State.setPort_fault (ws : List Word) : (s.setPort ws).fault = s.fault := rfl
@[simp] theorem State.setPort_fcode (ws : List Word) : (s.setPort ws).fcode = s.fcode := rfl
@[simp] theorem State.setPort_config (ws : List Word) : (s.setPort ws).config = s.config := rfl
@[simp] theorem State.setPort_table (ws : List Word) : (s.setPort ws).table = s.table := rfl
@[simp] theorem State.setPort_model (ws : List Word) : (s.setPort ws).model = s.model := rfl
@[simp] theorem State.setPort_enc (ws : List Word) : (s.setPort ws).enc = s.enc := rfl
@[simp] theorem State.setPort_dec (ws : List Word) : (s.setPort ws).dec = s.dec := rfl
@[simp] theorem State.setPort_bits (ws : List Word) : (s.setPort ws).bits = s.bits := rfl
@[simp] theorem State.setPort_build (ws : List Word) : (s.setPort ws).build = s.build := rfl
@[simp] theorem State.setPort_port (ws : List Word) : (s.setPort ws).port = ws := rfl
@[simp] theorem State.setPort_input (ws : List Word) : (s.setPort ws).input = s.input := rfl
@[simp] theorem State.setPort_output (ws : List Word) : (s.setPort ws).output = s.output := rfl
@[simp] theorem State.setPort_draws (ws : List Word) : (s.setPort ws).draws = s.draws := rfl

@[simp] theorem State.outByte_result (x : Byte) : (s.outByte x).result = s.result := rfl
@[simp] theorem State.outByte_cfg (x : Byte) : (s.outByte x).cfg = s.cfg := rfl
@[simp] theorem State.outByte_fault (x : Byte) : (s.outByte x).fault = s.fault := rfl
@[simp] theorem State.outByte_fcode (x : Byte) : (s.outByte x).fcode = s.fcode := rfl
@[simp] theorem State.outByte_config (x : Byte) : (s.outByte x).config = s.config := rfl
@[simp] theorem State.outByte_table (x : Byte) : (s.outByte x).table = s.table := rfl
@[simp] theorem State.outByte_model (x : Byte) : (s.outByte x).model = s.model := rfl
@[simp] theorem State.outByte_enc (x : Byte) : (s.outByte x).enc = s.enc := rfl
@[simp] theorem State.outByte_dec (x : Byte) : (s.outByte x).dec = s.dec := rfl
@[simp] theorem State.outByte_bits (x : Byte) : (s.outByte x).bits = s.bits := rfl
@[simp] theorem State.outByte_build (x : Byte) : (s.outByte x).build = s.build := rfl
@[simp] theorem State.outByte_port (x : Byte) : (s.outByte x).port = s.port := rfl
@[simp] theorem State.outByte_input (x : Byte) : (s.outByte x).input = s.input := rfl
@[simp] theorem State.outByte_output (x : Byte) : (s.outByte x).output = s.output ++ [x] := rfl
@[simp] theorem State.outByte_draws (x : Byte) : (s.outByte x).draws = s.draws := rfl

@[simp] theorem State.meetEnd_result : s.meetEnd.result = s.result := rfl
@[simp] theorem State.meetEnd_cfg : s.meetEnd.cfg = s.cfg := rfl
@[simp] theorem State.meetEnd_fault : s.meetEnd.fault = s.fault := rfl
@[simp] theorem State.meetEnd_fcode : s.meetEnd.fcode = s.fcode := rfl
@[simp] theorem State.meetEnd_config : s.meetEnd.config = s.config := rfl
@[simp] theorem State.meetEnd_table : s.meetEnd.table = s.table := rfl
@[simp] theorem State.meetEnd_model : s.meetEnd.model = s.model := rfl
@[simp] theorem State.meetEnd_enc : s.meetEnd.enc = s.enc := rfl
@[simp] theorem State.meetEnd_dec : s.meetEnd.dec = { s.dec with eof := true } := rfl
@[simp] theorem State.meetEnd_bits : s.meetEnd.bits = s.bits := rfl
@[simp] theorem State.meetEnd_build : s.meetEnd.build = s.build := rfl
@[simp] theorem State.meetEnd_port : s.meetEnd.port = s.port := rfl
@[simp] theorem State.meetEnd_input : s.meetEnd.input = s.input := rfl
@[simp] theorem State.meetEnd_output : s.meetEnd.output = s.output := rfl
@[simp] theorem State.meetEnd_draws : s.meetEnd.draws = s.draws := rfl

@[simp] theorem State.countFollow_result : s.countFollow.result = s.result := rfl
@[simp] theorem State.countFollow_cfg : s.countFollow.cfg = s.cfg := rfl
@[simp] theorem State.countFollow_fault : s.countFollow.fault = s.fault := rfl
@[simp] theorem State.countFollow_fcode : s.countFollow.fcode = s.fcode := rfl
@[simp] theorem State.countFollow_config : s.countFollow.config = s.config := rfl
@[simp] theorem State.countFollow_table : s.countFollow.table = s.table := rfl
@[simp] theorem State.countFollow_model : s.countFollow.model = s.model := rfl
@[simp] theorem State.countFollow_enc : s.countFollow.enc = { s.enc with btf := countUp s.draws s.enc.btf } := rfl
@[simp] theorem State.countFollow_dec : s.countFollow.dec = s.dec := rfl
@[simp] theorem State.countFollow_bits : s.countFollow.bits = s.bits := rfl
@[simp] theorem State.countFollow_build : s.countFollow.build = s.build := rfl
@[simp] theorem State.countFollow_port : s.countFollow.port = s.port := rfl
@[simp] theorem State.countFollow_input : s.countFollow.input = s.input := rfl
@[simp] theorem State.countFollow_output : s.countFollow.output = s.output := rfl
@[simp] theorem State.countFollow_draws : s.countFollow.draws = countDraws s.draws s.enc.btf := rfl

@[simp] theorem State.countOutByte_result : s.countOutByte.result = s.result := rfl
@[simp] theorem State.countOutByte_cfg : s.countOutByte.cfg = s.cfg := rfl
@[simp] theorem State.countOutByte_fault : s.countOutByte.fault = s.fault := rfl
@[simp] theorem State.countOutByte_fcode : s.countOutByte.fcode = s.fcode := rfl
@[simp] theorem State.countOutByte_config : s.countOutByte.config = s.config := rfl
@[simp] theorem State.countOutByte_table : s.countOutByte.table = s.table := rfl
@[simp] theorem State.countOutByte_model : s.countOutByte.model = s.model := rfl
@[simp] theorem State.countOutByte_enc :
    s.countOutByte.enc = { s.enc with outcnt := countUp s.draws s.enc.outcnt } := rfl
@[simp] theorem State.countOutByte_dec : s.countOutByte.dec = s.dec := rfl
@[simp] theorem State.countOutByte_bits : s.countOutByte.bits = s.bits := rfl
@[simp] theorem State.countOutByte_build : s.countOutByte.build = s.build := rfl
@[simp] theorem State.countOutByte_port : s.countOutByte.port = s.port := rfl
@[simp] theorem State.countOutByte_input : s.countOutByte.input = s.input := rfl
@[simp] theorem State.countOutByte_output : s.countOutByte.output = s.output := rfl
@[simp] theorem State.countOutByte_draws : s.countOutByte.draws = countDraws s.draws s.enc.outcnt := rfl

@[simp] theorem State.countShift_result : s.countShift.result = s.result := rfl
@[simp] theorem State.countShift_cfg : s.countShift.cfg = s.cfg := rfl
@[simp] theorem State.countShift_fault : s.countShift.fault = s.fault := rfl
@[simp] theorem State.countShift_fcode : s.countShift.fcode = s.fcode := rfl
@[simp] theorem State.countShift_config : s.countShift.config = s.config := rfl
@[simp] theorem State.countShift_table : s.countShift.table = s.table := rfl
@[simp] theorem State.countShift_model : s.countShift.model = s.model := rfl
@[simp] theorem State.countShift_enc : s.countShift.enc = s.enc := rfl
@[simp] theorem State.countShift_dec : s.countShift.dec = { s.dec with shifts := countUp s.draws s.dec.shifts } := rfl
@[simp] theorem State.countShift_bits : s.countShift.bits = s.bits := rfl
@[simp] theorem State.countShift_build : s.countShift.build = s.build := rfl
@[simp] theorem State.countShift_port : s.countShift.port = s.port := rfl
@[simp] theorem State.countShift_input : s.countShift.input = s.input := rfl
@[simp] theorem State.countShift_output : s.countShift.output = s.output := rfl
@[simp] theorem State.countShift_draws : s.countShift.draws = countDraws s.draws s.dec.shifts := rfl

@[simp] theorem State.countFetched_result : s.countFetched.result = s.result := rfl
@[simp] theorem State.countFetched_cfg : s.countFetched.cfg = s.cfg := rfl
@[simp] theorem State.countFetched_fault : s.countFetched.fault = s.fault := rfl
@[simp] theorem State.countFetched_fcode : s.countFetched.fcode = s.fcode := rfl
@[simp] theorem State.countFetched_config : s.countFetched.config = s.config := rfl
@[simp] theorem State.countFetched_table : s.countFetched.table = s.table := rfl
@[simp] theorem State.countFetched_model : s.countFetched.model = s.model := rfl
@[simp] theorem State.countFetched_enc : s.countFetched.enc = s.enc := rfl
@[simp] theorem State.countFetched_dec :
    s.countFetched.dec = { s.dec with fetched := countUp s.draws s.dec.fetched } := rfl
@[simp] theorem State.countFetched_bits : s.countFetched.bits = s.bits := rfl
@[simp] theorem State.countFetched_build : s.countFetched.build = s.build := rfl
@[simp] theorem State.countFetched_port : s.countFetched.port = s.port := rfl
@[simp] theorem State.countFetched_input : s.countFetched.input = s.input := rfl
@[simp] theorem State.countFetched_output : s.countFetched.output = s.output := rfl
@[simp] theorem State.countFetched_draws : s.countFetched.draws = countDraws s.draws s.dec.fetched := rfl

@[simp] theorem State.countSaturation_result : s.countSaturation.result = s.result := rfl
@[simp] theorem State.countSaturation_cfg : s.countSaturation.cfg = s.cfg := rfl
@[simp] theorem State.countSaturation_fault : s.countSaturation.fault = s.fault := rfl
@[simp] theorem State.countSaturation_fcode : s.countSaturation.fcode = s.fcode := rfl
@[simp] theorem State.countSaturation_config : s.countSaturation.config = s.config := rfl
@[simp] theorem State.countSaturation_table : s.countSaturation.table = s.table := rfl
@[simp] theorem State.countSaturation_model :
    s.countSaturation.model = { s.model with satCount := countUp s.draws s.model.satCount } := rfl
@[simp] theorem State.countSaturation_enc : s.countSaturation.enc = s.enc := rfl
@[simp] theorem State.countSaturation_dec : s.countSaturation.dec = s.dec := rfl
@[simp] theorem State.countSaturation_bits : s.countSaturation.bits = s.bits := rfl
@[simp] theorem State.countSaturation_build : s.countSaturation.build = s.build := rfl
@[simp] theorem State.countSaturation_port : s.countSaturation.port = s.port := rfl
@[simp] theorem State.countSaturation_input : s.countSaturation.input = s.input := rfl
@[simp] theorem State.countSaturation_output : s.countSaturation.output = s.output := rfl
@[simp] theorem State.countSaturation_draws : s.countSaturation.draws = countDraws s.draws s.model.satCount := rfl

end Sys2Proof.Machine
end

