-- ==== Sys2Proof/Laws/Ops.lean ====
section
/-! SUPPORT. What each shared operation can do, said once: the common checks of a command, fault entry, the event
counters, the byte ports and the command port. -/

namespace Sys2Proof.Machine

variable {s : State} {f : State → State}

/-! ## Fault codes -/

theorem faultNumber_range (c : FaultCode) : 1 ≤ (faultNumber c).toNat ∧ (faultNumber c).toNat ≤ 13 := by
  cases c <;> decide

theorem faultNumber_eq_ten (c : FaultCode) : faultNumber c = 10#4 ↔ c = .truncated := by
  cases c <;> decide

theorem State.raise_eq (s : State) (c : FaultCode) :
    s.raise c = { s with fault := true, fcode := faultNumber c } := rfl

/-! ## The common checks -/

theorem State.command_of_ready (h : s.Ready) : s.command f = f s := by
  simp [State.command, h.1, h.2]

theorem State.command_of_fault (h : s.fault = true) : s.command f = s := by
  simp [State.command, h]

theorem State.command_of_unconfigured (hf : s.fault = false) (hc : s.cfg = false) :
    s.command f = s.raise .notConfigured := by
  simp [State.command, hf, hc]

/-- A command is discarded, refused before INIT, or runs in a ready core. -/
theorem State.command_cases (s : State) (f : State → State) :
    (s.fault = true ∧ s.command f = s) ∨ (s.fault = false ∧ s.command f = s.raise .notConfigured) ∨
      (s.Ready ∧ s.command f = f s) := by
  cases hf : s.fault
  · cases hc : s.cfg
    · exact .inr (.inl ⟨rfl, State.command_of_unconfigured hf hc⟩)
    · exact .inr (.inr ⟨⟨hc, hf⟩, State.command_of_ready ⟨hc, hf⟩⟩)
  · exact .inl ⟨rfl, State.command_of_fault hf⟩

theorem State.commandSel_legal (s : State) (f : State → State) : s.commandSel true f = s.command f := by
  unfold State.commandSel State.command; split <;> simp

theorem State.commandSel_illegal (hf : s.fault = false) : s.commandSel false f = s.raise .illegal := by
  simp [State.commandSel, hf]

theorem State.commandSel_of_fault (hf : s.fault = true) (legal : Bool) : s.commandSel legal f = s := by
  simp [State.commandSel, hf]

theorem State.checkTruncated_cases (s : State) :
    (s.dec.eof = true ∧ s.checkTruncated = s.raise .truncated) ∨ (s.dec.eof = false ∧ s.checkTruncated = s) := by
  unfold State.checkTruncated; cases s.dec.eof <;> simp

/-! ## Event counters -/

theorem countUp_toNat {x : Reg} (h : x.toNat + 1 < 2 ^ 64) (d : Nat) : (countUp d x).toNat = x.toNat + 1 := by
  have hx : x ≠ BitVec.allOnes 64 := by rintro rfl; simp at h
  rw [countUp, if_neg hx, BitVec.toNat_add]
  exact Nat.mod_eq_of_lt h

theorem countDraws_eq {x : Reg} (h : x.toNat + 1 < 2 ^ 64) (d : Nat) : countDraws d x = d := by
  have hx : x ≠ BitVec.allOnes 64 := by rintro rfl; simp at h
  rw [countDraws, if_neg hx]

/-! ## Byte ports -/

theorem State.inByte_nil (h : s.input = []) : s.inByte = (none, s) := by
  simp [State.inByte, h]

theorem State.inByte_cons {x : Byte} {xs : List Byte} (h : s.input = x :: xs) :
    s.inByte = (some x, { s with input := xs }) := by
  simp [State.inByte, h]

/-! ## Command port -/

/-- What the command port hands over: a nonempty list of as many words as the opcode calls for, and the rest. -/
theorem fetchCommand_eq_some {port words rest : List Word} {w0 : Word} :
    fetchCommand port = some (w0, words, rest) ↔
      (∃ ext, words = w0 :: ext) ∧ words.length = commandLength (opcode w0) ∧ port = words ++ rest := by
  have hpos : ∀ op, 1 ≤ commandLength op := by
    intro op; unfold commandLength; split <;> omega
  cases port with
  | nil =>
    simp only [fetchCommand, reduceCtorEq, false_iff]
    rintro ⟨⟨ext, rfl⟩, -, h⟩
    simp at h
  | cons w ws =>
    simp only [fetchCommand]
    constructor
    · intro h
      split at h
      · rename_i hl
        simp only [Option.some.injEq, Prod.mk.injEq] at h
        obtain ⟨rfl, rfl, rfl⟩ := h
        obtain ⟨n, hn⟩ : ∃ n, commandLength (opcode w) = n + 1 := ⟨_, (Nat.succ_pred (by have := hpos (opcode w); omega)).symm⟩
        refine ⟨⟨ws.take n, by simp [hn]⟩, ?_, by simp⟩
        simp only [List.length_take]; omega
      · cases h
    · rintro ⟨⟨ext, rfl⟩, hl, he⟩
      simp only [List.cons_append, List.cons.injEq] at he
      obtain ⟨rfl, rfl⟩ := he
      rw [if_pos (by simp only [List.length_cons, List.length_append] at hl ⊢; omega)]
      simp [← hl]

theorem fetchCommand_eq_none {port : List Word} :
    fetchCommand port = none ↔
      port = [] ∨ ∃ w0 ext, port = w0 :: ext ∧ (w0 :: ext).length < commandLength (opcode w0) := by
  cases port with
  | nil => simp [fetchCommand]
  | cons w ws => simp [fetchCommand]

end Sys2Proof.Machine
end

