-- ==== Sys2Proof/Laws/BitIO.lean ====
section
/-! SUPPORT. The bit writer and the bit reader: what each leaves alone, and what it does to the bit streams. -/

namespace Sys2Proof.Machine

/-! ## What the bit writer leaves alone -/

/-- From `s` to `t` only the bit writer, S.outcnt, the output and the draws have changed. -/
structure WriterFrame (s t : State) : Prop where
  result : t.result = s.result
  cfg : t.cfg = s.cfg
  fault : t.fault = s.fault
  fcode : t.fcode = s.fcode
  config : t.config = s.config
  table : t.table = s.table
  model : t.model = s.model
  low : t.enc.low = s.enc.low
  high : t.enc.high = s.enc.high
  btf : t.enc.btf = s.enc.btf
  active : t.enc.active = s.enc.active
  dec : t.dec = s.dec
  rdBuf : t.bits.rdBuf = s.bits.rdBuf
  rdCnt : t.bits.rdCnt = s.bits.rdCnt
  build : t.build = s.build
  port : t.port = s.port
  input : t.input = s.input

theorem WriterFrame.refl (s : State) : WriterFrame s s := by constructor <;> rfl

theorem WriterFrame.trans {s t u : State} (h : WriterFrame s t) (g : WriterFrame t u) : WriterFrame s u := by
  constructor
  exacts [g.result.trans h.result, g.cfg.trans h.cfg, g.fault.trans h.fault, g.fcode.trans h.fcode,
    g.config.trans h.config, g.table.trans h.table, g.model.trans h.model, g.low.trans h.low, g.high.trans h.high,
    g.btf.trans h.btf, g.active.trans h.active, g.dec.trans h.dec, g.rdBuf.trans h.rdBuf, g.rdCnt.trans h.rdCnt,
    g.build.trans h.build, g.port.trans h.port, g.input.trans h.input]

/-- The frame as one record update. -/
theorem WriterFrame.eq {s t : State} (h : WriterFrame s t) :
    t = { s with output := t.output, draws := t.draws, enc := { s.enc with outcnt := t.enc.outcnt }
                 bits := { s.bits with wrBuf := t.bits.wrBuf, wrCnt := t.bits.wrCnt } } := by
  obtain ⟨h1, h2, h3, h4, h5, h6, h7, h8, h9, h10, h11, h12, h13, h14, h15, h16, h17⟩ := h
  dsimp only
  rw [← h1, ← h2, ← h3, ← h4, ← h5, ← h6, ← h7, ← h8, ← h9, ← h10, ← h11, ← h12, ← h13, ← h14, ← h15, ← h16, ← h17]

theorem putBit_frame (s : State) (b : Bool) : WriterFrame s (s.putBit b) := by
  unfold State.putBit; dsimp only; split <;> constructor <;> rfl

theorem putBits_frame (n : Nat) (b : Bool) (s : State) : WriterFrame s (s.putBits n b) := by
  induction n generalizing s with
  | zero => exact .refl s
  | succ n ih => exact (putBit_frame s b).trans (ih _)

theorem padBits_frame (n : Nat) (s : State) : WriterFrame s (s.padBits n) := by
  induction n generalizing s with
  | zero => exact .refl s
  | succ n ih =>
    unfold State.padBits
    split
    · exact .refl s
    · exact (putBit_frame s false).trans (ih _)

/-! ## What the bit writer writes -/

theorem pending_length (b : BitIO) : b.pending.length = b.wrCnt.toNat := by simp [BitIO.pending]

/-- Seven waiting bits and one more are the bits of the byte delivered. -/
theorem byteBits_shift (buf : Byte) (b : Bool) :
    byteBits ((buf <<< 1) ||| (BitVec.ofBool b).setWidth 8) =
      (List.range 7).map (fun j => buf.getLsbD (6 - j)) ++ [b] := by
  cases b <;> simp [byteBits, List.range_succ]

theorem getLsbD_shift_in (buf : Byte) (b : Bool) (i : Nat) (h : i < 8) :
    ((buf <<< 1) ||| (BitVec.ofBool b).setWidth 8).getLsbD i = if i = 0 then b else buf.getLsbD (i - 1) := by
  rw [BitVec.getLsbD_or, BitVec.getLsbD_shiftLeft, BitVec.getLsbD_setWidth]
  cases i with
  | zero => cases b <;> rfl
  | succ n => simp [h]

/-- put_bit appends its bit to the bits written (43_bitio.md R261, R262). -/
theorem putBit_bitsOut (s : State) (b : Bool) : (s.putBit b).bitsOut = s.bitsOut ++ [b] := by
  unfold State.putBit State.bitsOut; dsimp only
  split
  · rename_i h
    have h7 : s.bits.wrCnt.toNat = 7 := by omega
    simp [State.outByte, State.countOutByte, State.setBits, byteBits_shift, BitIO.pending, h7]
  · rename_i h
    have hlt := s.bits.wrCnt.isLt
    have hc : (s.bits.wrCnt + 1#3).toNat = s.bits.wrCnt.toNat + 1 := by
      rw [BitVec.toNat_add]; exact Nat.mod_eq_of_lt (by simp; omega)
    simp only [State.setBits, BitIO.pending, hc, List.range_succ, List.map_append, List.map_cons, List.map_nil,
      List.append_assoc, List.append_cancel_left_eq]
    congr 1
    · refine List.map_congr_left fun j hj => ?_
      have := List.mem_range.1 hj
      rw [getLsbD_shift_in _ _ _ (by omega), if_neg (by omega)]
      congr 1; omega
    · rw [getLsbD_shift_in _ _ _ (by omega), if_pos (by omega)]

theorem putBits_bitsOut (n : Nat) (b : Bool) (s : State) :
    (s.putBits n b).bitsOut = s.bitsOut ++ List.replicate n b := by
  induction n generalizing s with
  | zero => simp [State.putBits]
  | succ n ih => simp [State.putBits, ih, putBit_bitsOut, List.replicate_succ]

theorem putBit_wrCnt (s : State) (b : Bool) : (s.putBit b).bits.wrCnt.toNat = (s.bits.wrCnt.toNat + 1) % 8 := by
  unfold State.putBit; dsimp only
  split
  · simp [State.setBits, *]
  · simp [State.setBits, BitVec.toNat_add]

theorem putBit_output_short {s : State} (b : Bool) (h : s.bits.wrCnt.toNat < 7) :
    (s.putBit b).output = s.output ∧ (s.putBit b).enc.outcnt = s.enc.outcnt ∧ (s.putBit b).draws = s.draws := by
  unfold State.putBit; dsimp only
  rw [if_neg (by omega)]
  exact ⟨rfl, rfl, rfl⟩

theorem putBit_output_full {s : State} (b : Bool) (h : s.bits.wrCnt.toNat = 7) :
    (∃ x, (s.putBit b).output = s.output ++ [x]) ∧ (s.putBit b).enc.outcnt = countUp s.draws s.enc.outcnt ∧
      (s.putBit b).draws = countDraws s.draws s.enc.outcnt ∧ (s.putBit b).bits.wrBuf = 0#8 := by
  unfold State.putBit; dsimp only
  rw [if_pos (by omega)]
  exact ⟨⟨_, rfl⟩, rfl, rfl, rfl⟩

/-- flush_bits from a boundary does nothing; from elsewhere it writes the zeros up to the boundary (43_bitio.md R263). -/
theorem padBits_bitsOut (n : Nat) (s : State) (h : (8 - s.bits.wrCnt.toNat) % 8 ≤ n) :
    (s.padBits n).bitsOut = s.bitsOut ++ List.replicate ((8 - s.bits.wrCnt.toNat) % 8) false ∧
      (s.padBits n).bits.wrCnt = 0#3 := by
  have hlt := s.bits.wrCnt.isLt
  induction n generalizing s with
  | zero =>
    have h0 : s.bits.wrCnt.toNat = 0 := by omega
    exact ⟨by simp [State.padBits, h0], BitVec.eq_of_toNat_eq (by simpa [State.padBits] using h0)⟩
  | succ n ih =>
    unfold State.padBits
    split
    · rename_i hz; simp [hz]
    · rename_i hz
      have hne : s.bits.wrCnt.toNat ≠ 0 := fun h0 => hz (BitVec.eq_of_toNat_eq (by simpa using h0))
      have hw := putBit_wrCnt s false
      obtain ⟨h1, h2⟩ := ih (s.putBit false) (by rw [hw]; omega) (by rw [hw]; omega)
      refine ⟨?_, h2⟩
      rw [h1, putBit_bitsOut, hw, List.append_assoc]
      rw [show (8 - s.bits.wrCnt.toNat) % 8 = (8 - (s.bits.wrCnt.toNat + 1) % 8) % 8 + 1 by omega,
        List.replicate_succ]
      rfl

/-! ## What the bit reader leaves alone -/

/-- From `s` to `t` only the bit reader, S.d_fetched, S.hist, S.eof, the input and the draws have changed. -/
structure ReaderFrame (s t : State) : Prop where
  result : t.result = s.result
  cfg : t.cfg = s.cfg
  fault : t.fault = s.fault
  fcode : t.fcode = s.fcode
  config : t.config = s.config
  table : t.table = s.table
  model : t.model = s.model
  enc : t.enc = s.enc
  low : t.dec.low = s.dec.low
  high : t.dec.high = s.dec.high
  value : t.dec.value = s.dec.value
  shifts : t.dec.shifts = s.dec.shifts
  active : t.dec.active = s.dec.active
  wrBuf : t.bits.wrBuf = s.bits.wrBuf
  wrCnt : t.bits.wrCnt = s.bits.wrCnt
  build : t.build = s.build
  port : t.port = s.port
  output : t.output = s.output

/-- The frame as one record update. -/
theorem ReaderFrame.eq {s t : State} (h : ReaderFrame s t) :
    t = { s with input := t.input, draws := t.draws
                 dec := { s.dec with fetched := t.dec.fetched, hist := t.dec.hist, eof := t.dec.eof }
                 bits := { s.bits with rdBuf := t.bits.rdBuf, rdCnt := t.bits.rdCnt } } := by
  obtain ⟨h1, h2, h3, h4, h5, h6, h7, h8, h9, h10, h11, h12, h13, h14, h15, h16, h17, h18⟩ := h
  dsimp only
  rw [← h1, ← h2, ← h3, ← h4, ← h5, ← h6, ← h7, ← h8, ← h9, ← h10, ← h11, ← h12, ← h13, ← h14, ← h15, ← h16, ← h17,
    ← h18]

theorem getBit_frame (s : State) : ReaderFrame s s.getBit.2 := by
  unfold State.getBit State.inByte
  split
  · split
    · constructor <;> rfl
    · cases s.input <;> constructor <;> rfl
  · constructor <;> rfl

/-! ## What the bit reader reads -/

/-- The next unread bit, and the others after the reader has shifted it out. -/
theorem unread_succ {b : BitIO} {n : Nat} (h : b.rdCnt.toNat = n + 1) (hn : n < 8) :
    b.unread = b.rdBuf.getLsbD 7 :: BitIO.unread { b with rdBuf := b.rdBuf <<< 1, rdCnt := b.rdCnt - 1#4 } := by
  have hc : (b.rdCnt - 1#4).toNat = n := by
    rw [BitVec.toNat_sub]; simp [h]; omega
  simp only [BitIO.unread, h, hc, List.range_succ_eq_map, List.map_cons, List.map_map, Nat.sub_zero, List.cons.injEq,
    true_and]
  refine List.map_congr_left fun j hj => ?_
  have hj := List.mem_range.1 hj
  simp only [Function.comp_apply, BitVec.getLsbD_shiftLeft, show 7 - j < 8 by omega, decide_true,
    show ¬ 7 - j < 1 by omega, decide_false, Bool.not_false, Bool.true_and]
  congr 1

theorem unread_full (x : Byte) (b : BitIO) : BitIO.unread { b with rdBuf := x, rdCnt := 8#4 } = byteBits x := rfl

theorem rdCnt_pred {x : BitVec 4} (h : x ≠ 0#4) : (x - 1#4).toNat = x.toNat - 1 := by
  have : x.toNat ≠ 0 := fun h0 => h (BitVec.eq_of_toNat_eq (by simpa using h0))
  rw [BitVec.toNat_sub]; simp; omega

/-- With a bit left, get_bit answers the next input bit and leaves the rest (43_bitio.md R264). -/
theorem getBit_cons {s : State} (hc : s.bits.rdCnt.toNat ≤ 8) (he : s.dec.eof = false) {b : Bool} {rest : List Bool}
    (h : s.bitsIn = b :: rest) :
    s.getBit.1 = b ∧ s.getBit.2.bitsIn = rest ∧ s.getBit.2.dec.eof = false ∧ s.getBit.2.bits.rdCnt.toNat ≤ 8 := by
  unfold State.getBit
  by_cases h0 : s.bits.rdCnt = 0#4
  · cases hi : s.input with
    | nil => simp [State.bitsIn, BitIO.unread, h0, hi] at h
    | cons x xs =>
      have hb : byteBits x ++ xs.flatMap byteBits = b :: rest := by
        simpa [State.bitsIn, BitIO.unread, h0, hi] using h
      rw [if_pos h0, State.inByte_cons hi]
      simp only [he, Bool.false_eq_true, if_false, State.shiftOut, State.loadByte, State.setBits, State.setDec,
        State.countFetched, State.bitsIn]
      rw [← unread_full x s.bits, unread_succ (n := 7) rfl (by omega), List.cons_append, List.cons.injEq] at hb
      exact ⟨hb.1, hb.2, trivial, by decide⟩
  · rw [if_neg h0]
    have hne : s.bits.rdCnt.toNat ≠ 0 := fun h1 => h0 (BitVec.eq_of_toNat_eq (by simpa using h1))
    rw [State.bitsIn, unread_succ (n := s.bits.rdCnt.toNat - 1) (by omega) (by omega), List.cons_append,
      List.cons.injEq] at h
    refine ⟨h.1, h.2, he, ?_⟩
    simp only [State.shiftOut, State.setBits, rdCnt_pred h0]; omega

/-- At the end of the input get_bit answers a fill bit 0 and remembers the end (43_bitio.md R265). -/
theorem getBit_end {s : State} (hc : s.bits.rdCnt = 0#4) (h : s.dec.eof = true ∨ s.input = []) :
    s.getBit = (false, s.meetEnd) := by
  unfold State.getBit
  rw [if_pos hc]
  cases he : s.dec.eof with
  | true =>
    simp only [if_true, State.meetEnd, State.setDec, Prod.mk.injEq, true_and]
    rw [← he]
  | false =>
    rw [State.inByte_nil (by simpa [he] using h)]
    simp

/-- get_bit never unsets S.eof. -/
theorem getBit_eof {s : State} (h : s.dec.eof = true) : s.getBit.2.dec.eof = true := by
  unfold State.getBit
  split <;> simp [h, State.shiftOut, State.setBits]

/-- get_bit keeps the number of unread bits at most 8 (10_state.md R53). -/
theorem getBit_rdCnt {s : State} (h : s.bits.rdCnt.toNat ≤ 8) : s.getBit.2.bits.rdCnt.toNat ≤ 8 := by
  unfold State.getBit State.inByte
  split
  · split
    · exact h
    · cases s.input
      · exact h
      · exact (by decide : (8#4 - 1#4).toNat ≤ 8)
  · simp only [State.shiftOut, State.setBits, rdCnt_pred (by assumption)]; omega

/-- get_bit takes a byte from the front of the input, or none. -/
theorem getBit_input (s : State) : ∃ taken, s.input = taken ++ s.getBit.2.input := by
  unfold State.getBit State.inByte
  split
  · split
    · exact ⟨[], rfl⟩
    · cases h : s.input with
      | nil => exact ⟨[], by simp [State.meetEnd, State.setDec, h]⟩
      | cons x xs => exact ⟨[x], rfl⟩
  · exact ⟨[], rfl⟩

end Sys2Proof.Machine
end

