-- ==== Sys2Proof/Laws/Coder.lean ====
section
/-! SUPPORT. The arithmetic coder: its interval as exact numbers, what one renormalisation iteration does, and what a whole
symbol step does in the encoder and in the decoder. -/

namespace Sys2Proof.Machine

/-! ## Bits of a register as exact numbers -/

theorem getLsbD_31 {x : Reg} (h : x.toNat < 2 ^ 32) : x.getLsbD 31 = decide (2 ^ 31 ≤ x.toNat) := by
  rw [BitVec.getLsbD, Nat.testBit_eq_decide_div_mod_eq]
  congr 1
  exact propext ⟨fun _ => by omega, fun _ => by omega⟩

theorem and_top_toNat (x : Reg) : (x &&& top).toNat = x.toNat % 2 ^ 32 := by
  rw [BitVec.toNat_and]
  exact Nat.and_two_pow_sub_one_eq_mod x.toNat 32

theorem shiftLow_toNat (x : Reg) : (shiftLow x).toNat = 2 * x.toNat % 2 ^ 32 := by
  rw [shiftLow, and_top_toNat, BitVec.toNat_shiftLeft, Nat.shiftLeft_eq]
  omega

theorem shiftBit_toNat (x : Reg) (b : Bool) :
    (((x <<< 1) ||| flag64 b) &&& top).toNat = (2 * x.toNat + b.toNat) % 2 ^ 32 := by
  have hs : ((x <<< 1) ||| flag64 b) = (x <<< 1) + flag64 b := by
    refine (BitVec.add_eq_or_of_and_eq_zero _ _ (BitVec.eq_of_getLsbD_eq fun i _ => ?_)).symm
    cases b <;> cases i <;> simp [flag64]
  rw [and_top_toNat, hs, BitVec.toNat_add, BitVec.toNat_shiftLeft, Nat.shiftLeft_eq]
  cases b <;> simp [flag64] <;> omega

theorem shiftHigh_toNat (x : Reg) : (shiftHigh x).toNat = (2 * x.toNat + 1) % 2 ^ 32 :=
  shiftBit_toNat x true

theorem straddleLow_toNat {x : Reg} (h : 2 ^ 30 ≤ x.toNat) (h' : x.toNat < 2 ^ 31) :
    (straddleLow x).toNat = x.toNat - 2 ^ 30 := by
  have : (straddleLow x).toNat = x.toNat % 2 ^ 30 := by
    rw [straddleLow, BitVec.toNat_and]
    exact Nat.and_two_pow_sub_one_eq_mod x.toNat 30
  omega

theorem straddleHigh_toNat {x : Reg} (h : 2 ^ 31 ≤ x.toNat) (h' : x.toNat < 3 * 2 ^ 30) :
    (straddleHigh x).toNat = x.toNat + 2 ^ 30 := by
  have hs : x ||| qtr = x + qtr := by
    refine (BitVec.add_eq_or_of_and_eq_zero _ _ (BitVec.eq_of_getLsbD_eq fun i hi => ?_)).symm
    have hq : qtr.getLsbD i = decide (i = 30) := by
      rw [show qtr = BitVec.twoPow 64 30 by decide, BitVec.getLsbD_twoPow]
      simp [eq_comm]
    rw [BitVec.getLsbD_and, hq, BitVec.getLsbD_zero]
    by_cases h30 : i = 30
    · subst h30
      have : x.getLsbD 30 = false := by
        rw [BitVec.getLsbD, Nat.testBit_eq_decide_div_mod_eq]
        exact decide_eq_false (by omega)
      rw [this, Bool.false_and]
    · simp [h30]
  rw [straddleHigh, hs, BitVec.toNat_add]
  change (_ + 0x40000000) % _ = _
  omega

/-! ## Bits as a number -/

theorem bitsValue_append (a b : List Bool) : bitsValue (a ++ b) = bitsValue a * 2 ^ b.length + bitsValue b := by
  have h : ∀ (l : List Bool) (v : Nat),
      l.foldl (fun v b => 2 * v + b.toNat) v = v * 2 ^ l.length + bitsValue l := by
    intro l
    induction l with
    | nil => simp [bitsValue]
    | cons x l ih =>
      intro v
      simp only [bitsValue, List.foldl_cons, List.length_cons] at ih ⊢
      rw [ih, ih (2 * 0 + x.toNat), Nat.pow_succ]
      ring
  simp only [bitsValue, List.foldl_append]
  exact h b _

@[simp] theorem bitsValue_nil : bitsValue [] = 0 := rfl

@[simp] theorem bitsValue_singleton (b : Bool) : bitsValue [b] = b.toNat := by simp [bitsValue]

/-- A bit and `m` copies of its inverse: 2 ^ m, or one less (42_coder.md R224). -/
theorem bitsValue_follow (b : Bool) (m : Nat) :
    bitsValue (b :: List.replicate m (!b)) + 1 = 2 ^ m + b.toNat := by
  induction m with
  | zero => cases b <;> rfl
  | succ m ih =>
    rw [List.replicate_succ', ← List.cons_append, bitsValue_append, bitsValue_singleton, List.length_singleton,
      Nat.pow_succ]
    cases b <;> simp at ih ⊢ <;> omega

/-- With p - 1 = 2 ^ m - 1 pending ones above bit 30 of low, the shift that sends its top bit and the m inverted ones. -/
theorem follow_sameBit {p v b low low' : Nat} (hp : 1 ≤ p) (hv : v + 1 = p + b) (hl : low' + b * 2 ^ 32 = 2 * low) :
    ((p - 1) * 2 ^ 31 + low) * 2 = v * 2 ^ 32 + low' := by
  obtain ⟨q, rfl⟩ := Nat.exists_eq_add_of_le' hp
  obtain rfl : v = q + b := by omega
  rw [Nat.add_sub_cancel]; omega

/-- The straddle shift: one more pending bit. -/
theorem follow_straddle {p low low' : Nat} (hp : 1 ≤ p) (hl : low' + 2 ^ 31 = 2 * low) :
    ((p - 1) * 2 ^ 31 + low) * 2 = (p * 2 - 1) * 2 ^ 31 + low' := by
  obtain ⟨q, rfl⟩ := Nat.exists_eq_add_of_le' hp
  rw [Nat.add_sub_cancel]; omega

/-! ## The interval -/

/-- An interval of 32-bit numbers that is not empty. -/
def Interval (low high : Reg) : Prop := low.toNat ≤ high.toNat ∧ high.toNat < 2 ^ 32

/-- The width of an interval. -/
def width (low high : Reg) : Nat := high.toNat - low.toNat + 1

theorem rangeOk.interval {low high : Reg} (h : rangeOk low high) : Interval low high := by
  obtain ⟨h1, h2, h3, -⟩ := h; exact ⟨by omega, by omega⟩

/-- A renormalised interval is wider than a quarter of the whole (42_coder.md R226). -/
theorem rangeOk.width {low high : Reg} (h : rangeOk low high) : 2 ^ 30 < width low high := by
  obtain ⟨h1, h2, h3, h4⟩ := h; unfold Machine.width; omega

/-- What the case of an interval says of it as numbers (42_coder.md R223). -/
theorem renormCase_spec {low high : Reg} (h : Interval low high) :
    match renormCase low high with
    | .sameBit => high.toNat < 2 ^ 31 ∨ 2 ^ 31 ≤ low.toNat
    | .straddle => 2 ^ 30 ≤ low.toNat ∧ low.toNat < 2 ^ 31 ∧ 2 ^ 31 ≤ high.toNat ∧ high.toNat < 3 * 2 ^ 30
    | .exit => rangeOk low high := by
  obtain ⟨h1, h2⟩ := h
  have hq : (qtr ≤ low ∧ high < threeQtr) ↔ 2 ^ 30 ≤ low.toNat ∧ high.toNat < 3 * 2 ^ 30 := by
    rw [BitVec.le_def, BitVec.lt_def]; rfl
  unfold renormCase
  rw [getLsbD_31 (by omega), getLsbD_31 h2]
  by_cases hs : decide (2 ^ 31 ≤ low.toNat) = decide (2 ^ 31 ≤ high.toNat)
  · rw [if_pos hs]
    have := decide_eq_decide.1 hs
    dsimp only; omega
  · rw [if_neg hs]
    have hs : ¬ (2 ^ 31 ≤ low.toNat ↔ 2 ^ 31 ≤ high.toNat) := fun h => hs (decide_eq_decide.2 h)
    split_ifs with hst
    · have := hq.1 hst
      dsimp only; omega
    · have : ¬ (2 ^ 30 ≤ low.toNat ∧ high.toNat < 3 * 2 ^ 30) := fun h => hst (hq.2 h)
      dsimp only; unfold rangeOk; omega

/-- The narrowed interval of a symbol that has one, as exact numbers (42_coder.md R221). -/
theorem narrow_spec {low high : Reg} (h : rangeOk low high) {l r t : Nat} (hl : l < r) (hr : r ≤ t)
    (ht : t ≤ 33553920) :
    Interval (narrowLow low high l t) (narrowHigh low high r t) ∧
    (narrowLow low high l t).toNat = low.toNat + width low high * l / t ∧
    (narrowHigh low high r t).toNat + 1 = low.toNat + width low high * r / t ∧
    width (narrowLow low high l t) (narrowHigh low high r t) = width low high * r / t - width low high * l / t := by
  have hw := h.width
  obtain ⟨h1, h2⟩ := h.interval
  have ht0 : 0 < t := by omega
  have hrt : width low high * r / t ≤ width low high := Nat.div_le_of_le_mul (by
    rw [Nat.mul_comm]; exact Nat.mul_le_mul_right _ hr)
  have hlr : width low high * l / t + 1 ≤ width low high * r / t := by
    rw [Nat.le_div_iff_mul_le ht0]
    have a : width low high * l / t * t ≤ width low high * l := Nat.div_mul_le_self _ _
    have b : width low high * (l + 1) ≤ width low high * r := Nat.mul_le_mul_left _ hl
    rw [Nat.add_mul, Nat.one_mul]; rw [Nat.mul_add] at b; omega
  have e1 : (narrowLow low high l t).toNat = low.toNat + width low high * l / t := by
    rw [narrowLow, BitVec.toNat_ofNat]; unfold width at *; exact Nat.mod_eq_of_lt (by omega)
  have e2 : (narrowHigh low high r t).toNat + 1 = low.toNat + width low high * r / t := by
    rw [narrowHigh, BitVec.toNat_ofNat]
    rw [Nat.mod_eq_of_lt (by unfold width at *; omega)]; unfold width at *; omega
  have : width low high = high.toNat - low.toNat + 1 := rfl
  refine ⟨⟨by omega, by omega⟩, e1, e2, ?_⟩
  conv_lhs => unfold width
  omega

/-- The value a symbol of a search stands for lies in the narrowed interval (42_coder.md R241, R244). -/
theorem target_spec {low high value : Reg} (h1 : low.toNat ≤ value.toNat) {l r t f : Nat}
    (ht : 0 < t) (hf : f = ((value.toNat - low.toNat + 1) * t - 1) / width low high) (hl : l ≤ f) (hr : f < r) :
    low.toNat + width low high * l / t ≤ value.toNat ∧ value.toNat + 1 ≤ low.toNat + width low high * r / t := by
  have hw : 0 < width low high := by unfold width; omega
  have hpos : 1 ≤ (value.toNat - low.toNat + 1) * t := Nat.mul_pos (by omega) ht
  constructor
  · have : l * width low high ≤ (value.toNat - low.toNat + 1) * t - 1 := by
      rw [hf, Nat.le_div_iff_mul_le hw] at hl; exact hl
    have : width low high * l / t < value.toNat - low.toNat + 1 := by
      rw [Nat.div_lt_iff_lt_mul ht, Nat.mul_comm]; omega
    omega
  · have : (value.toNat - low.toNat + 1) * t - 1 < r * width low high := by
      rw [hf, Nat.div_lt_iff_lt_mul hw] at hr; exact hr
    have : value.toNat - low.toNat + 1 ≤ width low high * r / t := by
      rw [Nat.le_div_iff_mul_le ht, Nat.mul_comm (width low high)]; omega
    omega

/-- The target of a value inside the interval is below the total (42_coder.md R241). -/
theorem target_lt {d : Decoder} (h1 : d.low.toNat ≤ d.value.toNat) (h2 : d.value.toNat ≤ d.high.toNat) {t : Nat}
    (ht : 0 < t) : d.target t < t := by
  rw [Decoder.target, Nat.div_lt_iff_lt_mul (by omega), Nat.mul_comm t]
  have hpos : 1 ≤ (d.value.toNat - d.low.toNat + 1) * t := Nat.mul_pos (by omega) ht
  have : (d.value.toNat - d.low.toNat + 1) * t ≤ (d.high.toNat - d.low.toNat + 1) * t :=
    Nat.mul_le_mul_right _ (by omega)
  omega

/-- The shift of a narrowed interval both of whose ends have the same top bit. -/
theorem shift_sameBit {low high : Reg} (h : Interval low high) (hs : high.toNat < 2 ^ 31 ∨ 2 ^ 31 ≤ low.toNat) :
    Interval (shiftLow low) (shiftHigh high) ∧
      width (shiftLow low) (shiftHigh high) = 2 * width low high ∧
      (shiftLow low).toNat + (low.getLsbD 31).toNat * 2 ^ 32 = 2 * low.toNat := by
  obtain ⟨h1, h2⟩ := h
  unfold Interval width
  rw [shiftLow_toNat, shiftHigh_toNat, getLsbD_31 (by omega)]
  rcases hs with hs | hs
  · rw [decide_eq_false (by omega)]
    simp only [Bool.toNat_false]; omega
  · rw [decide_eq_true hs]
    simp only [Bool.toNat_true]; omega

/-- The straddle case and its shift. -/
theorem shift_straddle {low high : Reg} (h : Interval low high)
    (hs : 2 ^ 30 ≤ low.toNat ∧ low.toNat < 2 ^ 31 ∧ 2 ^ 31 ≤ high.toNat ∧ high.toNat < 3 * 2 ^ 30) :
    Interval (shiftLow (straddleLow low)) (shiftHigh (straddleHigh high)) ∧
      width (shiftLow (straddleLow low)) (shiftHigh (straddleHigh high)) = 2 * width low high ∧
      (shiftLow (straddleLow low)).toNat + 2 ^ 31 = 2 * low.toNat := by
  obtain ⟨h1, h2⟩ := h
  obtain ⟨a, b, c, d⟩ := hs
  unfold Interval width
  rw [shiftLow_toNat, shiftHigh_toNat,
    straddleLow_toNat a b, straddleHigh_toNat c d]
  omega

/-- The whole 32-bit interval is the only one of full width, and it is renormalised. -/
theorem rangeOk_of_full {low high : Reg} (h : Interval low high) (hw : 2 ^ 32 ≤ width low high) : rangeOk low high := by
  obtain ⟨h1, h2⟩ := h
  unfold width at hw; unfold rangeOk; omega

/-! ## Encoder -/

/-- From `s` to `t` only low, high, btf and outcnt of the encoder, the bit writer, the output and the draws have
changed. -/
structure EncoderFrame (s t : State) : Prop where
  result : t.result = s.result
  cfg : t.cfg = s.cfg
  fault : t.fault = s.fault
  fcode : t.fcode = s.fcode
  config : t.config = s.config
  table : t.table = s.table
  model : t.model = s.model
  active : t.enc.active = s.enc.active
  dec : t.dec = s.dec
  rdBuf : t.bits.rdBuf = s.bits.rdBuf
  rdCnt : t.bits.rdCnt = s.bits.rdCnt
  build : t.build = s.build
  port : t.port = s.port
  input : t.input = s.input

theorem EncoderFrame.refl (s : State) : EncoderFrame s s := by constructor <;> rfl

theorem EncoderFrame.trans {s t u : State} (h : EncoderFrame s t) (g : EncoderFrame t u) : EncoderFrame s u := by
  constructor
  exacts [g.result.trans h.result, g.cfg.trans h.cfg, g.fault.trans h.fault, g.fcode.trans h.fcode,
    g.config.trans h.config, g.table.trans h.table, g.model.trans h.model, g.active.trans h.active, g.dec.trans h.dec,
    g.rdBuf.trans h.rdBuf, g.rdCnt.trans h.rdCnt, g.build.trans h.build, g.port.trans h.port, g.input.trans h.input]

theorem WriterFrame.encoder {s t : State} (h : WriterFrame s t) : EncoderFrame s t :=
  ⟨h.result, h.cfg, h.fault, h.fcode, h.config, h.table, h.model, h.active, h.dec, h.rdBuf, h.rdCnt, h.build, h.port,
    h.input⟩

/-- The frame as one record update. -/
theorem EncoderFrame.eq {s t : State} (h : EncoderFrame s t) :
    t = { s with enc := { s.enc with low := t.enc.low, high := t.enc.high, btf := t.enc.btf, outcnt := t.enc.outcnt }
                 bits := { s.bits with wrBuf := t.bits.wrBuf, wrCnt := t.bits.wrCnt }
                 output := t.output, draws := t.draws } := by
  obtain ⟨h1, h2, h3, h4, h5, h6, h7, h8, h9, h10, h11, h12, h13, h14⟩ := h
  dsimp only
  rw [← h1, ← h2, ← h3, ← h4, ← h5, ← h6, ← h7, ← h8, ← h9, ← h10, ← h11, ← h12, ← h13, ← h14]

theorem bitPlusFollow_frame (s : State) (b : Bool) : EncoderFrame s (s.bitPlusFollow b) :=
  (((putBit_frame s b).trans (putBits_frame _ _ _)).encoder).trans (by constructor <;> rfl)

/-- bit_plus_follow writes its bit and the pending bits inverted, and leaves none pending (42_coder.md R224). -/
theorem bitPlusFollow_spec (s : State) (b : Bool) :
    (s.bitPlusFollow b).bitsOut = s.bitsOut ++ b :: List.replicate s.enc.btf.toNat (!b) ∧
      (s.bitPlusFollow b).enc.btf = 0#64 ∧ (s.bitPlusFollow b).enc.low = s.enc.low ∧
      (s.bitPlusFollow b).enc.high = s.enc.high := by
  have hf := (putBit_frame s b).trans (putBits_frame s.enc.btf.toNat (!b) (s.putBit b))
  refine ⟨?_, rfl, hf.low, hf.high⟩
  have := putBits_bitsOut s.enc.btf.toNat (!b) (s.putBit b)
  rw [putBit_bitsOut, List.append_assoc] at this
  exact this

theorem encRenorm_frame (n : Nat) (s : State) : EncoderFrame s (s.encRenorm n) := by
  induction n generalizing s with
  | zero => exact .refl s
  | succ n ih =>
    unfold State.encRenorm
    split
    · exact (bitPlusFollow_frame s _).trans ((by constructor <;> rfl : EncoderFrame _ (State.encShift _)).trans (ih _))
    · exact (by constructor <;> rfl : EncoderFrame s s.encStraddle.encShift).trans (ih _)
    · exact .refl s

theorem encodeInterval_frame (s : State) (l r t : Nat) : EncoderFrame s (s.encodeInterval l r t) :=
  (by constructor <;> rfl : EncoderFrame s (s.setEnc _)).trans (encRenorm_frame _ _)

/-- What the encoder's renormalisation does to a nonempty interval that `n` doublings fill: it shifts k times, doubling the
width each time, each shift one more bit sent or pending (42_coder.md R223, R224). The bits sent, the pending bits and
the low end together spell the low end it started from, k places up. -/
theorem encRenorm_spec (n : Nat) (s : State) (h : Interval s.enc.low s.enc.high)
    (hw : 2 ^ 32 ≤ width s.enc.low s.enc.high * 2 ^ n) (hb : s.enc.btf.toNat + n < 2 ^ 64) :
    ∃ k out, k ≤ n ∧ rangeOk (s.encRenorm n).enc.low (s.encRenorm n).enc.high ∧
      width (s.encRenorm n).enc.low (s.encRenorm n).enc.high = width s.enc.low s.enc.high * 2 ^ k ∧
      (s.encRenorm n).bitsOut = s.bitsOut ++ out ∧
      out.length + (s.encRenorm n).enc.btf.toNat = s.enc.btf.toNat + k ∧
      ((2 ^ s.enc.btf.toNat - 1) * 2 ^ 31 + s.enc.low.toNat) * 2 ^ k =
        bitsValue out * 2 ^ (32 + (s.encRenorm n).enc.btf.toNat) +
          ((2 ^ (s.encRenorm n).enc.btf.toNat - 1) * 2 ^ 31 + (s.encRenorm n).enc.low.toNat) := by
  induction n generalizing s with
  | zero => exact ⟨0, [], le_refl _, rangeOk_of_full h (by simpa [State.encRenorm] using hw), by simp [State.encRenorm]⟩
  | succ n ih =>
    have hc := renormCase_spec h
    unfold State.encRenorm
    split <;> rename_i he <;> rw [he] at hc <;> dsimp only at hc
    · obtain ⟨hi, hw', hlow⟩ := shift_sameBit h hc
      obtain ⟨b1, b2, b3, b4⟩ := bitPlusFollow_spec s (s.enc.low.getLsbD 31)
      have e1 : (s.bitPlusFollow (s.enc.low.getLsbD 31)).encShift.enc.low = shiftLow s.enc.low :=
        congrArg shiftLow b3
      have e2 : (s.bitPlusFollow (s.enc.low.getLsbD 31)).encShift.enc.high = shiftHigh s.enc.high :=
        congrArg shiftHigh b4
      have e3 : (s.bitPlusFollow (s.enc.low.getLsbD 31)).encShift.enc.btf = 0#64 := b2
      have e4 : (s.bitPlusFollow (s.enc.low.getLsbD 31)).encShift.bitsOut = _ := b1
      obtain ⟨k, out, hk, hr, hwk, ho, hl, hv⟩ := ih _ (by rw [e1, e2]; exact hi)
        (by rw [e1, e2, hw', Nat.mul_comm 2, Nat.mul_assoc, ← Nat.pow_succ']; exact hw) (by rw [e3]; simp; omega)
      refine ⟨k + 1, _, by omega, hr, ?_, by rw [ho, e4, List.append_assoc], ?_, ?_⟩
      · rw [hwk, e1, e2, hw', Nat.mul_comm 2, Nat.mul_assoc, ← Nat.pow_succ']
      · rw [e3] at hl
        simp at hl ⊢; omega
      · rw [e3, e1] at hv
        rw [e3, BitVec.toNat_ofNat, Nat.zero_mod, Nat.zero_add] at hl
        have hf := bitsValue_follow (s.enc.low.getLsbD 31) s.enc.btf.toNat
        have hp : 1 ≤ 2 ^ s.enc.btf.toNat := Nat.one_le_two_pow
        rw [bitsValue_append]
        generalize bitsValue (s.enc.low.getLsbD 31 :: List.replicate _ _) = v at hf ⊢
        have hsum : ((2 ^ s.enc.btf.toNat - 1) * 2 ^ 31 + s.enc.low.toNat) * 2 =
            v * 2 ^ 32 + (shiftLow s.enc.low).toNat := follow_sameBit hp hf hlow
        have hexp : ∀ m, out.length + m = k → 2 ^ out.length * 2 ^ (32 + m) = 2 ^ 32 * 2 ^ k := by
          rintro m rfl
          rw [← Nat.pow_add, ← Nat.pow_add]; congr 1; omega
        rw [Nat.pow_succ' (n := k), ← Nat.mul_assoc, hsum, Nat.add_mul, Nat.add_mul, Nat.mul_assoc v, Nat.mul_assoc v, hexp _ hl,
          Nat.add_assoc]
        congr 1
        simpa using hv
    · obtain ⟨hi, hw', hlow⟩ := shift_straddle h hc
      have e1 : s.encStraddle.encShift.enc.low = shiftLow (straddleLow s.enc.low) := rfl
      have e2 : s.encStraddle.encShift.enc.high = shiftHigh (straddleHigh s.enc.high) := rfl
      have e3 : s.encStraddle.encShift.enc.btf.toNat = s.enc.btf.toNat + 1 := countUp_toNat (by omega) _
      have e4 : s.encStraddle.encShift.bitsOut = s.bitsOut := rfl
      obtain ⟨k, out, hk, hr, hwk, ho, hl, hv⟩ := ih _ (by rw [e1, e2]; exact hi)
        (by rw [e1, e2, hw', Nat.mul_comm 2, Nat.mul_assoc, ← Nat.pow_succ']; exact hw) (by rw [e3]; omega)
      refine ⟨k + 1, out, by omega, hr, ?_, by rw [ho, e4], ?_, ?_⟩
      · rw [hwk, e1, e2, hw', Nat.mul_comm 2, Nat.mul_assoc, ← Nat.pow_succ']
      · rw [e3] at hl; omega
      · have hp : 1 ≤ 2 ^ s.enc.btf.toNat := Nat.one_le_two_pow
        have hsum : ((2 ^ s.enc.btf.toNat - 1) * 2 ^ 31 + s.enc.low.toNat) * 2 =
            (2 ^ s.enc.btf.toNat * 2 - 1) * 2 ^ 31 + (shiftLow (straddleLow s.enc.low)).toNat := follow_straddle hp hlow
        rw [← hv, e1, e3, Nat.pow_succ' (n := k), ← Nat.mul_assoc, hsum, Nat.pow_succ (m := s.enc.btf.toNat)]
    · exact ⟨0, [], by omega, hc, by simp⟩

/-- After any renormalisation of a nonempty interval, whatever the pending bits, the interval is renormalised. -/
theorem encRenorm_range (n : Nat) (s : State) (h : Interval s.enc.low s.enc.high)
    (hw : 2 ^ 32 ≤ width s.enc.low s.enc.high * 2 ^ n) :
    rangeOk (s.encRenorm n).enc.low (s.encRenorm n).enc.high := by
  induction n generalizing s with
  | zero => exact rangeOk_of_full h (by simpa [State.encRenorm] using hw)
  | succ n ih =>
    have hc := renormCase_spec h
    unfold State.encRenorm
    split <;> rename_i he <;> rw [he] at hc <;> dsimp only at hc
    · obtain ⟨hi, hw', -⟩ := shift_sameBit h hc
      obtain ⟨-, -, b3, b4⟩ := bitPlusFollow_spec s (s.enc.low.getLsbD 31)
      have e1 : (s.bitPlusFollow (s.enc.low.getLsbD 31)).encShift.enc.low = shiftLow s.enc.low :=
        congrArg shiftLow b3
      have e2 : (s.bitPlusFollow (s.enc.low.getLsbD 31)).encShift.enc.high = shiftHigh s.enc.high :=
        congrArg shiftHigh b4
      exact ih _ (by rw [e1, e2]; exact hi)
        (by rw [e1, e2, hw', Nat.mul_comm 2, Nat.mul_assoc, ← Nat.pow_succ']; exact hw)
    · obtain ⟨hi, hw', -⟩ := shift_straddle h hc
      exact ih _ hi (by
        change _ ≤ width (shiftLow (straddleLow s.enc.low)) (shiftHigh (straddleHigh s.enc.high)) * _
        rw [hw', Nat.mul_comm 2, Nat.mul_assoc, ← Nat.pow_succ']; exact hw)
    · exact hc

theorem width_pow {low high : Reg} : 2 ^ 32 ≤ width low high * 2 ^ renormFuel := by
  have : 1 ≤ width low high := by unfold width; omega
  exact Nat.le_mul_of_pos_left _ this

/-! ## Decoder -/

/-- From `s` to `t` only the decoder but for S.dec_active, the bit reader, the input and the draws have changed. -/
structure DecoderFrame (s t : State) : Prop where
  result : t.result = s.result
  cfg : t.cfg = s.cfg
  fault : t.fault = s.fault
  fcode : t.fcode = s.fcode
  config : t.config = s.config
  table : t.table = s.table
  model : t.model = s.model
  enc : t.enc = s.enc
  active : t.dec.active = s.dec.active
  wrBuf : t.bits.wrBuf = s.bits.wrBuf
  wrCnt : t.bits.wrCnt = s.bits.wrCnt
  build : t.build = s.build
  port : t.port = s.port
  output : t.output = s.output

theorem DecoderFrame.refl (s : State) : DecoderFrame s s := by constructor <;> rfl

theorem DecoderFrame.trans {s t u : State} (h : DecoderFrame s t) (g : DecoderFrame t u) : DecoderFrame s u := by
  constructor
  exacts [g.result.trans h.result, g.cfg.trans h.cfg, g.fault.trans h.fault, g.fcode.trans h.fcode,
    g.config.trans h.config, g.table.trans h.table, g.model.trans h.model, g.enc.trans h.enc, g.active.trans h.active,
    g.wrBuf.trans h.wrBuf, g.wrCnt.trans h.wrCnt, g.build.trans h.build, g.port.trans h.port, g.output.trans h.output]

theorem ReaderFrame.decoder {s t : State} (h : ReaderFrame s t) : DecoderFrame s t :=
  ⟨h.result, h.cfg, h.fault, h.fcode, h.config, h.table, h.model, h.enc, h.active, h.wrBuf, h.wrCnt, h.build, h.port,
    h.output⟩

/-- The frame as one record update. -/
theorem DecoderFrame.eq {s t : State} (h : DecoderFrame s t) :
    t = { s with dec := { t.dec with active := s.dec.active }, input := t.input, draws := t.draws
                 bits := { s.bits with rdBuf := t.bits.rdBuf, rdCnt := t.bits.rdCnt } } := by
  obtain ⟨h1, h2, h3, h4, h5, h6, h7, h8, h9, h10, h11, h12, h13, h14⟩ := h
  dsimp only
  rw [← h1, ← h2, ← h3, ← h4, ← h5, ← h6, ← h7, ← h8, ← h9, ← h10, ← h11, ← h12, ← h13, ← h14]

theorem decShift_frame (s : State) : DecoderFrame s s.decShift :=
  (getBit_frame s).decoder.trans (by constructor <;> rfl)

theorem decStraddle_frame (s : State) : DecoderFrame s s.decStraddle := by constructor <;> rfl

theorem decRenorm_frame (n : Nat) (s : State) : DecoderFrame s (s.decRenorm n) := by
  induction n generalizing s with
  | zero => exact .refl s
  | succ n ih =>
    unfold State.decRenorm
    split
    · exact (decShift_frame s).trans (ih _)
    · exact (decStraddle_frame s).trans ((decShift_frame _).trans (ih _))
    · exact .refl s

theorem decodeInterval_frame (s : State) (l r t : Nat) : DecoderFrame s (s.decodeInterval l r t) :=
  (by constructor <;> rfl : DecoderFrame s (s.setDec _)).trans (decRenorm_frame _ _)

/-- One shift of the decoder: both ends shift, and the next input bit enters the value (42_coder.md R243). -/
theorem decShift_spec (s : State) :
    s.decShift.dec.low = shiftLow s.dec.low ∧ s.decShift.dec.high = shiftHigh s.dec.high ∧
      s.decShift.dec.value = ((s.dec.value <<< 1) ||| flag64 s.getBit.1) &&& top ∧
      (s.dec.shifts.toNat + 1 < 2 ^ 64 → s.decShift.dec.shifts.toNat = s.dec.shifts.toNat + 1) ∧
      s.decShift.dec.eof = s.getBit.2.dec.eof ∧ s.decShift.bits = s.getBit.2.bits ∧
      s.decShift.input = s.getBit.2.input := by
  have hf := getBit_frame s
  refine ⟨by rw [← hf.low]; rfl, by rw [← hf.high]; rfl, by rw [← hf.value]; rfl, fun h => ?_, rfl, rfl, rfl⟩
  rw [← hf.shifts] at h ⊢
  exact countUp_toNat h _

/-- The decoder's value is in its interval. -/
def InInterval (d : Decoder) : Prop := d.low.toNat ≤ d.value.toNat ∧ d.value.toNat ≤ d.high.toNat

theorem decShift_sameBit {s : State} (h : Interval s.dec.low s.dec.high) (hv : InInterval s.dec)
    (hs : s.dec.high.toNat < 2 ^ 31 ∨ 2 ^ 31 ≤ s.dec.low.toNat) : InInterval s.decShift.dec := by
  obtain ⟨a, b, c, -⟩ := decShift_spec s
  obtain ⟨h1, h2⟩ := h
  obtain ⟨v1, v2⟩ := hv
  unfold InInterval
  rw [a, b, c, shiftLow_toNat, shiftHigh_toNat, shiftBit_toNat]
  have := Bool.toNat_le s.getBit.1
  omega

theorem decStraddle_spec {s : State} (hv : InInterval s.dec)
    (hs : 2 ^ 30 ≤ s.dec.low.toNat ∧ s.dec.low.toNat < 2 ^ 31 ∧ 2 ^ 31 ≤ s.dec.high.toNat ∧
      s.dec.high.toNat < 3 * 2 ^ 30) :
    s.decStraddle.dec.low.toNat = s.dec.low.toNat - 2 ^ 30 ∧ s.decStraddle.dec.high.toNat = s.dec.high.toNat + 2 ^ 30 ∧
      s.decStraddle.dec.value.toNat = s.dec.value.toNat - 2 ^ 30 := by
  obtain ⟨a, b, c, d⟩ := hs
  obtain ⟨v1, v2⟩ := hv
  refine ⟨straddleLow_toNat a b, straddleHigh_toNat c d, ?_⟩
  change (s.dec.value - qtr).toNat = _
  rw [BitVec.toNat_sub]
  change (2 ^ 64 - 0x40000000 + _) % _ = _
  omega

theorem decShift_straddle {s : State} (h : Interval s.dec.low s.dec.high) (hv : InInterval s.dec)
    (hs : 2 ^ 30 ≤ s.dec.low.toNat ∧ s.dec.low.toNat < 2 ^ 31 ∧ 2 ^ 31 ≤ s.dec.high.toNat ∧
      s.dec.high.toNat < 3 * 2 ^ 30) : InInterval s.decStraddle.decShift.dec := by
  obtain ⟨a, b, c, -⟩ := decShift_spec s.decStraddle
  obtain ⟨e1, e2, e3⟩ := decStraddle_spec hv hs
  obtain ⟨h1, h2⟩ := h
  obtain ⟨v1, v2⟩ := hv
  unfold InInterval
  rw [a, b, c, shiftLow_toNat, shiftHigh_toNat, shiftBit_toNat, e1, e2, e3]
  have := Bool.toNat_le s.decStraddle.getBit.1
  omega

/-- What the decoder's renormalisation does to a nonempty interval that `n` doublings fill: the interval ends renormalised,
k doublings wider, with the value inside it (42_coder.md R243, R244). -/
theorem decRenorm_range (n : Nat) (s : State) (h : Interval s.dec.low s.dec.high) (hv : InInterval s.dec)
    (hw : 2 ^ 32 ≤ width s.dec.low s.dec.high * 2 ^ n) :
    rangeOk (s.decRenorm n).dec.low (s.decRenorm n).dec.high ∧ InInterval (s.decRenorm n).dec := by
  induction n generalizing s with
  | zero => exact ⟨rangeOk_of_full h (by simpa [State.decRenorm] using hw), hv⟩
  | succ n ih =>
    have hc := renormCase_spec h
    unfold State.decRenorm
    split <;> rename_i he <;> rw [he] at hc <;> dsimp only at hc
    · obtain ⟨hi, hw', -⟩ := shift_sameBit h hc
      obtain ⟨a, b, -⟩ := decShift_spec s
      exact ih _ (by rw [a, b]; exact hi) (decShift_sameBit h hv hc)
        (by rw [a, b, hw', Nat.mul_comm 2, Nat.mul_assoc, ← Nat.pow_succ']; exact hw)
    · obtain ⟨hi, hw', -⟩ := shift_straddle h hc
      obtain ⟨a, b, -⟩ := decShift_spec s.decStraddle
      exact ih _ (by rw [a, b]; exact hi) (decShift_straddle h hv hc)
        (by rw [a, b]; change _ ≤ width (shiftLow (straddleLow s.dec.low)) (shiftHigh (straddleHigh s.dec.high)) * _
            rw [hw', Nat.mul_comm 2, Nat.mul_assoc, ← Nat.pow_succ']; exact hw)
    · exact ⟨hc, hv⟩

/-- The same-bit shift of the decoder, as exact numbers: low and value lose their common top bit, and the next input bit
enters below the value (42_coder.md R243). -/
theorem decShift_sameBit_value {s : State} (h : Interval s.dec.low s.dec.high) (hv : InInterval s.dec)
    (hs : s.dec.high.toNat < 2 ^ 31 ∨ 2 ^ 31 ≤ s.dec.low.toNat) :
    s.decShift.dec.low.toNat % 2 ^ 31 = 2 * s.dec.low.toNat % 2 ^ 31 ∧
      s.decShift.dec.value.toNat - s.decShift.dec.low.toNat =
        (s.dec.value.toNat - s.dec.low.toNat) * 2 + s.getBit.1.toNat := by
  obtain ⟨a, -, c, -⟩ := decShift_spec s
  obtain ⟨h1, h2⟩ := h
  obtain ⟨v1, v2⟩ := hv
  rw [a, c, shiftLow_toNat, shiftBit_toNat]
  have := Bool.toNat_le s.getBit.1
  omega

/-- The straddle case and its shift, as exact numbers (42_coder.md R243, decision D22). -/
theorem decShift_straddle_value {s : State} (hv : InInterval s.dec)
    (hs : 2 ^ 30 ≤ s.dec.low.toNat ∧ s.dec.low.toNat < 2 ^ 31 ∧ 2 ^ 31 ≤ s.dec.high.toNat ∧
      s.dec.high.toNat < 3 * 2 ^ 30) :
    s.decStraddle.decShift.dec.low.toNat % 2 ^ 31 = 2 * s.dec.low.toNat % 2 ^ 31 ∧
      s.decStraddle.decShift.dec.value.toNat - s.decStraddle.decShift.dec.low.toNat =
        (s.dec.value.toNat - s.dec.low.toNat) * 2 + s.decStraddle.getBit.1.toNat := by
  obtain ⟨a, -, c, -⟩ := decShift_spec s.decStraddle
  obtain ⟨e1, -, e3⟩ := decStraddle_spec hv hs
  obtain ⟨v1, v2⟩ := hv
  rw [a, c, shiftLow_toNat, shiftBit_toNat, e1, e3]
  have := Bool.toNat_le s.decStraddle.getBit.1
  omega

/-- With enough input left, each of the k shifts reads one bit and counts once, and the width doubles k times (42_coder.md
R243, R246). The low end doubles modulo 2 ^ 31, and the bits read enter the distance of the value from it. -/
theorem decRenorm_spec (n : Nat) (s : State) (h : Interval s.dec.low s.dec.high) (hv : InInterval s.dec)
    (hc8 : s.bits.rdCnt.toNat ≤ 8) (he : s.dec.eof = false) (hin : n ≤ s.bitsIn.length)
    (hs : s.dec.shifts.toNat + n < 2 ^ 64) :
    ∃ k, k ≤ n ∧ (s.decRenorm n).bitsIn = s.bitsIn.drop k ∧
      (s.decRenorm n).dec.shifts.toNat = s.dec.shifts.toNat + k ∧ (s.decRenorm n).dec.eof = false ∧
      (s.decRenorm n).bits.rdCnt.toNat ≤ 8 ∧
      width (s.decRenorm n).dec.low (s.decRenorm n).dec.high = width s.dec.low s.dec.high * 2 ^ k ∧
      (s.decRenorm n).dec.low.toNat % 2 ^ 31 = s.dec.low.toNat * 2 ^ k % 2 ^ 31 ∧
      (s.decRenorm n).dec.value.toNat - (s.decRenorm n).dec.low.toNat =
        (s.dec.value.toNat - s.dec.low.toNat) * 2 ^ k + bitsValue (s.bitsIn.take k) := by
  induction n generalizing s with
  | zero => exact ⟨0, le_refl _, rfl, rfl, he, hc8, by simp [State.decRenorm]⟩
  | succ n ih =>
    have shift : ∀ u : State, u.bits.rdCnt.toNat ≤ 8 → u.dec.eof = false → n + 1 ≤ u.bitsIn.length →
        u.dec.shifts.toNat + (n + 1) < 2 ^ 64 → u.bitsIn = u.getBit.1 :: u.decShift.bitsIn ∧
        u.decShift.dec.eof = false ∧ u.decShift.bits.rdCnt.toNat ≤ 8 ∧
        u.decShift.dec.shifts.toNat = u.dec.shifts.toNat + 1 := by
      intro u h8 hu hl hsh
      obtain ⟨-, -, -, d, e, f, g⟩ := decShift_spec u
      cases hb : u.bitsIn with
      | nil => simp [hb] at hl
      | cons b rest =>
        obtain ⟨hbit, i, j, k⟩ := getBit_cons h8 hu hb
        refine ⟨?_, e.trans j, by rw [f]; exact k, d (by omega)⟩
        unfold State.bitsIn at i ⊢
        rw [f, g, i, hbit]
    have join : ∀ {v l low k : Nat} {b : Bool} {rest : List Bool} {u : State},
        u.dec.low.toNat % 2 ^ 31 = 2 * low % 2 ^ 31 → u.dec.value.toNat - u.dec.low.toNat = (v - low) * 2 + b.toNat →
        k ≤ rest.length → l % 2 ^ 31 = u.dec.low.toNat * 2 ^ k % 2 ^ 31 →
        l % 2 ^ 31 = low * 2 ^ (k + 1) % 2 ^ 31 ∧
        (u.dec.value.toNat - u.dec.low.toNat) * 2 ^ k + bitsValue (rest.take k) =
          (v - low) * 2 ^ (k + 1) + bitsValue ((b :: rest).take (k + 1)) := by
      intro v l low k b rest u h1 h2 hk h3
      refine ⟨?_, ?_⟩
      · rw [h3, Nat.mul_mod, h1, ← Nat.mul_mod, Nat.pow_succ' (n := k), Nat.mul_comm 2 low, Nat.mul_assoc]
      · rw [List.take_succ_cons, ← List.singleton_append, bitsValue_append, bitsValue_singleton, h2, Nat.pow_succ',
          List.length_take, Nat.min_eq_left hk]
        ring
    have hcase := renormCase_spec h
    unfold State.decRenorm
    split <;> rename_i hcs <;> rw [hcs] at hcase <;> dsimp only at hcase
    · obtain ⟨hi, hw', -⟩ := shift_sameBit h hcase
      obtain ⟨a, b, -⟩ := decShift_spec s
      obtain ⟨s1, s2, s3, s4⟩ := shift s hc8 he hin hs
      obtain ⟨v1, v2⟩ := decShift_sameBit_value h hv hcase
      have hlen : n ≤ s.decShift.bitsIn.length := by rw [s1] at hin; exact Nat.le_of_succ_le_succ hin
      obtain ⟨k, hk, k1, k2, k3, k4, k5, k6, k7⟩ := ih _ (by rw [a, b]; exact hi) (decShift_sameBit h hv hcase) s3 s2
        hlen (by rw [s4]; omega)
      obtain ⟨j1, j2⟩ := join v1 v2 (hk.trans hlen) k6
      refine ⟨k + 1, by omega, ?_, by rw [k2, s4]; omega, k3, k4, ?_, j1, ?_⟩
      · rw [k1, s1]; rfl
      · rw [k5, a, b, hw', Nat.mul_comm 2, Nat.mul_assoc, ← Nat.pow_succ']
      · rw [k7, j2, ← s1]
    · obtain ⟨hi, hw', -⟩ := shift_straddle h hcase
      obtain ⟨a, b, -⟩ := decShift_spec s.decStraddle
      obtain ⟨s1, s2, s3, s4⟩ := shift s.decStraddle hc8 he hin hs
      obtain ⟨v1, v2⟩ := decShift_straddle_value hv hcase
      have hbits : s.bitsIn = s.decStraddle.bitsIn := rfl
      have hlen : n ≤ s.decStraddle.decShift.bitsIn.length := by
        rw [hbits, s1] at hin; exact Nat.le_of_succ_le_succ hin
      obtain ⟨k, hk, k1, k2, k3, k4, k5, k6, k7⟩ := ih _ (by rw [a, b]; exact hi) (decShift_straddle h hv hcase) s3 s2
        hlen (by rw [s4]; change s.dec.shifts.toNat + 1 + n < _; omega)
      obtain ⟨j1, j2⟩ := join v1 v2 (hk.trans hlen) k6
      refine ⟨k + 1, by omega, ?_, by rw [k2, s4]; change s.dec.shifts.toNat + 1 + k = _; omega, k3, k4, ?_, j1, ?_⟩
      · rw [k1, hbits, s1]; rfl
      · rw [k5, a, b]
        change width (shiftLow (straddleLow s.dec.low)) (shiftHigh (straddleHigh s.dec.high)) * _ = _
        rw [hw', Nat.mul_comm 2, Nat.mul_assoc, ← Nat.pow_succ']
      · rw [k7, j2, ← s1, ← hbits]
    · exact ⟨0, by omega, rfl, rfl, he, hc8, by simp⟩

end Sys2Proof.Machine
end

