-- ==== Sys2Proof/Laws/Memory.lean ====
section
/-! SUPPORT. Internal memories: what each operation makes a read give, and that each keeps the canonical form. -/

namespace Sys2Proof.Machine

variable {w : Nat}

@[simp] theorem Memory.read_nil (i : Nat) : Memory.read ([] : Memory w) i = 0#w := rfl

theorem Memory.read_pair (a i : Nat) (v : BitVec w) (m : Memory w) :
    Memory.read ((a, v) :: m) i = if a = i then v else Memory.read m i := rfl

theorem Memory.read_cons (i j : Nat) (v : BitVec w) (m : Memory w) (h : Memory.read m i = 0#w) :
    Memory.read (Memory.cons i v m) j = if j = i then v else Memory.read m j := by
  unfold Memory.cons
  split
  · rename_i hv
    split
    · subst_vars; exact h
    · rfl
  · rw [Memory.read_pair]
    by_cases hij : i = j
    · simp [hij]
    · simp [hij, Ne.symm hij]

/-- A write leaves every other element alone, whatever the list. -/
theorem Memory.read_write_of_ne (m : Memory w) {i j : Nat} (v : BitVec w) (h : j ≠ i) :
    Memory.read (Memory.write m i v) j = Memory.read m j := by
  induction m with
  | nil =>
    simp only [Memory.write, Memory.cons]
    split
    · rfl
    · simp [Memory.read, Ne.symm h]
  | cons e m ih =>
    obtain ⟨a, x⟩ := e
    simp only [Memory.write]
    split
    · simp only [Memory.read, ih]
    · split
      · rename_i _ hai
        subst hai
        simp only [Memory.cons]
        split <;> simp [Memory.read, Ne.symm h]
      · simp only [Memory.cons]
        split
        · rfl
        · simp [Memory.read, Ne.symm h]

theorem Memory.read_of_wfFrom {lo : Nat} {m : Memory w} (h : Memory.wfFrom lo m = true) {i : Nat} (hi : i < lo) :
    Memory.read m i = 0#w := by
  induction m generalizing lo with
  | nil => rfl
  | cons e m ih =>
    obtain ⟨a, x⟩ := e
    simp only [Memory.wfFrom, Bool.and_eq_true, decide_eq_true_eq] at h
    rw [Memory.read_pair, if_neg (by omega)]
    exact ih h.2 (by omega)

theorem Memory.wfFrom_mono {lo lo' : Nat} {m : Memory w} (h : Memory.wfFrom lo m = true) (hl : lo' ≤ lo) :
    Memory.wfFrom lo' m = true := by
  cases m with
  | nil => rfl
  | cons e m =>
    obtain ⟨a, x⟩ := e
    simp only [Memory.wfFrom, Bool.and_eq_true, decide_eq_true_eq] at h ⊢
    exact ⟨⟨by omega, h.1.2⟩, h.2⟩

theorem Memory.wfFrom_cons {lo i : Nat} (v : BitVec w) {m : Memory w} (hi : lo ≤ i)
    (h : Memory.wfFrom (i + 1) m = true) : Memory.wfFrom lo (Memory.cons i v m) = true := by
  unfold Memory.cons
  split
  · exact Memory.wfFrom_mono h (by omega)
  · rename_i hv
    simp [Memory.wfFrom, hi, h, hv]

/-- Writing at or above `lo` keeps a list that is canonical from `lo` canonical from `lo`. -/
theorem Memory.wfFrom_write {lo : Nat} {m : Memory w} (h : Memory.wfFrom lo m = true) {i : Nat} (hi : lo ≤ i)
    (v : BitVec w) : Memory.wfFrom lo (Memory.write m i v) = true := by
  induction m generalizing lo with
  | nil => exact Memory.wfFrom_cons v hi rfl
  | cons e m ih =>
    obtain ⟨a, x⟩ := e
    simp only [Memory.wfFrom, Bool.and_eq_true, decide_eq_true_eq] at h
    simp only [Memory.write]
    split
    · simp only [Memory.wfFrom, Bool.and_eq_true, decide_eq_true_eq]
      exact ⟨h.1, ih h.2 (by omega)⟩
    · split
      · rename_i _ hai
        subst hai
        exact Memory.wfFrom_cons v hi h.2
      · refine Memory.wfFrom_cons v hi ?_
        simp only [Memory.wfFrom, Bool.and_eq_true, decide_eq_true_eq]
        exact ⟨⟨by omega, h.1.2⟩, h.2⟩

/-- A write keeps the canonical form. -/
theorem Memory.wf_write {m : Memory w} (h : m.wf = true) (i : Nat) (v : BitVec w) : (m.write i v).wf = true :=
  Memory.wfFrom_write h (Nat.zero_le i) v

/-- What a write makes a read give, on a list that is canonical from some index at or below the one written. -/
theorem Memory.read_write_from {lo : Nat} {m : Memory w} (h : Memory.wfFrom lo m = true) (i : Nat) (v : BitVec w) :
    Memory.read (Memory.write m i v) i = v := by
  induction m generalizing lo with
  | nil => simp only [Memory.write]; rw [Memory.read_cons _ _ _ _ rfl]; simp
  | cons e m ih =>
    obtain ⟨a, x⟩ := e
    simp only [Memory.wfFrom, Bool.and_eq_true, decide_eq_true_eq] at h
    simp only [Memory.write]
    split
    · rw [Memory.read_pair, if_neg (by omega)]
      exact ih h.2
    · split
      · rename_i _ hai
        subst hai
        rw [Memory.read_cons _ _ _ _ (Memory.read_of_wfFrom h.2 (by omega))]
        simp
      · rw [Memory.read_cons]
        · simp
        · rw [Memory.read_pair, if_neg (by assumption)]
          exact Memory.read_of_wfFrom h.2 (by omega)

/-- A read after a write to the same element gives the value written. -/
theorem Memory.read_write_same {m : Memory w} (h : m.wf = true) (i : Nat) (v : BitVec w) :
    (m.write i v).read i = v := Memory.read_write_from h i v

/-- The one law of reads after writes, for a memory in canonical form. -/
theorem Memory.read_write {m : Memory w} (h : m.wf = true) (i j : Nat) (v : BitVec w) :
    (m.write i v).read j = if j = i then v else m.read j := by
  split
  · subst_vars; exact Memory.read_write_same h _ v
  · exact Memory.read_write_of_ne m v (by assumption)

/-- Clearing below `n` makes the elements below `n` read 0 and leaves the others, whatever the list. -/
theorem Memory.read_clearBelow (m : Memory w) (n i : Nat) :
    (m.clearBelow n).read i = if i < n then 0#w else m.read i := by
  induction m with
  | nil => simp [Memory.clearBelow]
  | cons e m ih =>
    obtain ⟨a, x⟩ := e
    simp only [Memory.clearBelow, List.filter_cons] at ih ⊢
    by_cases han : n ≤ a
    · simp only [han, decide_true, if_true, Memory.read_pair, ih]
      by_cases hai : a = i
      · have : ¬ i < n := by omega
        simp [hai, this]
      · simp [hai]
    · simp only [han, decide_false, Bool.false_eq_true, if_false, ih, Memory.read_pair]
      by_cases hin : i < n
      · simp [hin]
      · have : ¬ a = i := by omega
        simp [hin, this]

theorem Memory.wfFrom_filter {lo : Nat} {m : Memory w} (h : Memory.wfFrom lo m = true) (p : Nat × BitVec w → Bool) :
    Memory.wfFrom lo (m.filter p) = true := by
  induction m generalizing lo with
  | nil => rfl
  | cons e m ih =>
    obtain ⟨a, x⟩ := e
    simp only [Memory.wfFrom, Bool.and_eq_true, decide_eq_true_eq] at h
    rw [List.filter_cons]
    split
    · simp only [Memory.wfFrom, Bool.and_eq_true, decide_eq_true_eq]
      exact ⟨h.1, ih h.2⟩
    · exact Memory.wfFrom_mono (ih h.2) (by omega)

/-- Clearing keeps the canonical form. -/
theorem Memory.wf_clearBelow {m : Memory w} (h : m.wf = true) (n : Nat) : (m.clearBelow n).wf = true :=
  Memory.wfFrom_filter h _

theorem Memory.wfFrom_mapElements {lo : Nat} {m : Memory w} (h : Memory.wfFrom lo m = true)
    (f : Nat → BitVec w → BitVec w) : Memory.wfFrom lo (m.mapElements f) = true := by
  induction m generalizing lo with
  | nil => rfl
  | cons e m ih =>
    obtain ⟨a, x⟩ := e
    simp only [Memory.wfFrom, Bool.and_eq_true, decide_eq_true_eq] at h
    exact Memory.wfFrom_cons _ h.1.1 (ih h.2)

/-- Mapping the elements keeps the canonical form. -/
theorem Memory.wf_mapElements {m : Memory w} (h : m.wf = true) (f : Nat → BitVec w → BitVec w) :
    (m.mapElements f).wf = true := Memory.wfFrom_mapElements h f

theorem Memory.read_mapElements_from {lo : Nat} {m : Memory w} (h : Memory.wfFrom lo m = true)
    {f : Nat → BitVec w → BitVec w} (hf : ∀ i, f i 0#w = 0#w) (i : Nat) :
    (m.mapElements f).read i = f i (m.read i) := by
  induction m generalizing lo i with
  | nil => simp [Memory.mapElements, hf]
  | cons e m ih =>
    obtain ⟨a, x⟩ := e
    simp only [Memory.wfFrom, Bool.and_eq_true, decide_eq_true_eq] at h
    simp only [Memory.mapElements]
    rw [Memory.read_cons, Memory.read_pair, ih h.2]
    · by_cases hai : i = a
      · simp [hai]
      · simp [hai, Ne.symm hai]
    · rw [ih h.2, Memory.read_of_wfFrom h.2 (by omega), hf]

/-- Mapping the elements applies `f` to every element. -/
theorem Memory.read_mapElements {m : Memory w} (h : m.wf = true) {f : Nat → BitVec w → BitVec w}
    (hf : ∀ i, f i 0#w = 0#w) (i : Nat) : (m.mapElements f).read i = f i (m.read i) :=
  Memory.read_mapElements_from h hf i

/-- Two canonical memories that read alike are the same list. -/
theorem Memory.ext_of_wfFrom {lo : Nat} {m m' : Memory w} (h : Memory.wfFrom lo m = true)
    (h' : Memory.wfFrom lo m' = true) (hr : ∀ i, m.read i = m'.read i) : m = m' := by
  induction m generalizing lo m' with
  | nil =>
    cases m' with
    | nil => rfl
    | cons e m' =>
      obtain ⟨a, x⟩ := e
      simp only [Memory.wfFrom, Bool.and_eq_true, decide_eq_true_eq, bne_iff_ne, ne_eq] at h'
      have := hr a
      simp only [Memory.read_nil, Memory.read_pair, if_true] at this
      exact absurd this.symm h'.1.2
  | cons e m ih =>
    obtain ⟨a, x⟩ := e
    simp only [Memory.wfFrom, Bool.and_eq_true, decide_eq_true_eq, bne_iff_ne, ne_eq] at h
    cases m' with
    | nil =>
      have := hr a
      simp only [Memory.read_nil, Memory.read_pair, if_true] at this
      exact absurd this h.1.2
    | cons e' m' =>
      obtain ⟨b, y⟩ := e'
      simp only [Memory.wfFrom, Bool.and_eq_true, decide_eq_true_eq, bne_iff_ne, ne_eq] at h'
      have hab : a = b := by
        rcases Nat.lt_trichotomy a b with hlt | heq | hgt
        · have := hr a
          rw [Memory.read_pair, if_pos rfl, Memory.read_pair, if_neg (by omega),
            Memory.read_of_wfFrom h'.2 (by omega)] at this
          exact absurd this h.1.2
        · exact heq
        · have := hr b
          rw [Memory.read_pair, if_neg (by omega), Memory.read_of_wfFrom h.2 (by omega), Memory.read_pair,
            if_pos rfl] at this
          exact absurd this.symm h'.1.2
      subst hab
      have hxy : x = y := by simpa [Memory.read_pair] using hr a
      subst hxy
      refine congrArg _ (ih h.2 h'.2 fun i => ?_)
      by_cases hai : i = a
      · subst hai
        rw [Memory.read_of_wfFrom h.2 (by omega), Memory.read_of_wfFrom h'.2 (by omega)]
      · simpa [Memory.read_pair, Ne.symm hai] using hr i

/-- The memories of the machine at power-on are canonical. -/
theorem reset_memories_wf :
    State.reset.table.key.wf = true ∧ State.reset.table.count.wf = true ∧ State.reset.table.fidx.wf = true ∧
      State.reset.table.pool.wf = true ∧ State.reset.model.dist.wf = true := ⟨rfl, rfl, rfl, rfl, rfl⟩

end Sys2Proof.Machine
end

