-- ==== Sys2Proof/Laws/Table.lean ====
section
/-! SUPPORT. The cuckoo_hash_table: what each operation leaves alone, that each keeps the canonical form of the memories,
and what insertion does to a consistent table, kicks included. -/

namespace Sys2Proof.Machine

variable {t : Table} {hs : HashSel} {k : Key}

/-! ## Sizes and memories -/

/-- The four memories of the table are canonical. -/
def Table.Wf (t : Table) : Prop := t.key.wf = true ∧ t.count.wf = true ∧ t.fidx.wf = true ∧ t.pool.wf = true

/-- From `t` to `u` the sizes are the same. -/
def Table.SameSize (t u : Table) : Prop := u.n = t.n ∧ u.m = t.m

theorem Table.SameSize.refl (t : Table) : t.SameSize t := ⟨rfl, rfl⟩

theorem Table.SameSize.trans {t u v : Table} (h : t.SameSize u) (g : u.SameSize v) : t.SameSize v :=
  ⟨g.1.trans h.1, g.2.trans h.2⟩

theorem Table.SameSize.hash {u : Table} (h : t.SameSize u) (hs : HashSel) (k : Key) :
    u.h1 hs k = t.h1 hs k ∧ u.h2 hs k = t.h2 hs k := by
  unfold Table.h1 Table.h2; rw [h.1]; exact ⟨rfl, rfl⟩

theorem Table.h1_lt (h : 0 < t.n.toNat) : t.h1 hs k < t.n.toNat := Nat.mod_lt _ h

theorem Table.h2_lt (h : 0 < t.n.toNat) : t.h2 hs k < t.n.toNat := Nat.mod_lt _ h

theorem Table.wf_writeSlot (h : t.Wf) (pos : Nat) (e : Entry) : (t.writeSlot pos e).Wf :=
  ⟨Memory.wf_write h.1 _ _, Memory.wf_write h.2.1 _ _, Memory.wf_write h.2.2.1 _ _, h.2.2.2⟩

/-- Writing a slot makes that slot read as the entry and leaves the others. -/
theorem Table.readSlot_writeSlot (h : t.Wf) (pos i : Nat) (e : Entry) :
    (t.writeSlot pos e).readSlot i = if i = pos then e else t.readSlot i := by
  simp only [Table.readSlot, Table.writeSlot, Memory.read_write h.1, Memory.read_write h.2.1,
    Memory.read_write h.2.2.1]
  split <;> rfl

theorem Table.kick_sizes (fuel : Nat) (cur : Entry) (pos : Nat) (t : Table) :
    t.SameSize (Table.kick hs fuel cur pos t).1 ∧ (Table.kick hs fuel cur pos t).1.nextFree = t.nextFree ∧
      (Table.kick hs fuel cur pos t).1.pool = t.pool ∧
      ((Table.kick hs fuel cur pos t).2 = true → (Table.kick hs fuel cur pos t).1.isFull = t.isFull) ∧
      ((Table.kick hs fuel cur pos t).2 = false → (Table.kick hs fuel cur pos t).1.isFull = true) := by
  induction fuel generalizing cur pos t with
  | zero => exact ⟨⟨rfl, rfl⟩, rfl, rfl, by simp [Table.kick], fun _ => rfl⟩
  | succ fuel ih =>
    unfold Table.kick
    split
    · exact ⟨⟨rfl, rfl⟩, rfl, rfl, fun _ => rfl, by simp⟩
    · exact ih _ _ _

theorem Table.kick_wf (h : t.Wf) (fuel : Nat) (cur : Entry) (pos : Nat) : (Table.kick hs fuel cur pos t).1.Wf := by
  induction fuel generalizing cur pos t with
  | zero => exact h
  | succ fuel ih =>
    unfold Table.kick
    split
    · exact Table.wf_writeSlot h _ _
    · exact ih (Table.wf_writeSlot h _ _) _ _

/-- What insert can do (40_table.md R131): nothing while the table is full or the key is present; S.is_full when the pool has
run out; else the kick loop from h1 with the next pool index. -/
theorem Table.insert_cases (t : Table) (hs : HashSel) (k : Key) :
    (t.isFull = true ∧ t.insert hs k = (t, false)) ∨
    (t.isFull = false ∧ t.contains hs k = true ∧ t.insert hs k = (t, true)) ∨
    (t.isFull = false ∧ t.contains hs k = false ∧ t.m.toNat ≤ t.nextFree.toNat ∧
      t.insert hs k = ({ t with isFull := true }, false)) ∨
    (t.isFull = false ∧ t.contains hs k = false ∧ t.nextFree.toNat < t.m.toNat ∧
      t.insert hs k = Table.kick hs maxKicks { key := k, count := 0#16, fidx := t.nextFree } (t.h1 hs k)
        { t with nextFree := t.nextFree + 1#32 }) := by
  unfold Table.insert
  cases t.isFull
  · cases t.contains hs k
    · by_cases hm : t.m ≤ t.nextFree
      · rw [if_pos hm]; rw [BitVec.le_def] at hm; simp [hm]
      · rw [if_neg hm]; rw [BitVec.le_def] at hm; simp; omega
    · simp
  · simp

theorem Table.insert_sizes (t : Table) (hs : HashSel) (k : Key) :
    t.SameSize (t.insert hs k).1 ∧ (t.insert hs k).1.pool = t.pool ∧
      ((t.insert hs k).2 = true → (t.insert hs k).1.isFull = t.isFull) ∧
      ((t.insert hs k).2 = false → (t.insert hs k).1.isFull = true) := by
  rcases t.insert_cases hs k with ⟨h, e⟩ | ⟨h, -, e⟩ | ⟨-, -, -, e⟩ | ⟨h, -, -, e⟩ <;> rw [e]
  · exact ⟨.refl t, rfl, fun _ => rfl, fun _ => h⟩
  · exact ⟨.refl t, rfl, fun _ => rfl, by simp⟩
  · exact ⟨⟨rfl, rfl⟩, rfl, by simp, fun _ => rfl⟩
  · obtain ⟨a, -, b, c⟩ := Table.kick_sizes (hs := hs) maxKicks { key := k, count := 0#16, fidx := t.nextFree }
      (t.h1 hs k) { t with nextFree := t.nextFree + 1#32 }
    exact ⟨a, b, c⟩

theorem Table.insert_wf (h : t.Wf) (hs : HashSel) (k : Key) : (t.insert hs k).1.Wf := by
  rcases t.insert_cases hs k with ⟨-, e⟩ | ⟨-, -, e⟩ | ⟨-, -, -, e⟩ | ⟨-, -, -, e⟩ <;> rw [e]
  · exact h
  · exact h
  · exact h
  · exact Table.kick_wf (t := { t with nextFree := t.nextFree + 1#32 }) h _ _ _

/-! ## seen, rescale and reset -/

/-- markParent writes one bitmap of the pool, or nothing (40_table.md R134). -/
theorem Table.markParent_cases (t : Table) (hs : HashSel) (k : Key) :
    ((k = root ∨ ∀ p, t.slotOf hs (parentKey k) = some p → t.fidx.read p = 0#32) ∧ t.markParent hs k = t) ∨
    ∃ p, k ≠ root ∧ t.slotOf hs (parentKey k) = some p ∧ t.fidx.read p ≠ 0#32 ∧
      t.markParent hs k = { t with
        pool := t.pool.write (t.fidx.read p).toNat
                  (setBit (t.pool.read (t.fidx.read p).toNat) (trailingByte k)) } := by
  unfold Table.markParent
  by_cases hk : k = root
  · simp [hk]
  · rw [if_neg hk]
    cases hp : t.slotOf hs (parentKey k) with
    | none => simp
    | some p => by_cases hf : t.fidx.read p = 0#32 <;> simp [hf, hk]

/-- seen of a present key: only its count and the pool change (40_table.md R134). -/
theorem Table.seenPresent_some {i : Nat} (h : t.slotOf hs k = some i) :
    t.seenPresent hs k =
      (Table.markParent { t with count := t.count.write i (bumpCount (t.count.read i)) } hs k, true) := by
  simp [Table.seenPresent, h]

theorem Table.seenPresent_frame (t : Table) (hs : HashSel) (k : Key) :
    (t.seenPresent hs k).1 =
      { t with count := (t.seenPresent hs k).1.count, pool := (t.seenPresent hs k).1.pool } := by
  cases h : t.slotOf hs k with
  | none => simp [Table.seenPresent, h]
  | some i =>
    rw [Table.seenPresent_some h]
    rcases Table.markParent_cases { t with count := t.count.write i (bumpCount (t.count.read i)) } hs k with
      ⟨-, e⟩ | ⟨p, -, -, -, e⟩ <;> rw [e]

theorem Table.seenPresent_wf (h : t.Wf) (hs : HashSel) (k : Key) : (t.seenPresent hs k).1.Wf := by
  cases hsl : t.slotOf hs k with
  | none => simpa [Table.seenPresent, hsl] using h
  | some i =>
    rw [Table.seenPresent_some hsl]
    rcases Table.markParent_cases { t with count := t.count.write i (bumpCount (t.count.read i)) } hs k with
      ⟨-, e⟩ | ⟨p, -, -, -, e⟩ <;> rw [e]
    · exact ⟨h.1, Memory.wf_write h.2.1 _ _, h.2.2.1, h.2.2.2⟩
    · exact ⟨h.1, Memory.wf_write h.2.1 _ _, h.2.2.1, Memory.wf_write h.2.2.2 _ _⟩

/-- What seen can do (40_table.md R134). -/
theorem Table.seen_cases (t : Table) (hs : HashSel) (k : Key) :
    (t.contains hs k = true ∧ t.seen hs k = t.seenPresent hs k) ∨
    (t.contains hs k = false ∧ (t.insert hs k).2 = true ∧ t.seen hs k = (t.insert hs k).1.seenPresent hs k) ∨
    (t.contains hs k = false ∧ (t.insert hs k).2 = false ∧ t.seen hs k = t.insert hs k) := by
  unfold Table.seen
  cases t.contains hs k
  · rcases hi : t.insert hs k with ⟨t', b⟩
    cases b <;> simp
  · simp

theorem Table.seen_sizes (t : Table) (hs : HashSel) (k : Key) : t.SameSize (t.seen hs k).1 := by
  rcases t.seen_cases hs k with ⟨-, e⟩ | ⟨-, -, e⟩ | ⟨-, -, e⟩ <;> rw [e]
  · rw [Table.seenPresent_frame]; exact ⟨rfl, rfl⟩
  · rw [Table.seenPresent_frame]; exact (t.insert_sizes hs k).1
  · exact (t.insert_sizes hs k).1

theorem Table.seen_wf (h : t.Wf) (hs : HashSel) (k : Key) : (t.seen hs k).1.Wf := by
  rcases t.seen_cases hs k with ⟨-, e⟩ | ⟨-, -, e⟩ | ⟨-, -, e⟩ <;> rw [e]
  · exact Table.seenPresent_wf h hs k
  · exact Table.seenPresent_wf (Table.insert_wf h hs k) hs k
  · exact Table.insert_wf h hs k

/-- rescale halves the count of every occupied slot below N (40_table.md R135). -/
theorem Table.rescale_count (h : t.count.wf = true) (i : Nat) :
    (t.rescale.count.read i) = if i < t.n.toNat ∧ t.key.read i ≠ 0#64 then t.count.read i >>> 1 else t.count.read i := by
  unfold Table.rescale
  rw [Memory.read_mapElements h]
  intro i; split <;> simp

theorem Table.rescale_wf (h : t.Wf) : t.rescale.Wf := ⟨h.1, Memory.wf_mapElements h.2.1 _, h.2.2.1, h.2.2.2⟩

theorem Table.cleared_wf (h : t.Wf) : t.cleared.Wf :=
  ⟨Memory.wf_clearBelow h.1 _, Memory.wf_clearBelow h.2.1 _, Memory.wf_clearBelow h.2.2.1 _,
    Memory.wf_clearBelow h.2.2.2 _⟩

theorem Table.reset_wf (h : t.Wf) (hs : HashSel) : (t.reset hs).Wf := Table.seen_wf (Table.cleared_wf h) hs root

theorem Table.reset_sizes (t : Table) (hs : HashSel) : t.SameSize (t.reset hs) :=
  Table.SameSize.trans (u := t.cleared) ⟨rfl, rfl⟩ (Table.seen_sizes _ hs root)

/-! ## Lookup -/

/-- Where a key is found (40_table.md R128). -/
theorem Table.slotOf_some {i : Nat} (h : t.slotOf hs k = some i) :
    t.key.read i = k ∧ (i = t.h1 hs k ∨ i = t.h2 hs k) := by
  unfold Table.slotOf at h
  split at h
  · cases h; exact ⟨by assumption, .inl rfl⟩
  · split at h
    · cases h; exact ⟨by assumption, .inr rfl⟩
    · cases h

theorem Table.slotOf_none :
    t.slotOf hs k = none ↔ t.key.read (t.h1 hs k) ≠ k ∧ t.key.read (t.h2 hs k) ≠ k := by
  unfold Table.slotOf
  split_ifs <;> simp [*]

theorem Table.contains_eq_true : t.contains hs k = true ↔ ∃ i, t.slotOf hs k = some i := by
  rw [Table.contains, Option.isSome_iff_exists]

theorem Table.contains_eq_false : t.contains hs k = false ↔ t.slotOf hs k = none := by
  rw [Table.contains, Option.isSome_eq_false_iff, Option.isNone_iff_eq_none]

/-- In a consistent table a key is found at the one slot that holds it (40_table.md R138, I1 and P3). -/
theorem Table.slotOf_of_consistent (h : t.Consistent hs) (hk : k ≠ 0#64) {i : Nat} :
    t.slotOf hs k = some i ↔ i < t.n.toNat ∧ t.key.read i = k := by
  obtain ⟨hn, -, -, hplace, huniq, -⟩ := h
  constructor
  · intro hi
    obtain ⟨h1, h2⟩ := Table.slotOf_some hi
    refine ⟨?_, h1⟩
    rcases h2 with rfl | rfl
    exacts [Table.h1_lt hn, Table.h2_lt hn]
  · rintro ⟨hi, rfl⟩
    cases hs' : t.slotOf hs (t.key.read i) with
    | none =>
      have := Table.slotOf_none.1 hs'
      rcases hplace i hi hk with e | e
      · rw [← e] at this; exact absurd rfl this.1
      · rw [← e] at this; exact absurd rfl this.2
    | some j =>
      obtain ⟨h1, h2⟩ := Table.slotOf_some hs'
      have hj : j < t.n.toNat := by
        rcases h2 with rfl | rfl
        exacts [Table.h1_lt hn, Table.h2_lt hn]
      rw [huniq i hi j hj hk h1.symm]

/-! ## Insertion into a consistent table -/

/-- Some slot of the table holds the entry. -/
def Table.Holds (t : Table) (e : Entry) : Prop := e.key ≠ 0#64 ∧ ∃ i < t.n.toNat, t.readSlot i = e

/-- The kick loop may run: the table is consistent, and the entry carried is a new one, on its way to one of its slots. -/
structure Table.Carrying (t : Table) (hs : HashSel) (cur : Entry) (pos : Nat) : Prop where
  wf : t.Wf
  consistent : t.Consistent hs
  nonzero : cur.key ≠ 0#64
  slot : pos = t.h1 hs cur.key ∨ pos = t.h2 hs cur.key
  absent : ∀ i < t.n.toNat, t.key.read i ≠ cur.key
  index : 1 ≤ cur.fidx.toNat ∧ cur.fidx.toNat < t.nextFree.toNat
  fresh : ∀ i < t.n.toNat, t.key.read i ≠ 0#64 → t.fidx.read i ≠ cur.fidx

theorem Table.Carrying.pos_lt {cur : Entry} {pos : Nat} (h : t.Carrying hs cur pos) : pos < t.n.toNat := by
  rcases h.slot with e | e <;> rw [e]
  exacts [Table.h1_lt h.consistent.1, Table.h2_lt h.consistent.1]

/-- Writing the carried entry into its slot keeps the table consistent. -/
theorem Table.Carrying.write {cur : Entry} {pos : Nat} (h : t.Carrying hs cur pos) :
    (t.writeSlot pos cur).Consistent hs := by
  obtain ⟨hwf, ⟨hn, h1, h2, hplace, huniq, hempty, hidx, hidxu⟩, hnz, hslot, habs, hix, hfresh⟩ := h
  have hk : ∀ i, (t.writeSlot pos cur).key.read i = if i = pos then cur.key else t.key.read i :=
    fun i => Memory.read_write hwf.1 _ _ _
  have hc : ∀ i, (t.writeSlot pos cur).count.read i = if i = pos then cur.count else t.count.read i :=
    fun i => Memory.read_write hwf.2.1 _ _ _
  have hf : ∀ i, (t.writeSlot pos cur).fidx.read i = if i = pos then cur.fidx else t.fidx.read i :=
    fun i => Memory.read_write hwf.2.2.1 _ _ _
  refine ⟨hn, h1, h2, ?_, ?_, ?_, ?_, ?_⟩
  · intro i hi
    rw [hk]; split
    · rename_i e; intro _; rw [e]; exact hslot
    · exact hplace i hi
  · intro i hi j hj
    rw [hk, hk]
    by_cases ei : i = pos <;> by_cases ej : j = pos <;> simp only [ei, ej, if_true, if_false]
    · exact fun _ _ => trivial
    · exact fun _ e => absurd e.symm (habs j hj)
    · exact fun _ e => absurd e (habs i hi)
    · exact huniq i hi j hj
  · intro i hi
    rw [hk, hc, hf]; split
    · exact fun e => absurd e hnz
    · exact hempty i hi
  · intro i hi
    rw [hk, hf]; split
    · exact fun _ => hix
    · exact hidx i hi
  · intro i hi j hj
    rw [hk, hk, hf, hf]
    by_cases ei : i = pos <;> by_cases ej : j = pos <;> simp only [ei, ej, if_true, if_false]
    · exact fun _ _ _ => trivial
    · exact fun _ hz e => absurd e.symm (hfresh j hj hz)
    · exact fun hz _ e => absurd e (hfresh i hi hz)
    · exact hidxu i hi j hj

/-- What writing the carried entry does to the entries held: the displaced one is gone, the carried one is in. -/
theorem Table.Carrying.holds {cur : Entry} {pos : Nat} (h : t.Carrying hs cur pos) (e : Entry) :
    (t.writeSlot pos cur).Holds e ↔ (t.Holds e ∧ e ≠ t.readSlot pos) ∨ e = cur := by
  have hpos := h.pos_lt
  unfold Table.Holds
  constructor
  · rintro ⟨hz, i, hi, he⟩
    rw [Table.readSlot_writeSlot h.wf] at he
    split at he
    · exact .inr he.symm
    · rename_i hne
      refine .inl ⟨⟨hz, i, hi, he⟩, fun hp => hne ?_⟩
      have hki : t.key.read i = t.key.read pos := by
        have := he.trans hp; exact congrArg Entry.key this
      have hkz : t.key.read i ≠ 0#64 := by rw [← he] at hz; exact hz
      exact h.consistent.2.2.2.2.1 i hi pos hpos hkz hki
  · rintro (⟨⟨hz, i, hi, he⟩, hne⟩ | rfl)
    · refine ⟨hz, i, hi, ?_⟩
      rw [Table.readSlot_writeSlot h.wf, if_neg, he]
      rintro rfl; exact hne he.symm
    · exact ⟨h.nonzero, pos, hpos, by rw [Table.readSlot_writeSlot h.wf, if_pos rfl]⟩

/-- A displaced entry is carried on to its other slot. -/
theorem Table.Carrying.next {cur : Entry} {pos : Nat} (h : t.Carrying hs cur pos) (hz : t.key.read pos ≠ 0#64) :
    (t.writeSlot pos cur).Carrying hs (t.readSlot pos) (t.otherSlot hs (t.key.read pos) pos) := by
  have hpos := h.pos_lt
  have hk : ∀ i, (t.writeSlot pos cur).key.read i = if i = pos then cur.key else t.key.read i :=
    fun i => Memory.read_write h.wf.1 _ _ _
  have hf : ∀ i, (t.writeSlot pos cur).fidx.read i = if i = pos then cur.fidx else t.fidx.read i :=
    fun i => Memory.read_write h.wf.2.2.1 _ _ _
  refine ⟨Table.wf_writeSlot h.wf _ _, h.write, hz, ?_, ?_, ?_, ?_⟩
  · change t.otherSlot hs (t.key.read pos) pos = t.h1 hs (t.key.read pos) ∨
      t.otherSlot hs (t.key.read pos) pos = t.h2 hs (t.key.read pos)
    unfold Table.otherSlot; split
    · exact .inr rfl
    · exact .inl rfl
  · intro i hi
    rw [hk]; split
    · exact fun e => h.absent pos hpos e.symm
    · rename_i hne
      exact fun e => hne (h.consistent.2.2.2.2.1 i hi pos hpos (by rw [e]; exact hz) e)
  · exact h.consistent.2.2.2.2.2.2.1 pos hpos hz
  · intro i hi
    rw [hk, hf]; split
    · exact fun _ e => h.fresh pos hpos hz e.symm
    · rename_i hne
      exact fun hzi e => hne (h.consistent.2.2.2.2.2.2.2 i hi pos hpos hzi hz e)

/-- Entries of the table and the entry carried that share a key are one entry. -/
theorem Table.Carrying.key_inj {cur : Entry} {pos : Nat} (h : t.Carrying hs cur pos) {d e : Entry}
    (hd : t.Holds d ∨ d = cur) (he : t.Holds e ∨ e = cur) (hk : e.key = d.key) : e = d := by
  rcases hd with ⟨hdz, i, hi, rfl⟩ | rfl <;> rcases he with ⟨hez, j, hj, rfl⟩ | rfl
  · rw [h.consistent.2.2.2.2.1 j hj i hi hez hk]
  · exact absurd hk.symm (h.absent i hi)
  · exact absurd hk (h.absent j hj)
  · rfl

/-- What the kick loop does to a consistent table (40_table.md R131, R132, R138): it stays consistent; on success it holds
what it held and the carried entry, wherever the kicks moved them; on failure it holds all of these but one. -/
theorem Table.kick_spec (fuel : Nat) {cur : Entry} {pos : Nat} (h : t.Carrying hs cur pos) :
    (Table.kick hs fuel cur pos t).1.Consistent hs ∧
      ((Table.kick hs fuel cur pos t).2 = true →
        ∀ e, (Table.kick hs fuel cur pos t).1.Holds e ↔ t.Holds e ∨ e = cur) ∧
      ((Table.kick hs fuel cur pos t).2 = false →
        ∃ d, (t.Holds d ∨ d = cur) ∧
          ∀ e, (Table.kick hs fuel cur pos t).1.Holds e ↔ (t.Holds e ∨ e = cur) ∧ e ≠ d) := by
  induction fuel generalizing cur pos t with
  | zero =>
    refine ⟨h.consistent, by simp [Table.kick], fun _ => ⟨cur, .inr rfl, fun e => ⟨fun he => ⟨.inl he, ?_⟩, ?_⟩⟩⟩
    · rintro rfl
      obtain ⟨-, i, hi, he⟩ := he
      exact h.absent i hi (congrArg Entry.key he)
    · exact fun ⟨he, hne⟩ => he.resolve_right hne
  | succ fuel ih =>
    unfold Table.kick
    split
    · rename_i hz
      have hh : ∀ e, (t.writeSlot pos cur).Holds e ↔ t.Holds e ∨ e = cur := by
        intro e
        rw [h.holds]
        have : t.Holds e → e ≠ t.readSlot pos := fun he hp => he.1 (by rw [hp]; exact hz)
        tauto
      exact ⟨h.write, fun _ => hh, by simp⟩
    · rename_i hz
      obtain ⟨a, b, c⟩ := ih (h.next hz)
      have hh : ∀ e, ((t.writeSlot pos cur).Holds e ∨ e = t.readSlot pos) ↔ t.Holds e ∨ e = cur := by
        intro e
        rw [h.holds]
        have : e = t.readSlot pos → t.Holds e := fun he => he ▸ ⟨hz, pos, h.pos_lt, rfl⟩
        tauto
      refine ⟨a, fun hr e => (b hr e).trans (hh e), fun hr => ?_⟩
      obtain ⟨d, hd, hall⟩ := c hr
      exact ⟨d, (hh d).1 hd, fun e => by rw [hall, hh]⟩

/-- The entry insert makes for a key that is absent (40_table.md R131). -/
abbrev Table.newEntry (t : Table) (k : Key) : Entry := { key := k, count := 0#16, fidx := t.nextFree }

/-- The kick loop of insert starts from a consistent table with a fresh entry. -/
theorem Table.Carrying.start (hwf : t.Wf) (h : t.Consistent hs) (hk : k ≠ 0#64) (hc : t.contains hs k = false)
    (hm : t.nextFree.toNat < t.m.toNat) :
    Table.Carrying { t with nextFree := t.nextFree + 1#32 } hs (t.newEntry k) (t.h1 hs k) := by
  have hnf : (t.nextFree + 1#32).toNat = t.nextFree.toNat + 1 := by
    rw [BitVec.toNat_add]; exact Nat.mod_eq_of_lt (by have := t.m.isLt; simp; omega)
  obtain ⟨hn, h1, h2, hplace, huniq, hempty, hidx, hidxu⟩ := h
  refine ⟨hwf, ⟨hn, by rw [hnf]; omega, by rw [hnf]; exact hm, hplace, huniq, hempty, ?_, hidxu⟩, hk, .inl rfl, ?_,
    ⟨h1, by rw [hnf]; exact Nat.lt_succ_self _⟩, ?_⟩
  · intro i hi hz
    obtain ⟨a, b⟩ := hidx i hi hz
    exact ⟨a, by rw [hnf]; exact Nat.lt_succ_of_lt b⟩
  · intro i hi hki
    have hi' := Table.slotOf_none.1 (Table.contains_eq_false.1 hc)
    have hki : t.key.read i = k := hki
    rcases hplace i hi (by rw [hki]; exact hk) with e | e <;> rw [hki] at e <;> rw [← e] at hi'
    · exact hi'.1 hki
    · exact hi'.2 hki
  · intro i hi hz e
    have := (hidx i hi hz).2
    rw [show t.fidx.read i = t.nextFree from e] at this
    omega

/-- What insert does to a consistent table. -/
theorem Table.insert_spec (hwf : t.Wf) (h : t.Consistent hs) (hk : k ≠ 0#64) :
    (t.insert hs k).1.Consistent hs ∧
      ((t.insert hs k).2 = true → ∀ e, (t.insert hs k).1.Holds e ↔
        t.Holds e ∨ (t.contains hs k = false ∧ e = t.newEntry k)) ∧
      (∀ e, (t.insert hs k).1.Holds e → t.Holds e ∨ e = t.newEntry k) := by
  rcases t.insert_cases hs k with ⟨-, e⟩ | ⟨-, hc, e⟩ | ⟨-, -, -, e⟩ | ⟨-, hc, hm, e⟩ <;> rw [e]
  · exact ⟨h, by simp, fun e he => .inl he⟩
  · exact ⟨h, by simp [hc], fun e he => .inl he⟩
  · exact ⟨h, by simp, fun e he => .inl he⟩
  · obtain ⟨a, b, c⟩ := Table.kick_spec maxKicks (Table.Carrying.start hwf h hk hc hm)
    refine ⟨a, fun hr e => (b hr e).trans ?_, fun e he => ?_⟩
    · simp [hc]; rfl
    · cases hr : (Table.kick hs maxKicks (t.newEntry k) (t.h1 hs k) { t with nextFree := t.nextFree + 1#32 }).2 with
      | true => exact (b hr e).1 he
      | false =>
        obtain ⟨d, -, hall⟩ := c hr
        exact ((hall e).1 he).1

/-- What a kick loop that fails leaves of a consistent table: every entry, the new one among them, but one (40_table.md
R132). -/
theorem Table.insert_failed (hwf : t.Wf) (h : t.Consistent hs) (hk : k ≠ 0#64) (hf : t.isFull = false)
    (hm : t.nextFree.toNat < t.m.toNat) (hr : (t.insert hs k).2 = false) :
    t.contains hs k = false ∧ (t.insert hs k).1.nextFree = t.nextFree + 1#32 ∧
      ∃ d, (t.Holds d ∨ d = t.newEntry k) ∧
        (∀ e, (t.insert hs k).1.Holds e ↔ (t.Holds e ∨ e = t.newEntry k) ∧ e ≠ d) ∧
        ∀ e, (t.insert hs k).1.Holds e → e.key ≠ d.key := by
  rcases t.insert_cases hs k with ⟨he, -⟩ | ⟨-, -, e⟩ | ⟨-, -, he, -⟩ | ⟨-, hc, -, e⟩
  · rw [hf] at he; cases he
  · rw [e] at hr; cases hr
  · omega
  · have hcar := Table.Carrying.start hwf h hk hc hm
    rw [e] at hr ⊢
    obtain ⟨d, hd, hall⟩ := (Table.kick_spec maxKicks hcar).2.2 hr
    refine ⟨hc, (Table.kick_sizes _ _ _ _).2.1, d, hd, hall, fun e he hke => ?_⟩
    obtain ⟨h1, h2⟩ := (hall e).1 he
    exact h2 (hcar.key_inj hd h1 hke)

/-- In a consistent table the count and index of a key are those of the entry that holds it. -/
theorem Table.entryOf_of_holds (h : t.Consistent hs) {e : Entry} (he : t.Holds e) :
    t.entryOf hs e.key = some (e.count, e.fidx) := by
  obtain ⟨hz, i, hi, rfl⟩ := he
  rw [Table.entryOf, (Table.slotOf_of_consistent h hz).2 ⟨hi, rfl⟩]; rfl

/-- A key is absent from a consistent table when no entry holds it. -/
theorem Table.entryOf_eq_none (h : t.Consistent hs) (hk : k ≠ 0#64) (hn : ∀ e, t.Holds e → e.key ≠ k) :
    t.entryOf hs k = none := by
  rw [Table.entryOf, Option.map_eq_none_iff]
  cases hs' : t.slotOf hs k with
  | none => rfl
  | some i =>
    obtain ⟨hi, hki⟩ := (Table.slotOf_of_consistent h hk).1 hs'
    exact absurd hki (hn (t.readSlot i) ⟨by change t.key.read i ≠ 0#64; rw [hki]; exact hk, i, hi, rfl⟩)

/-- A consistent table after insert answers true contains the key. -/
theorem Table.insert_contains (hwf : t.Wf) (h : t.Consistent hs) (hk : k ≠ 0#64) (hr : (t.insert hs k).2 = true) :
    (t.insert hs k).1.contains hs k = true := by
  obtain ⟨hc, hh, -⟩ := Table.insert_spec hwf h hk
  cases hcon : t.contains hs k with
  | true =>
    rcases t.insert_cases hs k with ⟨-, e⟩ | ⟨-, -, e⟩ | ⟨-, he, -⟩ | ⟨-, he, -⟩
    · rw [e] at hr; cases hr
    · rw [e]; exact hcon
    · rw [hcon] at he; cases he
    · rw [hcon] at he; cases he
  | false =>
    obtain ⟨-, i, hi, he⟩ := (hh hr _).2 (.inr ⟨hcon, rfl⟩)
    rw [Table.contains_eq_true]
    exact ⟨i, (Table.slotOf_of_consistent hc hk).2 ⟨hi, congrArg Entry.key he⟩⟩

/-! ## The other operations on a consistent table -/

/-- Changing counts of occupied slots, and the pool, keeps a table consistent. -/
theorem Table.Consistent.counts (h : t.Consistent hs) (count : Memory 16) (pool : Memory 256)
    (hc : ∀ i < t.n.toNat, t.key.read i = 0#64 → count.read i = t.count.read i) :
    Table.Consistent { t with count := count, pool := pool } hs := by
  obtain ⟨hn, h1, h2, hplace, huniq, hempty, hidx, hidxu⟩ := h
  exact ⟨hn, h1, h2, hplace, huniq, fun i hi hz => ⟨(hc i hi hz).trans (hempty i hi hz).1, (hempty i hi hz).2⟩, hidx,
    hidxu⟩

theorem Table.seenPresent_consistent (h : t.Consistent hs) (hk : k ≠ 0#64) :
    (t.seenPresent hs k).1.Consistent hs := by
  rw [Table.seenPresent_frame]
  refine h.counts _ _ fun i hi hz => ?_
  cases hsl : t.slotOf hs k with
  | none => simp [Table.seenPresent, hsl]
  | some j =>
    have hne : i ≠ j := by
      rintro rfl; exact hk ((Table.slotOf_some hsl).1.symm.trans hz)
    rw [Table.seenPresent_some hsl]
    rcases Table.markParent_cases { t with count := t.count.write j (bumpCount (t.count.read j)) } hs k with
      ⟨-, e⟩ | ⟨p, -, -, -, e⟩ <;> rw [e] <;> exact Memory.read_write_of_ne _ _ hne

/-- seen keeps a table consistent. -/
theorem Table.seen_consistent (hwf : t.Wf) (h : t.Consistent hs) (hk : k ≠ 0#64) : (t.seen hs k).1.Consistent hs := by
  rcases t.seen_cases hs k with ⟨-, e⟩ | ⟨-, -, e⟩ | ⟨-, -, e⟩ <;> rw [e]
  · exact Table.seenPresent_consistent h hk
  · exact Table.seenPresent_consistent (Table.insert_spec hwf h hk).1 hk
  · exact (Table.insert_spec hwf h hk).1

/-- rescale keeps a table consistent. -/
theorem Table.rescale_consistent (hwf : t.Wf) (h : t.Consistent hs) : t.rescale.Consistent hs :=
  h.counts t.rescale.count t.pool fun i _ hz => by rw [Table.rescale_count hwf.2.1, if_neg (by simp [hz])]

/-- A write below `n` into a memory cleared below `n`. -/
theorem Memory.write_clearBelow {w : Nat} (m : Memory w) {i n : Nat} (h : i < n) (v : BitVec w) :
    (m.clearBelow n).write i v = Memory.cons i v (m.clearBelow n) := by
  have hge : ∀ e ∈ m.clearBelow n, n ≤ e.1 := fun e he => by
    simpa using (List.mem_filter.1 he).2
  cases hm : m.clearBelow n with
  | nil => rfl
  | cons e rest =>
    obtain ⟨a, x⟩ := e
    have := hge (a, x) (by rw [hm]; exact List.mem_cons_self)
    dsimp only at this
    rw [Memory.write, if_neg (by omega), if_neg (by omega)]

/-- The table reset leaves (40_table.md R137): the root alone, in slot h1(root), with count 1 and index 1. -/
theorem Table.reset_eq (hn : 0 < t.n.toNat) (hm : 1 < t.m.toNat) :
    t.reset hs = { t with
      key := Memory.cons (t.h1 hs root) root (t.key.clearBelow t.n.toNat)
      count := Memory.cons (t.h1 hs root) 1#16 (t.count.clearBelow t.n.toNat)
      fidx := Memory.cons (t.h1 hs root) 1#32 (t.fidx.clearBelow t.n.toNat)
      pool := t.pool.clearBelow t.m.toNat, nextFree := 2#32, isFull := false } := by
  have h1lt : t.h1 hs root < t.n.toNat := Table.h1_lt hn
  have hread : ∀ i < t.n.toNat, t.cleared.key.read i = 0#64 := fun i hi => by
    rw [Table.cleared, Memory.read_clearBelow, if_pos hi]
  have hnone : t.cleared.slotOf hs root = none := by
    rw [Table.slotOf_none]
    exact ⟨by rw [hread (t.cleared.h1 hs root) h1lt]; decide,
      by rw [hread (t.cleared.h2 hs root) (Table.h2_lt hn)]; decide⟩
  have hcon : t.cleared.contains hs root = false := Table.contains_eq_false.2 hnone
  have hins : t.cleared.insert hs root = (Table.writeSlot { t.cleared with nextFree := 1#32 + 1#32 } (t.h1 hs root)
      { key := root, count := 0#16, fidx := 1#32 }, true) := by
    rcases t.cleared.insert_cases hs root with ⟨h, -⟩ | ⟨-, h, -⟩ | ⟨-, -, h, -⟩ | ⟨-, -, -, h⟩
    · cases h
    · rw [hcon] at h; cases h
    · exact absurd h (by change ¬ t.m.toNat ≤ 1; omega)
    · rw [h]
      unfold Table.kick
      exact if_pos (hread _ h1lt)
  have hw := fun {w : Nat} (m : Memory w) (v : BitVec w) => Memory.write_clearBelow m h1lt v
  have hzero : Memory.cons (t.h1 hs root) 0#16 (t.count.clearBelow t.n.toNat) = t.count.clearBelow t.n.toNat := rfl
  unfold Table.reset
  rcases t.cleared.seen_cases hs root with ⟨h, -⟩ | ⟨-, -, e⟩ | ⟨-, h, -⟩
  · rw [hcon] at h; cases h
  · rw [e, hins]
    have hslot : Table.slotOf (Table.writeSlot { t.cleared with nextFree := 1#32 + 1#32 } (t.h1 hs root)
        { key := root, count := 0#16, fidx := 1#32 }) hs root = some (t.h1 hs root) := by
      unfold Table.slotOf
      refine if_pos ?_
      change ((t.key.clearBelow t.n.toNat).write (t.h1 hs root) root).read (t.h1 hs root) = root
      rw [hw, Memory.read_cons _ _ _ _ (by rw [Memory.read_clearBelow, if_pos h1lt]), if_pos rfl]
    rw [Table.seenPresent_some hslot, Table.markParent, if_pos rfl]
    simp only [Table.writeSlot, Table.cleared, hw, hzero, Memory.read_clearBelow, if_pos h1lt]
    rfl
  · rw [hins] at h; cases h

/-- The slots of the table reset leaves. -/
theorem Table.reset_read (hn : 0 < t.n.toNat) (hm : 1 < t.m.toNat) (i : Nat) :
    ((t.reset hs).key.read i = if i = t.h1 hs root then root else if i < t.n.toNat then 0#64 else t.key.read i) ∧
    ((t.reset hs).count.read i = if i = t.h1 hs root then 1#16 else if i < t.n.toNat then 0#16 else t.count.read i) ∧
    ((t.reset hs).fidx.read i = if i = t.h1 hs root then 1#32 else if i < t.n.toNat then 0#32 else t.fidx.read i) ∧
    ((t.reset hs).pool.read i = if i < t.m.toNat then 0#256 else t.pool.read i) := by
  have h1lt : t.h1 hs root < t.n.toNat := Table.h1_lt hn
  rw [Table.reset_eq hn hm]
  refine ⟨?_, ?_, ?_, Memory.read_clearBelow _ _ _⟩ <;>
    rw [Memory.read_cons _ _ _ _ (by rw [Memory.read_clearBelow, if_pos h1lt]), Memory.read_clearBelow]

/-- reset leaves a consistent table, whatever it held before. -/
theorem Table.reset_consistent (hn : 0 < t.n.toNat) (hm : 1 < t.m.toNat) : (t.reset hs).Consistent hs := by
  have hr := fun i => Table.reset_read (hs := hs) hn hm i
  have hkey : ∀ i < t.n.toNat, (t.reset hs).key.read i ≠ 0#64 → i = t.h1 hs root := by
    intro i hi hz
    by_contra hne
    exact hz (by rw [(hr i).1, if_neg hne, if_pos hi])
  obtain ⟨e1, e2⟩ := Table.reset_sizes t hs
  obtain ⟨hh1, -⟩ := (Table.reset_sizes t hs).hash hs root
  have hnf : (t.reset hs).nextFree = 2#32 := by rw [Table.reset_eq hn hm]
  unfold Table.Consistent
  rw [e1, e2, hnf]
  refine ⟨hn, by decide, by change 2 ≤ t.m.toNat; omega, ?_, ?_, ?_, ?_, ?_⟩
  · intro i hi hz
    have := hkey i hi hz
    rw [(hr i).1, if_pos this, hh1]; exact .inl this
  · intro i hi j hj hz he
    rw [hkey i hi hz, hkey j hj (he ▸ hz)]
  · intro i hi hz
    have hne : i ≠ t.h1 hs root := by
      rintro rfl; rw [(hr _).1, if_pos rfl] at hz; exact absurd hz (by decide)
    rw [(hr i).2.1, (hr i).2.2.1, if_neg hne, if_neg hne, if_pos hi, if_pos hi]; exact ⟨rfl, rfl⟩
  · intro i hi hz
    rw [(hr i).2.2.1, if_pos (hkey i hi hz)]; decide
  · intro i hi j hj hz hz' _
    rw [hkey i hi hz, hkey j hj hz']

end Sys2Proof.Machine
end

