-- ==== Sys2Proof/Laws/Control.lean ====
section
/-! SUPPORT. What an INIT that passes its checks makes each field read, and the sizes a legal configuration gives. -/

namespace Sys2Proof.Machine

section Configure

variable (s : State) (o : BitVec 4) (b : BitVec 12) (boot adapt : BitVec 8)

@[simp] theorem State.configure_result : (s.configure o b boot adapt).result = 0#64 := rfl
@[simp] theorem State.configure_cfg : (s.configure o b boot adapt).cfg = true := rfl
@[simp] theorem State.configure_fault : (s.configure o b boot adapt).fault = false := rfl
@[simp] theorem State.configure_fcode : (s.configure o b boot adapt).fcode = 0#4 := rfl
@[simp] theorem State.configure_config : (s.configure o b boot adapt).config = configWord o b boot adapt := rfl
@[simp] theorem State.configure_table :
    (s.configure o b boot adapt).table =
      s.table.afterInit s.build.hashSel b := rfl
@[simp] theorem State.configure_model :
    (s.configure o b boot adapt).model =
      s.model.afterInit (windowSize o boot) (adaptThreshold adapt) (boot != 0#8) := rfl
@[simp] theorem State.configure_enc : (s.configure o b boot adapt).enc = Encoder.afterInit := rfl
@[simp] theorem State.configure_dec : (s.configure o b boot adapt).dec = Decoder.afterInit := rfl
@[simp] theorem State.configure_bits : (s.configure o b boot adapt).bits = BitIO.afterInit := rfl
@[simp] theorem State.configure_build : (s.configure o b boot adapt).build = s.build := rfl
@[simp] theorem State.configure_port : (s.configure o b boot adapt).port = s.port := rfl
@[simp] theorem State.configure_input : (s.configure o b boot adapt).input = s.input := rfl
@[simp] theorem State.configure_output : (s.configure o b boot adapt).output = s.output := rfl
@[simp] theorem State.configure_draws : (s.configure o b boot adapt).draws = s.draws := rfl

end Configure

/-- The ranges a legal configuration's fields lie in (00_scope.md R7). -/
theorem configLegal_iff {o : BitVec 4} {b : BitVec 12} {adapt : BitVec 8} :
    configLegal o b adapt = true ↔
      1 ≤ o.toNat ∧ o.toNat ≤ 6 ∧ 8 ≤ b.toNat ∧ b.toNat ≤ 2048 ∧ adapt.toNat ≤ 32 := by
  simp only [configLegal, Bool.and_eq_true, decide_eq_true_eq]; tauto

/-- N fits its register, and the pool has more than one bitmap (00_scope.md R8). -/
theorem tableSlots_spec {o : BitVec 4} {b : BitVec 12} {adapt : BitVec 8} (h : configLegal o b adapt = true) :
    (BitVec.ofNat 32 (tableSlots b)).toNat = tableSlots b ∧ (BitVec.ofNat 32 (poolSize b)).toNat = poolSize b ∧
      279620 ≤ tableSlots b ∧ 139810 ≤ poolSize b := by
  obtain ⟨-, -, h1, h2, -⟩ := configLegal_iff.1 h
  have hle : tableSlots b ≤ 71582788 := by
    unfold tableSlots; omega
  have hge : 279620 ≤ tableSlots b := by
    unfold tableSlots; omega
  unfold poolSize
  refine ⟨?_, ?_, hge, by omega⟩ <;> rw [BitVec.toNat_ofNat] <;> exact Nat.mod_eq_of_lt (by omega)

/-- H fits its register and is not 0 (00_scope.md R8). -/
theorem windowSize_spec {o : BitVec 4} {b : BitVec 12} {adapt : BitVec 8} (h : configLegal o b adapt = true)
    (boot : BitVec 8) :
    (BitVec.ofNat 18 (windowSize o boot)).toNat = windowSize o boot ∧ 0 < windowSize o boot := by
  obtain ⟨h1, h2, -⟩ := configLegal_iff.1 h
  have hb := boot.isLt
  unfold windowSize
  split
  · exact ⟨by rw [BitVec.toNat_ofNat]; exact Nat.mod_eq_of_lt (by omega), by omega⟩
  · rename_i hne
    have : boot.toNat ≠ 0 := fun h0 => hne (BitVec.eq_of_toNat_eq (by simpa using h0))
    exact ⟨by rw [BitVec.toNat_ofNat]; exact Nat.mod_eq_of_lt (by omega), by omega⟩

/-- The adaptation threshold fits its register (44_control.md R283). -/
theorem adaptThreshold_spec {o : BitVec 4} {b : BitVec 12} {adapt : BitVec 8} (h : configLegal o b adapt = true) :
    (BitVec.ofNat 33 (adaptThreshold adapt)).toNat = adaptThreshold adapt := by
  obtain ⟨-, -, -, -, h5⟩ := configLegal_iff.1 h
  rw [BitVec.toNat_ofNat]
  refine Nat.mod_eq_of_lt ?_
  unfold adaptThreshold
  split
  · omega
  · have : 2 ^ adapt.toNat ≤ 2 ^ 32 := Nat.pow_le_pow_right (by omega) h5
    omega

/-- The order a configuration word holds is the field it was built from (10_state.md R24). -/
theorem configWord_order (o : BitVec 4) (b : BitVec 12) (boot adapt : BitVec 8) :
    (configWord o b boot adapt).extractLsb' 28 4 = o := by
  unfold configWord
  refine BitVec.eq_of_getLsbD_eq fun i hi => ?_
  rw [BitVec.getLsbD_extractLsb', decide_eq_true hi, Bool.true_and, BitVec.getLsbD_append, if_neg (by omega),
    BitVec.getLsbD_append, if_neg (by omega)]
  congr 1; omega

/-- The table after INIT is consistent, whatever it held before. -/
theorem afterInit_consistent {o : BitVec 4} {b : BitVec 12} {adapt : BitVec 8} (h : configLegal o b adapt = true)
    (t : Table) (hs : HashSel) : (t.afterInit hs b).Consistent hs := by
  obtain ⟨e1, e2, h1, h2⟩ := tableSlots_spec h
  unfold Table.afterInit
  exact Table.reset_consistent (by dsimp only; omega) (by dsimp only; omega)

theorem afterInit_wf {t : Table} (h : t.Wf) (hs : HashSel) (b : BitVec 12) : (t.afterInit hs b).Wf := by
  unfold Table.afterInit
  refine Table.reset_wf ?_ hs
  exact ⟨h.1, h.2.1, h.2.2.1, h.2.2.2⟩

theorem afterInit_sizes (t : Table) (hs : HashSel) (b : BitVec 12) :
    (t.afterInit hs b).n = BitVec.ofNat 32 (tableSlots b) ∧ (t.afterInit hs b).m = BitVec.ofNat 32 (poolSize b) := by
  unfold Table.afterInit
  exact Table.reset_sizes _ hs

/-- INIT leaves the derived parameters of the configuration it was given. -/
theorem configure_configOk {s : State} {o : BitVec 4} {b : BitVec 12} {boot adapt : BitVec 8}
    (legal : configLegal o b adapt = true) (fits : b.toNat ≤ s.build.memMaxMib) :
    (s.configure o b boot adapt).ConfigOk := by
  obtain ⟨e1, e2, -⟩ := tableSlots_spec legal
  obtain ⟨f1, f2⟩ := afterInit_sizes s.table s.build.hashSel b
  refine ⟨o, b, boot, adapt, legal, fits, rfl, ?_, ?_, (windowSize_spec legal boot).1, adaptThreshold_spec legal⟩
  · rw [State.configure_table, f1, e1]
  · rw [State.configure_table, f2, e2]

/-- INIT leaves a consistent table and no visited key. -/
theorem configure_tableConsistent {s : State} (h : s.MemoryWf) {o : BitVec 4} {b : BitVec 12} {boot adapt : BitVec 8}
    (legal : configLegal o b adapt = true) (fits : b.toNat ≤ s.build.memMaxMib) :
    (s.configure o b boot adapt).TableConsistent := by
  obtain ⟨h1, h2, h3, h4, h5⟩ := h
  obtain ⟨g1, g2, g3, g4⟩ := afterInit_wf (t := s.table) ⟨h1, h2, h3, h4⟩ s.build.hashSel b
  exact ⟨⟨g1, g2, g3, g4, Memory.wf_clearBelow h5 _⟩, fun _ =>
    ⟨configure_configOk legal fits, afterInit_consistent legal _ _, fun _ hk => absurd hk List.not_mem_nil⟩⟩

end Sys2Proof.Machine
end

