-- ==== Sys2Proof/Laws/Decode.lean ====
section
/-! SUPPORT. The fields of an encoded first word, and the length of what the decoder accepts. -/

namespace Sys2Proof

theorem getLsbD_firstWord (op : BitVec 8) (low : BitVec 24) (i : Nat) :
    (firstWord op low).getLsbD i = if i < 24 then low.getLsbD i else op.getLsbD (i - 24) :=
  BitVec.getLsbD_append

@[simp] theorem opcode_firstWord (op : BitVec 8) (low : BitVec 24) : opcode (firstWord op low) = op := by
  ext i hi
  rw [opcode, BitVec.getElem_extractLsb', getLsbD_firstWord, if_neg (by omega), Nat.add_sub_cancel_left,
    BitVec.getLsbD_eq_getElem hi]

@[simp] theorem low_firstWord (op : BitVec 8) (low : BitVec 24) : (firstWord op low).extractLsb' 0 24 = low := by
  ext i hi
  rw [BitVec.getElem_extractLsb', getLsbD_firstWord, Nat.zero_add, if_pos hi, BitVec.getLsbD_eq_getElem hi]

/-- A first word is its opcode and the 24 bits below it. -/
theorem firstWord_opcode (w0 : Word) : firstWord (opcode w0) (w0.extractLsb' 0 24) = w0 := by
  refine BitVec.eq_of_getLsbD_eq fun i hi => ?_
  rw [getLsbD_firstWord]
  split
  · simp [*]
  · simp only [opcode, BitVec.getLsbD_extractLsb', show i - 24 < 8 by omega, decide_true, Bool.true_and,
      show 24 + (i - 24) = i by omega]

theorem commandLength_le (op : BitVec 8) : 1 ≤ commandLength op ∧ commandLength op ≤ 3 := by
  unfold commandLength; split <;> omega

/-- A list the decoder accepts is not empty. -/
theorem decode_ne_nil {ws : List Word} {i : Instr} (h : decode ws = .ok i) : ws ≠ [] := by
  rintro rfl; cases h

/-- A list the decoder accepts has the length its opcode calls for (30_encoding.md R91). -/
theorem decode_length {w0 : Word} {ext : List Word} {i : Instr} (h : decode (w0 :: ext) = .ok i) :
    (w0 :: ext).length = commandLength (opcode w0) := by
  match ext with
  | [] =>
    simp only [decode] at h
    split at h
    · simp [*]
    · cases h
  | [w1] =>
    simp only [decode, decodeTwo] at h
    split at h
    · simp [commandLength, *]
    · cases h
  | [w1, w2] =>
    simp only [decode, decodeThree] at h
    split at h <;> first | cases h | simp [commandLength, *]
  | _ :: _ :: _ :: _ => cases h

end Sys2Proof
end

