-- ==== Sys2Proof/Laws/Modeller.lean ====
section
/-! SUPPORT. The ppm_modeller: what a scan and an order -1 fill leave in the distribution array, that every distribution can
be searched, and what update and its parts leave alone. -/

namespace Sys2Proof.Machine

/-! ## The scan of a present context -/

/-- The sum of the stretched frequencies of the selected bytes below `c`. -/
def weight (sel : Nat → Bool) (freq : Nat → Nat) (c : Nat) : Nat :=
  (((List.range c).filter sel).map fun b => 2 * freq b - 1).sum

theorem weight_succ (sel : Nat → Bool) (freq : Nat → Nat) (c : Nat) :
    weight sel freq (c + 1) = weight sel freq c + if sel c then 2 * freq c - 1 else 0 := by
  unfold weight
  rw [List.range_succ, List.filter_append, List.map_append, List.sum_append]
  cases h : sel c <;> simp [h]

theorem weight_mono (sel : Nat → Bool) (freq : Nat → Nat) {b c : Nat} (h : b ≤ c) :
    weight sel freq b ≤ weight sel freq c := by
  induction c, h using Nat.le_induction with
  | base => exact le_refl _
  | succ c _ ih => rw [weight_succ]; omega

theorem weight_le (sel : Nat → Bool) {freq : Nat → Nat} (hf : ∀ c, freq c ≤ 65535) (c : Nat) :
    weight sel freq c ≤ 131069 * c := by
  induction c with
  | zero => simp [weight]
  | succ c ih => rw [weight_succ]; have := hf c; split <;> omega

theorem filter_length_le (sel : Nat → Bool) (c : Nat) : ((List.range c).filter sel).length ≤ c := by
  have := List.length_filter_le sel (List.range c); simpa using this

theorem filter_length_succ (sel : Nat → Bool) (c : Nat) :
    ((List.range (c + 1)).filter sel).length = ((List.range c).filter sel).length + if sel c then 1 else 0 := by
  rw [List.range_succ, List.filter_append, List.length_append]
  cases h : sel c <;> simp [h]

theorem getLsbD_setBit (v : Bitmap) {c : Nat} (hc : c < 256) (i : Nat) :
    (setBit v c).getLsbD i = (v.getLsbD i || decide (i = c)) := by
  unfold setBit
  rw [BitVec.getLsbD_or, show (1#256 <<< c) = BitVec.twoPow 256 c from (BitVec.twoPow_eq 256 c).symm,
    BitVec.getLsbD_twoPow]
  simp [hc, eq_comm]

theorem getLsbD_clearBit (v : Bitmap) {c : Nat} (hc : c < 256) (i : Nat) :
    (clearBit v c).getLsbD i = (v.getLsbD i && !decide (i = c)) := by
  unfold clearBit
  rw [BitVec.getLsbD_and, BitVec.getLsbD_not, show (1#256 <<< c) = BitVec.twoPow 256 c from (BitVec.twoPow_eq 256 c).symm,
    BitVec.getLsbD_twoPow]
  by_cases hi : i < 256
  · simp [hc, hi, eq_comm]
  · simp [BitVec.getLsbD_of_ge v i (by omega)]

/-- The bytes a scan gives an interval. -/
def selected (fv : Bitmap) (freq : Nat → Nat) (c : Nat) : Bool := fv.getLsbD c && decide (0 < freq c)

/-- The entries of the array that a scan of the bytes below `n` has written. -/
def written (sel : Nat → Bool) (n i : Nat) : Bool :=
  (decide (i < n) && sel i) || (decide (0 < i) && decide (i ≤ n) && sel (i - 1))

/-- What step 5 has done after the bytes below `n` (41_modeller.md R182). -/
theorem scan_prefix (fv : Bitmap) (freq : Nat → Nat) (acc : Scan) (hw : acc.dist.wf = true) (hr : acc.run = 0)
    (hn0 : acc.n = 0) (n : Nat) (hn : n ≤ 256) :
    let r := (List.range n).foldl (scanByte fv freq) acc
    let sel := selected fv freq
    r.dist.wf = true ∧ r.run = weight sel freq n ∧ r.n = ((List.range n).filter sel).length ∧
      (∀ c, r.dchk.getLsbD c = (acc.dchk.getLsbD c || (decide (c < n) && sel c))) ∧
      (∀ c, r.excl.getLsbD c = (acc.excl.getLsbD c && !(decide (c < n) && sel c))) ∧
      (∀ i, r.dist.read i = if written sel n i then BitVec.ofNat 32 (weight sel freq i) else acc.dist.read i) := by
  induction n with
  | zero =>
    refine ⟨hw, hr, by simp [hn0], by simp, by simp, fun i => ?_⟩
    have : written (selected fv freq) 0 i = false := by
      simp only [written]
      cases i <;> simp
    simp [this]
  | succ n ih =>
    obtain ⟨h1, h2, h3, h4, h5, h6⟩ := ih (by omega)
    dsimp only at h1 h2 h3 h4 h5 h6 ⊢
    rw [List.range_succ, List.foldl_append, List.foldl_cons, List.foldl_nil]
    generalize (List.range n).foldl (scanByte fv freq) acc = a at h1 h2 h3 h4 h5 h6
    rw [← List.range_succ]
    cases hs : selected fv freq n with
    | false =>
      have hno : ¬ (fv.getLsbD n = true ∧ 0 < freq n) := by
        simpa [selected] using hs
      rw [scanByte, if_neg hno]
      refine ⟨h1, by rw [h2, weight_succ, hs]; simp, by rw [h3, filter_length_succ, hs]; simp, fun c => ?_, fun c => ?_,
        fun i => ?_⟩
      · rw [h4]; by_cases hc : c = n
        · subst hc; simp [hs]
        · simp [show c < n + 1 ↔ c < n by omega]
      · rw [h5]; by_cases hc : c = n
        · subst hc; simp [hs]
        · simp [show c < n + 1 ↔ c < n by omega]
      · rw [h6]
        have : written (selected fv freq) (n + 1) i = written (selected fv freq) n i := by
          simp only [written]
          by_cases h : i = n
          · subst h; simp [hs]
          · by_cases h' : i = n + 1
            · subst h'; simp [hs]
            · simp [show i < n + 1 ↔ i < n by omega, show i ≤ n + 1 ↔ i ≤ n by omega]
        rw [this]
    | true =>
      have hyes : fv.getLsbD n = true ∧ 0 < freq n := by simpa [selected] using hs
      rw [scanByte, if_pos hyes]
      have hrun : a.run + 2 * freq n - 1 = weight (selected fv freq) freq (n + 1) := by
        rw [weight_succ, hs, h2]; simp; omega
      refine ⟨Memory.wf_write (Memory.wf_write h1 _ _) _ _, hrun, by rw [filter_length_succ, hs, ← h3]; rfl,
        fun c => ?_, fun c => ?_, fun i => ?_⟩
      · dsimp only
        rw [getLsbD_setBit _ (by omega), h4]
        by_cases hc : c = n
        · subst hc; simp [hs]
        · simp [show c < n + 1 ↔ c < n by omega, hc]
      · dsimp only
        rw [getLsbD_clearBit _ (by omega), h5]
        by_cases hc : c = n
        · subst hc; simp [hs]
        · simp [show c < n + 1 ↔ c < n by omega, hc]
      · dsimp only
        rw [Memory.read_write (Memory.wf_write h1 _ _), Memory.read_write h1, h6, hrun, h2]
        by_cases h' : i = n + 1
        · subst h'; simp [written, hs]
        · by_cases h : i = n
          · subst h; simp [written, hs]
          · simp [written, h, h', show i < n + 1 ↔ i < n by omega, show i ≤ n + 1 ↔ i ≤ n by omega]

/-- What step 5 leaves (41_modeller.md R182). -/
theorem scanBytes_spec (fv : Bitmap) (freq : Nat → Nat) {acc : Scan} (hw : acc.dist.wf = true) (hr : acc.run = 0)
    (hn0 : acc.n = 0) :
    (scanBytes fv freq acc).dist.wf = true ∧ (scanBytes fv freq acc).run = weight (selected fv freq) freq 256 ∧
      (scanBytes fv freq acc).n = ((List.range 256).filter (selected fv freq)).length ∧
      (∀ c, (scanBytes fv freq acc).dchk.getLsbD c =
        (acc.dchk.getLsbD c || (decide (c < 256) && selected fv freq c))) ∧
      (∀ c, (scanBytes fv freq acc).excl.getLsbD c =
        (acc.excl.getLsbD c && !(decide (c < 256) && selected fv freq c))) ∧
      (∀ i, (scanBytes fv freq acc).dist.read i = if written (selected fv freq) 256 i
        then BitVec.ofNat 32 (weight (selected fv freq) freq i) else acc.dist.read i) := by
  unfold scanBytes
  exact scan_prefix fv freq acc hw hr hn0 256 (le_refl _)

/-! ## The order -1 fill -/

theorem openBelow_succ (excl : Bitmap) (c : Nat) :
    openBelow excl (c + 1) = openBelow excl c + if excl.getLsbD c then 1 else 0 := filter_length_succ _ c

theorem openBelow_mono (excl : Bitmap) {b c : Nat} (h : b ≤ c) : openBelow excl b ≤ openBelow excl c := by
  induction c, h using Nat.le_induction with
  | base => exact le_refl _
  | succ c _ ih => rw [openBelow_succ]; omega

theorem openBelow_le (excl : Bitmap) (c : Nat) : openBelow excl c ≤ c := filter_length_le _ c

/-- What the order -1 fill has done after the bytes below `n` (41_modeller.md R187). -/
theorem fallback_prefix (excl : Bitmap) (dist : Memory 32) (hw : dist.wf = true) (n : Nat) :
    let r := (List.range n).foldl (fallbackByte excl) (dist.write 0 0#32, 0)
    r.1.wf = true ∧ r.2 = openBelow excl n ∧
      (∀ i, r.1.read i = if i ≤ n then BitVec.ofNat 32 (openBelow excl i) else dist.read i) := by
  induction n with
  | zero =>
    refine ⟨Memory.wf_write hw _ _, rfl, fun i => ?_⟩
    simp only [List.range_zero, List.foldl_nil, Memory.read_write hw, Nat.le_zero]
    split
    · subst_vars; rfl
    · rfl
  | succ n ih =>
    obtain ⟨h1, h2, h3⟩ := ih
    dsimp only at h1 h2 h3 ⊢
    rw [List.range_succ, List.foldl_append, List.foldl_cons, List.foldl_nil]
    generalize (List.range n).foldl (fallbackByte excl) (dist.write 0 0#32, 0) = a at h1 h2 h3
    have hrun : (if excl.getLsbD n then a.2 + 1 else a.2) = openBelow excl (n + 1) := by
      rw [openBelow_succ, h2]; split <;> rfl
    refine ⟨Memory.wf_write h1 _ _, hrun, fun i => ?_⟩
    simp only [fallbackByte, Memory.read_write h1, hrun, h3]
    by_cases h : i = n + 1
    · subst h; simp
    · simp [h, show i ≤ n + 1 ↔ i ≤ n by omega]

/-- What the order -1 fill leaves (41_modeller.md R187). -/
theorem fallbackBytes_spec (excl : Bitmap) {dist : Memory 32} (hw : dist.wf = true) :
    (fallbackBytes excl dist).1.wf = true ∧ (fallbackBytes excl dist).2 = openBelow excl 256 ∧
      (∀ i, (fallbackBytes excl dist).1.read i =
        if i ≤ 256 then BitVec.ofNat 32 (openBelow excl i) else dist.read i) := by
  unfold fallbackBytes
  exact fallback_prefix excl dist hw 256

/-! ## Searching a distribution -/

/-- A search that has a candidate answers the first one. -/
theorem search_of_candidate {m : Modeller} {f c : Nat} (hc : c < 257) (h : m.answers f c = true) :
    ∃ c', m.search f = some c' ∧ c' ≤ c ∧ m.answers f c' = true ∧ ∀ b < c', m.answers f b = false := by
  unfold Modeller.search
  cases hfind : (List.range 257).find? (m.answers f) with
  | none => exact absurd h (by have := List.find?_eq_none.1 hfind c (List.mem_range.2 hc); simpa using this)
  | some c' =>
    obtain ⟨h1, -, h3⟩ := List.find?_range_eq_some.1 hfind
    have hb : ∀ b < c', m.answers f b = false := fun b hb => by simpa using h3 b hb
    refine ⟨c', rfl, ?_, h1, hb⟩
    by_contra hlt
    rw [hb c (by omega)] at h; cases h

theorem search_of_none {m : Modeller} {f : Nat} (h : ∀ c < 257, m.answers f c = false) :
    m.search f = if m.distAt 257 ≤ f then some eosSym else none := by
  unfold Modeller.search
  have : (List.range 257).find? (m.answers f) = none := by
    rw [List.find?_eq_none]
    intro c hc; simp [h c (List.mem_range.1 hc)]
  rw [this]

/-- A distribution in which each candidate byte starts where the candidates before it end, ESCAPE takes the rest and EOS
has nothing can be searched: every distribution of an order from 0 up. -/
theorem decodable_of_escape {m : Modeller}
    (hstart : ∀ c < 256, m.dchk.getLsbD c = true → m.distAt c = 0 ∨ ∃ b < c, m.dchk.getLsbD b = true ∧ m.distAt c = m.distAt (b + 1))
    (hend : ∀ c < 256, m.dchk.getLsbD c = true → m.distAt (c + 1) ≤ m.distAt 258)
    (hesc : m.distAt 256 = 0 ∨ ∃ b < 256, m.dchk.getLsbD b = true ∧ m.distAt 256 = m.distAt (b + 1))
    (htot : m.distAt 257 = m.distAt 258) : m.Decodable := by
  intro f hf
  have hans : m.answers f 256 = true := by simp [Modeller.answers, escapeSym]; omega
  obtain ⟨c, hs, hc, ha, hb⟩ := search_of_candidate (by omega) hans
  have hlt : f < m.distAt (c + 1) := by
    simp only [Modeller.answers, Bool.and_eq_true, decide_eq_true_eq] at ha; exact ha.2
  have hbefore : ∀ b < c, m.dchk.getLsbD b = true → m.distAt (b + 1) ≤ f := by
    intro b hbc hd
    have := hb b hbc
    simp only [Modeller.answers, hd, Bool.or_true, Bool.true_and, decide_eq_false_iff_not] at this
    omega
  refine ⟨c, hs, by omega, ?_, hlt, ?_⟩
  · have key : m.distAt c = 0 ∨ ∃ b < c, m.dchk.getLsbD b = true ∧ m.distAt c = m.distAt (b + 1) := by
      rcases Nat.lt_or_ge c 256 with h | h
      · refine hstart c h ?_
        simp only [Modeller.answers, Bool.and_eq_true, Bool.or_eq_true, beq_iff_eq, escapeSym] at ha
        exact ha.1.resolve_left (by omega)
      · have : c = 256 := by omega
        rw [this]; exact hesc
    rcases key with h | ⟨b, hbc, hd, he⟩
    · omega
    · rw [he]; exact hbefore b hbc hd
  · rcases Nat.lt_or_ge c 256 with h | h
    · refine hend c h ?_
      simp only [Modeller.answers, Bool.and_eq_true, Bool.or_eq_true, beq_iff_eq, escapeSym] at ha
      exact ha.1.resolve_left (by omega)
    · have : c = 256 := by omega
      rw [this, htot]

/-! ## distribute -/

/-- What distribute can do after step 1 (41_modeller.md R181): order -1, a window too short, a present context, an absent
one. -/
theorem distribute_cases (m : Modeller) (t : Table) (hs : HashSel) (o : Nat) {ord : Int} (h : -1 ≤ ord) :
    let m1 := m.distStart (decide (ord = (o : Int)))
    (ord = -1 ∧ m.distribute t hs o ord = m1.distFallback) ∨
    (∃ n : Nat, ord = n ∧ m.win.length < n ∧ m.distribute t hs o ord = m1.distShort) ∨
    (∃ n : Nat, ord = n ∧ n ≤ m.win.length ∧ t.contains hs (m.windowKey n) = true ∧
      m.distribute t hs o ord = m1.distPresent t hs (m.windowKey n)) ∨
    ∃ n : Nat, ord = n ∧ n ≤ m.win.length ∧ t.contains hs (m.windowKey n) = false ∧
      m.distribute t hs o ord = m1.distAbsent (m.windowKey n) := by
  intro m1
  have hwin : m1.win = m.win := by
    change (m.distStart _).win = m.win
    unfold Modeller.distStart; split <;> rfl
  have hkey : ∀ n, m1.windowKey n = m.windowKey n := fun n => by unfold Modeller.windowKey; rw [hwin]
  unfold Modeller.distribute
  by_cases h1 : ord = -1
  · exact .inl ⟨h1, if_pos h1⟩
  · right
    obtain ⟨n, rfl⟩ := Int.eq_ofNat_of_zero_le (by omega : 0 ≤ ord)
    dsimp only
    rw [if_neg h1, Modeller.distOrder, Int.toNat_natCast]
    rcases Nat.lt_or_ge m.win.length n with hl | hl
    · exact .inl ⟨n, rfl, hl, if_pos (by rw [hwin]; exact hl)⟩
    · right
      rw [hwin, if_neg (by omega), hkey]
      cases hc : t.contains hs (m.windowKey n)
      · exact .inr ⟨n, rfl, hl, hc, by simp [m1]⟩
      · exact .inl ⟨n, rfl, hl, hc, by simp [m1]⟩

/-- Step 1 (41_modeller.md R181). -/
theorem distStart_eq (m : Modeller) (first : Bool) :
    m.distStart first = { m with
      dchk := 0#256
      dist := if first then m.dist.clearBelow distLen else m.dist
      excl := if first then BitVec.allOnes 256 else m.excl
      visit := if first then [] else m.visit } := by
  cases first <;> rfl

/-- What no distribute changes (41_modeller.md R181). -/
theorem distribute_frame (m : Modeller) (t : Table) (hs : HashSel) (o : Nat) {ord : Int} (h : -1 ≤ ord) :
    (m.distribute t hs o ord).h = m.h ∧ (m.distribute t hs o ord).adaptThr = m.adaptThr ∧
      (m.distribute t hs o ord).win = m.win ∧ (m.distribute t hs o ord).sumEsc = m.sumEsc ∧
      (m.distribute t hs o ord).bootEn = m.bootEn ∧ (m.distribute t hs o ord).satCount = m.satCount := by
  rcases distribute_cases m t hs o h with ⟨-, e⟩ | ⟨n, -, -, e⟩ | ⟨n, -, -, -, e⟩ | ⟨n, -, -, -, e⟩ <;>
    rw [e, distStart_eq] <;> exact ⟨rfl, rfl, rfl, rfl, rfl, rfl⟩

theorem escapeOnly_wf {d : Memory 32} (h : d.wf = true) : (escapeOnly d).wf = true :=
  Memory.wf_write (Memory.wf_write (Memory.wf_write h _ _) _ _) _ _

/-- distribute keeps the canonical form of the distribution array. -/
theorem distribute_wf {m : Modeller} (hw : m.dist.wf = true) (t : Table) (hs : HashSel) (o : Nat) {ord : Int}
    (h : -1 ≤ ord) : (m.distribute t hs o ord).dist.wf = true := by
  have hw1 : (m.distStart (decide (ord = (o : Int)))).dist.wf = true := by
    rw [distStart_eq]; dsimp only; split
    · exact Memory.wf_clearBelow hw _
    · exact hw
  rcases distribute_cases m t hs o h with ⟨-, e⟩ | ⟨n, -, -, e⟩ | ⟨n, -, -, -, e⟩ | ⟨n, -, -, -, e⟩ <;> rw [e]
  · simp only [Modeller.distFallback]
    exact Memory.wf_write (Memory.wf_write (fallbackBytes_spec _ hw1).1 _ _) _ _
  · exact escapeOnly_wf hw1
  · simp only [Modeller.distPresent, Modeller.push, Modeller.scan]
    exact Memory.wf_write (Memory.wf_write (Memory.wf_write (scanBytes_spec _ _ hw1 rfl rfl).1 _ _) _ _) _ _
  · exact escapeOnly_wf (Memory.wf_clearBelow hw1 _)

/-! ## update -/

/-- From `s` to `t` only the table, but for its sizes, and the modeller's rescale request, escape sum, bootstrap flag and
saturation count, and the draws, have changed; bootstrap is never switched on. -/
structure UpdateFrame (s t : State) : Prop where
  others : t = { s with table := t.table, model := t.model, draws := t.draws }
  sizes : s.table.SameSize t.table
  model : t.model = { s.model with outscale := t.model.outscale, sumEsc := t.model.sumEsc, bootEn := t.model.bootEn
                                   satCount := t.model.satCount }
  boot : t.model.bootEn = true → s.model.bootEn = true

theorem UpdateFrame.refl (s : State) : UpdateFrame s s := ⟨rfl, .refl _, rfl, id⟩

theorem UpdateFrame.trans {s t u : State} (h : UpdateFrame s t) (g : UpdateFrame t u) : UpdateFrame s u := by
  refine ⟨?_, h.sizes.trans g.sizes, ?_, fun hu => h.boot (g.boot hu)⟩
  · have h1 := h.others
    have g1 := g.others
    rw [h1] at g1; exact g1
  · have h1 := h.model
    have g1 := g.model
    rw [h1] at g1; exact g1

theorem UpdateFrame.setTable {s : State} {t : Table} (h : s.table.SameSize t) : UpdateFrame s (s.setTable t) :=
  ⟨rfl, h, rfl, id⟩

theorem adaptStep_frame (s : State) : UpdateFrame s s.adaptStep := by
  unfold State.adaptStep; dsimp only
  split_ifs <;> exact ⟨rfl, .refl _, rfl, id⟩

theorem checkCounts_frame (s : State) (c : Byte) : UpdateFrame s (s.checkCounts c) := by
  unfold State.checkCounts
  split_ifs <;> exact ⟨rfl, .refl _, rfl, id⟩

theorem serveRescale_frame (s : State) : UpdateFrame s s.serveRescale := by
  unfold State.serveRescale
  split_ifs
  exacts [⟨rfl, ⟨rfl, rfl⟩, rfl, id⟩, .refl s]

theorem visitKey_sizes (t : Table) (hs : HashSel) (c : Byte) (v : Key) : t.SameSize (t.visitKey hs c v).1 := by
  unfold Table.visitKey
  split
  · exact Table.seen_sizes _ _ _
  · rcases hi : t.insert hs v with ⟨t', b⟩
    have := (t.insert_sizes hs v).1
    rw [hi] at this
    cases b
    · exact this
    · exact this.trans (Table.seen_sizes _ _ _)

theorem visitAll_sizes (hs : HashSel) (c : Byte) (vs : List Key) (t : Table) :
    t.SameSize (Table.visitAll hs c vs t).1 := by
  induction vs generalizing t with
  | nil => exact .refl t
  | cons v vs ih =>
    unfold Table.visitAll
    rcases hv : t.visitKey hs c v with ⟨t', b⟩
    have := visitKey_sizes t hs c v
    rw [hv] at this
    cases b
    · exact this
    · exact this.trans (ih t')

theorem replay_sizes (hs : HashSel) (ks : List Key) (t : Table) : t.SameSize (Table.replay hs ks t).1 := by
  induction ks generalizing t with
  | nil => exact .refl t
  | cons k ks ih =>
    unfold Table.replay
    rcases hv : t.seen hs k with ⟨t', b⟩
    have := Table.seen_sizes t hs k
    rw [hv] at this
    cases b
    · exact this
    · exact this.trans (ih t')

theorem resetTable_frame (s : State) : UpdateFrame s s.resetTable := .setTable (Table.reset_sizes _ _)

theorem countSaturation_frame (s : State) : UpdateFrame s s.countSaturation := ⟨rfl, .refl _, rfl, id⟩

theorem bootstrapFailed_frame (s : State) : UpdateFrame s s.bootstrapFailed :=
  ((countSaturation_frame s).trans (resetTable_frame _)).trans ⟨rfl, .refl _, rfl, fun h => Bool.noConfusion h⟩

theorem bootstrap_frame (s : State) : UpdateFrame s s.bootstrap := by
  unfold State.bootstrap
  have := replay_sizes s.build.hashSel (replayKeys s.model.win s.order) s.table
  rcases h : Table.replay s.build.hashSel (replayKeys s.model.win s.order) s.table with ⟨t, b⟩
  rw [h] at this
  cases b
  · exact (UpdateFrame.setTable this).trans (bootstrapFailed_frame _)
  · exact .setTable this

theorem saturationInUpdate_frame (s : State) : UpdateFrame s s.saturationInUpdate := by
  have h := (countSaturation_frame s).trans (resetTable_frame _)
  unfold State.saturationInUpdate; dsimp only
  split
  · exact h.trans (bootstrap_frame _)
  · exact h

theorem countVisits_frame (s : State) (c : Byte) : UpdateFrame s (s.countVisits c) := by
  unfold State.countVisits
  have := visitAll_sizes s.build.hashSel c s.model.visit s.table
  rcases h : Table.visitAll s.build.hashSel c s.model.visit s.table with ⟨t, b⟩
  rw [h] at this
  cases b
  · exact (UpdateFrame.setTable this).trans (saturationInUpdate_frame _)
  · exact .setTable this

/-- Steps 1 to 4 of update (41_modeller.md R196). -/
theorem updateSteps_frame (s : State) (c : Byte) :
    UpdateFrame s ((((s.adaptStep).checkCounts c).serveRescale).countVisits c) :=
  (((adaptStep_frame s).trans (checkCounts_frame _ c)).trans (serveRescale_frame _)).trans (countVisits_frame _ c)

/-! ## Invariants of the table through update -/

theorem mkKey_ne_zero (n : Nat) (x : BitVec 56) : mkKey n x ≠ 0#64 := fun h => by
  have h63 : (mkKey n x).getLsbD 63 = true := by
    rw [mkKey, BitVec.getLsbD_append, if_neg (by omega), BitVec.getLsbD_or]; rfl
  rw [h] at h63; cases h63

/-- A property of tables that insertion and seen of the keys `Q`, rescale and reset keep holds of the table after update,
when every built key and every visited key is one of `Q`. -/
theorem update_table_induct {P : Table → Prop} {Q : Key → Prop} {s : State} {c : Byte} (hs : P s.table)
    (hins : ∀ t k, P t → Q k → P (t.insert s.build.hashSel k).1)
    (hseen : ∀ t k, P t → Q k → P (t.seen s.build.hashSel k).1)
    (hresc : ∀ t, P t → P t.rescale) (hreset : ∀ t, P t → P (t.reset s.build.hashSel))
    (mk0 : ∀ n x, Q (mkKey n x)) (hvisit : ∀ k ∈ s.model.visit, Q k) : P (s.update c).table := by
  have hv : ∀ t v, P t → Q v → P (t.visitKey s.build.hashSel c v).1 := by
    intro t v ht hv0
    unfold Table.visitKey
    split
    · exact hseen _ _ ht (mk0 _ _)
    · have := hins t v ht hv0
      rcases hi : t.insert s.build.hashSel v with ⟨t', b⟩
      rw [hi] at this
      cases b
      · exact this
      · exact hseen _ _ this (mk0 _ _)
  have hva : ∀ vs t, P t → (∀ k ∈ vs, Q k) → P (Table.visitAll s.build.hashSel c vs t).1 := by
    intro vs
    induction vs with
    | nil => exact fun t ht _ => ht
    | cons v vs ih =>
      intro t ht hvs
      unfold Table.visitAll
      have := hv t v ht (hvs v List.mem_cons_self)
      rcases hi : t.visitKey s.build.hashSel c v with ⟨t', b⟩
      rw [hi] at this
      cases b
      · exact this
      · exact ih t' this fun k hk => hvs k (List.mem_cons_of_mem _ hk)
  have hrep : ∀ ks t, P t → (∀ k ∈ ks, Q k) → P (Table.replay s.build.hashSel ks t).1 := by
    intro ks
    induction ks with
    | nil => exact fun t ht _ => ht
    | cons v vs ih =>
      intro t ht hvs
      unfold Table.replay
      have := hseen t v ht (hvs v List.mem_cons_self)
      rcases hi : t.seen s.build.hashSel v with ⟨t', b⟩
      rw [hi] at this
      cases b
      · exact this
      · exact ih t' this fun k hk => hvs k (List.mem_cons_of_mem _ hk)
  have hboot : ∀ u : State, u.build = s.build → P u.table → P u.bootstrap.table := by
    intro u hb hu
    unfold State.bootstrap
    rw [hb]
    have := hrep (replayKeys u.model.win u.order) u.table hu (by
      intro k hk
      simp only [replayKeys, passKeys, List.mem_flatMap, List.mem_map] at hk
      obtain ⟨_, -, _, -, rfl⟩ := hk
      exact mk0 _ _)
    rcases hi : Table.replay s.build.hashSel (replayKeys u.model.win u.order) u.table with ⟨t', b⟩
    rw [hi] at this
    cases b
    · change P (t'.reset u.build.hashSel); rw [hb]; exact hreset _ this
    · exact this
  have hf := ((adaptStep_frame s).trans (checkCounts_frame _ c)).trans (serveRescale_frame _)
  have h3 : P (((s.adaptStep).checkCounts c).serveRescale).table := by
    have e2 : ((s.adaptStep).checkCounts c).table = s.table := by
      unfold State.checkCounts State.adaptStep; dsimp only; split_ifs <;> rfl
    unfold State.serveRescale
    split
    · change P (((s.adaptStep).checkCounts c).table.rescale); rw [e2]; exact hresc _ hs
    · rw [e2]; exact hs
  change P (((((s.adaptStep).checkCounts c).serveRescale).countVisits c).table)
  generalize ((s.adaptStep).checkCounts c).serveRescale = u at hf h3
  have hb : u.build = s.build := by rw [hf.others]
  have hvis : u.model.visit = s.model.visit := by rw [hf.model]
  unfold State.countVisits
  rw [hb]
  have := hva u.model.visit u.table h3 (by rw [hvis]; exact hvisit)
  rcases hi : Table.visitAll s.build.hashSel c u.model.visit u.table with ⟨t', b⟩
  rw [hi] at this
  cases b
  · change P (State.saturationInUpdate (u.setTable t')).table
    unfold State.saturationInUpdate; dsimp only
    have hr : P (State.resetTable (State.countSaturation (u.setTable t'))).table := by
      change P (t'.reset u.build.hashSel); rw [hb]; exact hreset _ this
    split
    · exact hboot _ hb hr
    · exact hr
  · exact this

end Sys2Proof.Machine
end

