-- ==== Sys2Proof/Laws/PerInstr.lean ====
section
/-! SUPPORT. The family `Framing`, proved for each command: its words begin with its opcode and are as many as that opcode
calls for (30_encoding.md R90, R91). -/

namespace Sys2Proof.Laws.Framing

/-- The encoded words of a command are one whole command: as many as the opcode in the first calls for. -/
def Statement (i : Instr) : Prop :=
  ∃ w0 ext, encode i = w0 :: ext ∧ (encode i).length = commandLength (opcode w0)

theorem nop : Statement .nop :=
  ⟨_, _, rfl, by rw [opcode_firstWord]; rfl⟩

theorem init (o : BitVec 4) (b : BitVec 12) (boot : BitVec 8) (adapt : BitVec 8) : Statement (.init o b boot adapt) :=
  ⟨_, _, rfl, by rw [opcode_firstWord]; rfl⟩

theorem rdReg (sel : BitVec 24) : Statement (.rdReg sel) :=
  ⟨_, _, rfl, by rw [opcode_firstWord]; rfl⟩

theorem rdDist (idx : BitVec 24) : Statement (.rdDist idx) :=
  ⟨_, _, rfl, by rw [opcode_firstWord]; rfl⟩

theorem rdDchk (idx : BitVec 24) : Statement (.rdDchk idx) :=
  ⟨_, _, rfl, by rw [opcode_firstWord]; rfl⟩

theorem rdExcl (idx : BitVec 24) : Statement (.rdExcl idx) :=
  ⟨_, _, rfl, by rw [opcode_firstWord]; rfl⟩

theorem rdWin (idx : BitVec 24) : Statement (.rdWin idx) :=
  ⟨_, _, rfl, by rw [opcode_firstWord]; rfl⟩

theorem tblContains (key : Key) : Statement (.tblContains key) :=
  ⟨_, _, rfl, by rw [opcode_firstWord]; rfl⟩

theorem tblCount (key : Key) : Statement (.tblCount key) :=
  ⟨_, _, rfl, by rw [opcode_firstWord]; rfl⟩

theorem tblInsert (key : Key) : Statement (.tblInsert key) :=
  ⟨_, _, rfl, by rw [opcode_firstWord]; rfl⟩

theorem tblSeen (key : Key) : Statement (.tblSeen key) :=
  ⟨_, _, rfl, by rw [opcode_firstWord]; rfl⟩

theorem tblFollower (sel : BitVec 2) (key : Key) : Statement (.tblFollower sel key) :=
  ⟨_, _, rfl, by rw [opcode_firstWord]; rfl⟩

theorem tblRescale : Statement .tblRescale :=
  ⟨_, _, rfl, by rw [opcode_firstWord]; rfl⟩

theorem tblReset : Statement .tblReset :=
  ⟨_, _, rfl, by rw [opcode_firstWord]; rfl⟩

theorem tblFull : Statement .tblFull :=
  ⟨_, _, rfl, by rw [opcode_firstWord]; rfl⟩

theorem tblPeek (sel : BitVec 2) (slot : Reg) : Statement (.tblPeek sel slot) :=
  ⟨_, _, rfl, by rw [opcode_firstWord]; rfl⟩

theorem tblHash (sel : BitVec 2) (key : Key) : Statement (.tblHash sel key) :=
  ⟨_, _, rfl, by rw [opcode_firstWord]; rfl⟩

theorem mdlDist (ordf : BitVec 4) : Statement (.mdlDist ordf) :=
  ⟨_, _, rfl, by rw [opcode_firstWord]; rfl⟩

theorem mdlUpdate (sym : BitVec 9) : Statement (.mdlUpdate sym) :=
  ⟨_, _, rfl, by rw [opcode_firstWord]; rfl⟩

theorem encStart : Statement .encStart :=
  ⟨_, _, rfl, by rw [opcode_firstWord]; rfl⟩

theorem encSym (sym : BitVec 9) : Statement (.encSym sym) :=
  ⟨_, _, rfl, by rw [opcode_firstWord]; rfl⟩

theorem encFinish : Statement .encFinish :=
  ⟨_, _, rfl, by rw [opcode_firstWord]; rfl⟩

theorem decStart : Statement .decStart :=
  ⟨_, _, rfl, by rw [opcode_firstWord]; rfl⟩

theorem decSym : Statement .decSym :=
  ⟨_, _, rfl, by rw [opcode_firstWord]; rfl⟩

theorem decTrailer : Statement .decTrailer :=
  ⟨_, _, rfl, by rw [opcode_firstWord]; rfl⟩

theorem bitPut (sym : BitVec 9) : Statement (.bitPut sym) :=
  ⟨_, _, rfl, by rw [opcode_firstWord]; rfl⟩

theorem bitFlush : Statement .bitFlush :=
  ⟨_, _, rfl, by rw [opcode_firstWord]; rfl⟩

theorem bitGet : Statement .bitGet :=
  ⟨_, _, rfl, by rw [opcode_firstWord]; rfl⟩

theorem rawPut (sym : BitVec 9) : Statement (.rawPut sym) :=
  ⟨_, _, rfl, by rw [opcode_firstWord]; rfl⟩

theorem rawGet : Statement .rawGet :=
  ⟨_, _, rfl, by rw [opcode_firstWord]; rfl⟩

end Sys2Proof.Laws.Framing
end

