-- ==== Sys2Proof/Laws/Step.lean ====
section
/-! SUPPORT. What a command can do, said once: `exec_cases` for one command and `step_cases` for one step of the machine.
Later proofs about every step cite these and unfold no meaning. -/

namespace Sys2Proof.Machine

/-- The effect of a command that passes every check: the state it leaves, with what the checks established. -/
inductive Effect : Instr → State → State → Prop
  | init {s : State} {o b boot adapt} (legal : configLegal o b adapt = true) (fits : b.toNat ≤ s.build.memMaxMib) :
      Effect (.init o b boot adapt) s (s.configure o b boot adapt)
  | rdReg {s : State} {sel v} (h : s.register sel.toNat = some v) : Effect (.rdReg sel) s (s.setResult v)
  | rdDist {s : State} {idx} (h : idx.toNat ≤ 258) :
      Effect (.rdDist idx) s (s.setResult ((s.model.dist.read idx.toNat).setWidth 64))
  | rdDchk {s : State} {idx} (h : idx.toNat ≤ 3) :
      Effect (.rdDchk idx) s (s.setResult (bitmapWord s.model.dchk idx.toNat))
  | rdExcl {s : State} {idx} (h : idx.toNat ≤ 3) :
      Effect (.rdExcl idx) s (s.setResult (bitmapWord s.model.excl idx.toNat))
  | rdWin {s : State} {idx c} (h : s.model.win[idx.toNat]? = some c) :
      Effect (.rdWin idx) s (s.setResult (c.setWidth 64))
  | tblContains {s : State} {k} (h : legalKey k = true) :
      Effect (.tblContains k) s (s.setResult (flag64 (s.table.contains s.build.hashSel k)))
  | tblCount {s : State} {k} (h : legalKey k = true) :
      Effect (.tblCount k) s (s.setResult ((s.table.countOf s.build.hashSel k).setWidth 64))
  | tblInsert {s : State} {k} (h : legalKey k = true) :
      Effect (.tblInsert k) s ((s.setTable (s.table.insert s.build.hashSel k).1).setResult
        (flag64 (s.table.insert s.build.hashSel k).2))
  | tblSeen {s : State} {k} (h : legalKey k = true) :
      Effect (.tblSeen k) s ((s.setTable (s.table.seen s.build.hashSel k).1).setResult
        (flag64 (s.table.seen s.build.hashSel k).2))
  | tblFollower {s : State} {sel k} (h : legalKey k = true) :
      Effect (.tblFollower sel k) s
        (s.setResult (bitmapWord (s.table.followers s.build.hashSel k) sel.toNat))
  | tblRescale {s : State} : Effect .tblRescale s (s.setTable s.table.rescale)
  | tblReset {s : State} : Effect .tblReset s (s.setTable (s.table.reset s.build.hashSel))
  | tblFull {s : State} : Effect .tblFull s (s.setResult (flag64 s.table.isFull))
  | tblPeek {s : State} {sel slot} (hsel : peekSelLegal sel = true) (h : slot.toNat < s.table.n.toNat) :
      Effect (.tblPeek sel slot) s (s.setResult (s.table.peek sel slot.toNat))
  | tblHash {s : State} {sel k} (hsel : hashSelLegal sel = true) :
      Effect (.tblHash sel k) s (s.setResult (BitVec.ofNat 64
        (if sel = 0#2 then s.table.h1 s.build.hashSel k else s.table.h2 s.build.hashSel k)))
  | mdlDist {s : State} {ordf} (low : -1 ≤ orderOf ordf) (high : orderOf ordf ≤ (s.order : Int))
      (fits : s.visitOverflows (orderOf ordf) = false) :
      Effect (.mdlDist ordf) s
        ((s.setModel (s.model.distribute s.table s.build.hashSel s.order (orderOf ordf))).setResult
          (((s.model.distribute s.table s.build.hashSel s.order (orderOf ordf)).dist.read 258).setWidth 64))
  | mdlUpdate {s : State} {sym} (h : sym.toNat ≤ 255) :
      Effect (.mdlUpdate sym) s ((s.update (sym.setWidth 8)).setResult
        ((s.update (sym.setWidth 8)).model.satCount - s.model.satCount))
  | encStart {s : State} (h : s.bits.wrCnt = 0#3) :
      Effect .encStart s (s.setEnc { low := 0#64, high := top, btf := 0#64, outcnt := 0#64, active := true })
  | encSym {s : State} {sym} (h : sym.toNat ≤ 257) (active : s.enc.active = true)
      (freq : s.model.zeroFreq sym.toNat = false) :
      Effect (.encSym sym) s
        (s.encodeInterval (s.model.distAt sym.toNat) (s.model.distAt (sym.toNat + 1)) (s.model.distAt 258))
  | encFinish {s : State} (active : s.enc.active = true) :
      Effect .encFinish s ((s.encFinishBits.setEnc { s.encFinishBits.enc with active := false }).setResult
        s.encFinishBits.enc.outcnt)
  | decStart {s p : State} (h : s.bits.rdCnt = 0#4)
      (prime : p = State.primeBits 32 (s.setDec
        { low := 0#64, high := top, value := 0#64, shifts := 0#64, fetched := 0#64, hist := 0#32, eof := false
          active := s.dec.active })) :
      Effect .decStart s (p.setDec { p.dec with active := true }).checkTruncated
  | decSym {s : State} {sym} (active : s.dec.active = true) (total : s.model.distAt 258 ≠ 0)
      (found : s.model.search (s.dec.target (s.model.distAt 258)) = some sym) :
      Effect .decSym s ((s.decodeInterval (s.model.distAt sym) (s.model.distAt (sym + 1))
        (s.model.distAt 258)).setResult (BitVec.ofNat 64 sym)).checkTruncated
  | decTrailer {s : State} {r : BitVec 32 × State} (active : s.dec.active = true)
      (bytes : r = State.trailerBytes (4 - s.dec.trailerFetched) (histBytes s.dec.hist s.dec.trailerFetched) s) :
      Effect .decTrailer s (((r.2.setBits { r.2.bits with rdBuf := 0#8, rdCnt := 0#4 }).setResult
        (r.1.setWidth 64)).setDec { r.2.dec with active := false }).checkTruncated
  | bitPut {s : State} {sym} (h : sym.toNat ≤ 1) : Effect (.bitPut sym) s (s.putBit (sym.getLsbD 0))
  | bitFlush {s : State} : Effect .bitFlush s s.flushBits
  | bitGet {s : State} : Effect .bitGet s
      (s.getBit.2.setResult ((flag64 s.getBit.2.dec.eof <<< 1) ||| flag64 s.getBit.1))
  | rawPut {s : State} {sym} (h : sym.toNat ≤ 255) (boundary : s.bits.wrCnt = 0#3) :
      Effect (.rawPut sym) s (s.outByte (sym.setWidth 8))
  | rawGetEnded {s : State} (boundary : s.bits.rdCnt = 0#4) (eof : s.dec.eof = true) :
      Effect .rawGet s (s.setResult 0x100#64)
  | rawGetEnd {s : State} (boundary : s.bits.rdCnt = 0#4) (eof : s.dec.eof = false) (h : s.input = []) :
      Effect .rawGet s (s.meetEnd.setResult 0x100#64)
  | rawGetByte {s : State} {x xs} (boundary : s.bits.rdCnt = 0#4) (eof : s.dec.eof = false) (h : s.input = x :: xs) :
      Effect .rawGet s (State.setResult { s with input := xs } (x.setWidth 64))

/-- What one command leaves: the state as it was (NOP, or a command discarded while a fault is recorded), a precise fault
and nothing else, or its effect in a core that is ready for it. -/
def Outcome (i : Instr) (s t : State) : Prop :=
  (t = s ∧ (i = .nop ∨ s.fault = true)) ∨ (∃ c, c ≠ .truncated ∧ t = s.raise c) ∨
    (Effect i s t ∧ ((∃ o b boot adapt, i = .init o b boot adapt) ∨ s.Ready))

/-- A command that runs under the common checks has an outcome if its own pseudocode has one in a ready core. -/
theorem outcome_command {i : Instr} {s : State} {f : State → State}
    (h : s.Ready → (∃ c, c ≠ .truncated ∧ f s = s.raise c) ∨ Effect i s (f s)) : Outcome i s (s.command f) := by
  rcases State.command_cases s f with ⟨hf, he⟩ | ⟨-, he⟩ | ⟨hr, he⟩ <;> rw [he]
  · exact .inl ⟨rfl, .inr hf⟩
  · exact .inr (.inl ⟨_, by decide, rfl⟩)
  · exact (h hr).elim (fun hc => .inr (.inl hc)) fun he => .inr (.inr ⟨he, .inr hr⟩)

theorem outcome_commandSel {i : Instr} {s : State} {legal : Bool} {f : State → State}
    (h : legal = true → s.Ready → (∃ c, c ≠ .truncated ∧ f s = s.raise c) ∨ Effect i s (f s)) :
    Outcome i s (s.commandSel legal f) := by
  cases hl : legal
  · cases hf : s.fault
    · rw [State.commandSel_illegal hf]
      exact .inr (.inl ⟨_, by decide, rfl⟩)
    · rw [State.commandSel_of_fault hf]
      exact .inl ⟨rfl, .inr hf⟩
  · rw [State.commandSel_legal]
    exact outcome_command (h hl)

theorem outcome_keyCommand {i : Instr} {s : State} {k : Key} {f : State → State}
    (h : legalKey k = true → Effect i s (f s)) : Outcome i s (s.keyCommand k f) := by
  refine outcome_command fun _ => ?_
  split
  · exact .inr (h (by assumption))
  · exact .inl ⟨_, by decide, rfl⟩

/-- Every command answers a next state, and this is what it can be. -/
theorem exec_outcome (i : Instr) (s : State) : ∃ t, exec i s = .next t ∧ Outcome i s t := by
  cases i <;> refine ⟨_, rfl, ?_⟩
  case nop => exact .inl ⟨rfl, .inl rfl⟩
  case init o b boot adapt =>
    split
    · exact .inr (.inl ⟨_, by decide, rfl⟩)
    · split
      · exact .inr (.inl ⟨_, by decide, rfl⟩)
      · exact .inr (.inr ⟨.init (by simp_all) (by omega), .inl ⟨_, _, _, _, rfl⟩⟩)
  case rdReg sel =>
    refine outcome_command fun _ => ?_
    cases h : s.register sel.toNat
    · exact .inl ⟨.badIndex, by decide, rfl⟩
    · exact .inr (.rdReg h)
  case rdDist idx =>
    refine outcome_command fun _ => ?_
    split
    · exact .inl ⟨.badIndex, by decide, rfl⟩
    · exact .inr (.rdDist (by omega))
  case rdDchk idx =>
    refine outcome_command fun _ => ?_
    dsimp only [bitmapReadback]
    split
    · exact .inl ⟨.badIndex, by decide, rfl⟩
    · exact .inr (.rdDchk (by omega))
  case rdExcl idx =>
    refine outcome_command fun _ => ?_
    dsimp only [bitmapReadback]
    split
    · exact .inl ⟨.badIndex, by decide, rfl⟩
    · exact .inr (.rdExcl (by omega))
  case rdWin idx =>
    refine outcome_command fun _ => ?_
    cases h : s.model.win[idx.toNat]?
    · exact .inl ⟨.badIndex, by decide, rfl⟩
    · exact .inr (.rdWin h)
  case tblContains k => exact outcome_keyCommand .tblContains
  case tblCount k => exact outcome_keyCommand .tblCount
  case tblInsert k => exact outcome_keyCommand .tblInsert
  case tblSeen k => exact outcome_keyCommand .tblSeen
  case tblFollower sel k => exact outcome_keyCommand .tblFollower
  case tblRescale => exact outcome_command fun _ => .inr .tblRescale
  case tblReset => exact outcome_command fun _ => .inr .tblReset
  case tblFull => exact outcome_command fun _ => .inr .tblFull
  case tblPeek sel slot =>
    refine outcome_commandSel fun hl _ => ?_
    split
    · exact .inl ⟨_, by decide, rfl⟩
    · exact .inr (.tblPeek hl (by omega))
  case tblHash sel k => exact outcome_commandSel fun hl _ => .inr (.tblHash hl)
  case mdlDist ordf =>
    refine outcome_command fun _ => ?_
    dsimp only
    split
    · exact .inl ⟨_, by decide, rfl⟩
    · split
      · exact .inl ⟨_, by decide, rfl⟩
      · exact .inr (.mdlDist (by omega) (by omega) (by simp_all))
  case mdlUpdate sym =>
    refine outcome_command fun _ => ?_
    dsimp only
    split
    · exact .inl ⟨_, by decide, rfl⟩
    · exact .inr (.mdlUpdate (by omega))
  case encStart =>
    refine outcome_command fun _ => ?_
    split
    · exact .inl ⟨_, by decide, rfl⟩
    · exact .inr (.encStart (by simp_all))
  case encSym sym =>
    refine outcome_command fun _ => ?_
    split
    · exact .inl ⟨_, by decide, rfl⟩
    · split
      · exact .inl ⟨_, by decide, rfl⟩
      · split
        · exact .inl ⟨_, by decide, rfl⟩
        · exact .inr (.encSym (by simp only [eosSym] at *; omega) (by simp_all) (by simp_all))
  case encFinish =>
    refine outcome_command fun _ => ?_
    dsimp only
    split
    · exact .inl ⟨_, by decide, rfl⟩
    · exact .inr (.encFinish (by simp_all))
  case decStart =>
    refine outcome_command fun _ => ?_
    dsimp only
    split
    · exact .inl ⟨_, by decide, rfl⟩
    · exact .inr (.decStart (by simp_all) rfl)
  case decSym =>
    refine outcome_command fun _ => ?_
    split
    · exact .inl ⟨_, by decide, rfl⟩
    · split
      · exact .inl ⟨_, by decide, rfl⟩
      · split
        · exact .inl ⟨_, by decide, rfl⟩
        · exact .inr (.decSym (by simp_all) (by assumption) (by assumption))
  case decTrailer =>
    refine outcome_command fun _ => ?_
    dsimp only
    split
    · exact .inl ⟨_, by decide, rfl⟩
    · exact .inr (.decTrailer (by simp_all) rfl)
  case bitPut sym =>
    refine outcome_command fun _ => ?_
    split
    · exact .inl ⟨_, by decide, rfl⟩
    · exact .inr (.bitPut (by omega))
  case bitFlush => exact outcome_command fun _ => .inr .bitFlush
  case bitGet => exact outcome_command fun _ => .inr .bitGet
  case rawPut sym =>
    refine outcome_command fun _ => ?_
    split
    · exact .inl ⟨_, by decide, rfl⟩
    · split
      · exact .inl ⟨_, by decide, rfl⟩
      · exact .inr (.rawPut (by omega) (by simp_all))
  case rawGet =>
    refine outcome_command fun _ => ?_
    split
    · exact .inl ⟨_, by decide, rfl⟩
    · split
      · exact .inr (.rawGetEnded (by simp_all) (by assumption))
      · cases h : s.input with
        | nil =>
          rw [State.inByte_nil h]
          exact .inr (.rawGetEnd (by simp_all) (by simp_all) h)
        | cons x xs =>
          rw [State.inByte_cons h]
          exact .inr (.rawGetByte (by simp_all) (by simp_all) h)

/-- What a command that answers `t` did. -/
theorem exec_cases {i : Instr} {s t : State} (h : exec i s = .next t) : Outcome i s t := by
  obtain ⟨t', he, ho⟩ := exec_outcome i s
  rw [h] at he
  cases he
  exact ho

/-- What a step that answers `t` did: it waited, it rejected words no command has, or it ran the command decoded. -/
theorem step_cases {s t : State} (h : step s = .next t) :
    t = s ∨
    (∃ words rest, s.port = words ++ rest ∧ (t = s.setPort rest ∨ t = (s.setPort rest).raise .illegal)) ∨
    ∃ i words rest, decode words = .ok i ∧ s.port = words ++ rest ∧ exec i (s.setPort rest) = .next t := by
  unfold step at h
  cases hf : fetchCommand s.port with
  | none =>
    rw [hf] at h
    exact .inl (Host.Outcome.next.inj h).symm
  | some r =>
    obtain ⟨w0, words, rest⟩ := r
    rw [hf] at h
    obtain ⟨-, -, hp⟩ := fetchCommand_eq_some.1 hf
    dsimp only at h
    split at h
    · exact .inr (.inr ⟨_, _, _, by assumption, hp, h⟩)
    · refine .inr (.inl ⟨words, rest, hp, ?_⟩)
      have := (Host.Outcome.next.inj h).symm
      unfold State.rejectWords at this
      split at this
      · exact .inl this
      · exact .inr this

end Sys2Proof.Machine
end

