-- ==== Sys2Proof/Laws/Update.lean ====
section
/-! SUPPORT. An update and a replay in terms of commands: the steps over the table that MDL_UPDATE takes are those of
TBL_RESCALE, TBL_INSERT, TBL_SEEN and TBL_RESET. -/

namespace Sys2Proof.Machine

theorem State.after_of_next {s t : State} {i : Instr} (h : exec i s = .next t) : s.after i = t := by
  simp [State.after, h]

theorem flag64_eq_zero {b : Bool} : flag64 b = 0#64 ↔ b = false := by cases b <;> decide

/-- From `s` to `t` only RESULT and the table have changed. -/
def TableFrame (s t : State) : Prop := t = (s.setTable t.table).setResult t.result

theorem TableFrame.refl (s : State) : TableFrame s s := rfl

theorem TableFrame.trans {s t u : State} (h : TableFrame s t) (g : TableFrame t u) : TableFrame s u := by
  unfold TableFrame at *; rw [g, h]; rfl

theorem TableFrame.ready {s t : State} (h : TableFrame s t) (hr : s.Ready) : t.Ready := by rw [h]; exact hr

theorem TableFrame.build {s t : State} (h : TableFrame s t) : t.build = s.build := by rw [h]; rfl

section Commands

variable {s : State} (h : s.Ready)

include h

theorem tblInsert_after {k : Key} (hk : legalKey k = true) :
    s.after (.tblInsert k) =
      (s.setTable (s.table.insert s.build.hashSel k).1).setResult (flag64 (s.table.insert s.build.hashSel k).2) :=
  State.after_of_next (by
    change Host.Outcome.next _ = _
    rw [State.keyCommand, State.command_of_ready h, if_pos hk])

theorem tblSeen_after {k : Key} (hk : legalKey k = true) :
    s.after (.tblSeen k) =
      (s.setTable (s.table.seen s.build.hashSel k).1).setResult (flag64 (s.table.seen s.build.hashSel k).2) :=
  State.after_of_next (by
    change Host.Outcome.next _ = _
    rw [State.keyCommand, State.command_of_ready h, if_pos hk])

theorem tblRescale_after : s.after .tblRescale = s.setTable s.table.rescale :=
  State.after_of_next (by change Host.Outcome.next _ = _; rw [State.command_of_ready h])

/-- What ensure does: a frame, the table, and when RESULT is 0. -/
theorem ensure_spec {k : Key} (hk : legalKey k = true) :
    TableFrame s (s.ensure k) ∧
      (s.ensure k).table =
        (if s.table.contains s.build.hashSel k then s.table else (s.table.insert s.build.hashSel k).1) ∧
      ((s.ensure k).result = 0#64 ↔
        s.table.contains s.build.hashSel k = false ∧ (s.table.insert s.build.hashSel k).2 = false) := by
  unfold State.ensure
  cases hc : s.table.contains s.build.hashSel k
  · simp only [Bool.false_eq_true, if_false, true_and]
    rw [tblInsert_after h hk]
    exact ⟨rfl, rfl, flag64_eq_zero⟩
  · exact ⟨rfl, rfl, by simp⟩

/-- TBL_INSERT and TBL_SEEN over the visited keys do to the table what step 4 of update does (41_modeller.md R193). -/
theorem seeChildren_spec {c : Byte} {vs : List Key}
    (hv : ∀ v ∈ vs, legalKey v = true ∧ legalKey (childKey v c) = true) :
    TableFrame s (s.seeChildren c vs).1 ∧
      s.table.visitAll s.build.hashSel c vs = ((s.seeChildren c vs).1.table, (s.seeChildren c vs).2) := by
  induction vs generalizing s with
  | nil => exact ⟨.refl s, rfl⟩
  | cons v vs ih =>
    obtain ⟨hk, hck⟩ := hv v List.mem_cons_self
    obtain ⟨e1, e2, e3⟩ := ensure_spec h hk
    have hs := tblSeen_after (e1.ready h) hck
    rw [e1.build, e2] at hs
    have hvk : s.table.visitKey s.build.hashSel c v =
        if (s.ensure v).result = 0#64 then ((s.ensure v).table, false)
        else (s.ensure v).table.seen s.build.hashSel (childKey v c) := by
      rw [e2]; unfold Table.visitKey
      cases hc : s.table.contains s.build.hashSel v
      · rcases hi : s.table.insert s.build.hashSel v with ⟨t', b⟩
        rw [hc, hi] at e3
        cases b <;> simp at e3 <;> simp [e3]
      · rw [hc] at e3
        simp at e3; simp [e3]
    unfold State.seeChildren Table.visitAll
    rw [hvk]
    by_cases hr : (s.ensure v).result = 0#64
    · simp only [if_pos hr]; exact ⟨e1, trivial⟩
    · simp only [if_neg hr]
      rw [e2, hs]
      rcases hseen : (if s.table.contains s.build.hashSel v = true then s.table
        else (s.table.insert s.build.hashSel v).1).seen s.build.hashSel (childKey v c) with ⟨t', b⟩
      have hf : TableFrame s (((s.ensure v).setTable t').setResult (flag64 b)) := e1.trans rfl
      cases b
      · exact ⟨hf, rfl⟩
      · obtain ⟨i1, i2⟩ := ih (hf.ready h) fun k hk => hv k (List.mem_cons_of_mem _ hk)
        rw [hf.build] at i2
        exact ⟨hf.trans i1, i2⟩

/-- TBL_SEEN over a list of keys does to the table what a replay of them does (41_modeller.md R197). -/
theorem seeKeys_spec {ks : List Key} (hv : ∀ k ∈ ks, legalKey k = true) :
    TableFrame s (s.seeKeys ks).1 ∧
      s.table.replay s.build.hashSel ks = ((s.seeKeys ks).1.table, (s.seeKeys ks).2) := by
  induction ks generalizing s with
  | nil => exact ⟨.refl s, rfl⟩
  | cons k ks ih =>
    have hs := tblSeen_after h (hv k List.mem_cons_self)
    unfold State.seeKeys Table.replay
    rw [hs]
    rcases hseen : s.table.seen s.build.hashSel k with ⟨t', b⟩
    have hf : TableFrame s ((s.setTable t').setResult (flag64 b)) := rfl
    cases b
    · exact ⟨hf, rfl⟩
    · obtain ⟨i1, i2⟩ := ih (hf.ready h) fun k hk => hv k (List.mem_cons_of_mem _ hk)
      rw [hf.build] at i2
      exact ⟨hf.trans i1, i2⟩

end Commands

/-- Steps 2 and 3 of update: a rescale when one is pending or a count asks for one (41_modeller.md R191, R192). -/
theorem serveRescale_checkCounts (s : State) (c : Byte) :
    (s.checkCounts c).serveRescale =
      if (s.model.outscale || s.model.visit.any fun v =>
          decide (65535 ≤ (s.table.countOf s.build.hashSel (childKey v c)).toNat + 1)) = true then
        (s.setTable s.table.rescale).setModel { s.model with sumEsc := 0#64, outscale := false }
      else s := by
  unfold State.checkCounts State.serveRescale
  change (if _ then _ else _ : State) = _
  by_cases hv : (s.model.visit.any fun v =>
      decide (65535 ≤ (s.table.countOf s.build.hashSel (childKey v c)).toNat + 1)) = true
  · rw [if_pos hv, hv, Bool.or_true, if_pos rfl]; exact if_pos rfl
  · rw [if_neg hv, Bool.eq_false_iff.2 hv, Bool.or_false]

/-- Steps 1 to 3 of update: a rescale when one is due, and the escape sum (41_modeller.md R190 to R192). -/
theorem rescale_steps {s : State} {c : Byte}
    (hsum : s.model.sumEsc.toNat + (s.model.lastRun.toNat - s.model.latestRun.toNat) < 2 ^ 64) :
    ((s.adaptStep).checkCounts c).serveRescale =
      if s.rescaleDue c = true then
        (s.setTable s.table.rescale).setModel { s.model with sumEsc := 0#64, outscale := false }
      else if s.adapt = 0 then s
      else s.setModel { s.model with
        sumEsc := s.model.sumEsc + BitVec.ofNat 64 (s.model.lastRun.toNat - s.model.latestRun.toNat) } := by
  have hs : (s.model.sumEsc + BitVec.ofNat 64 (s.model.lastRun.toNat - s.model.latestRun.toNat)).toNat =
      s.model.sumEsc.toNat + (s.model.lastRun.toNat - s.model.latestRun.toNat) := by
    rw [BitVec.toNat_add, BitVec.toNat_ofNat, Nat.mod_eq_of_lt (a := _ - _) (by omega)]
    exact Nat.mod_eq_of_lt hsum
  unfold State.rescaleDue
  by_cases ha : s.adapt = 0
  · have e : s.adaptStep = s := if_pos ha
    rw [e, serveRescale_checkCounts, decide_eq_false (fun h => h ha), Bool.false_and, Bool.or_false, if_pos ha]
  · rw [decide_eq_true ha, Bool.true_and, if_neg ha]
    by_cases ht : s.model.adaptThr.toNat ≤ s.model.sumEsc.toNat + (s.model.lastRun.toNat - s.model.latestRun.toNat)
    · have e : s.adaptStep = s.setModel { s.model with outscale := true, sumEsc := 0#64 } :=
        (if_neg ha).trans (if_pos (hs.symm ▸ ht))
      rw [e, serveRescale_checkCounts, decide_eq_true ht, Bool.or_true, Bool.true_or, if_pos rfl]
      exact if_pos (Bool.true_or _)
    · have e : s.adaptStep = s.setModel { s.model with
          sumEsc := s.model.sumEsc + BitVec.ofNat 64 (s.model.lastRun.toNat - s.model.latestRun.toNat) } :=
        (if_neg ha).trans (if_neg (fun h => ht (hs ▸ h)))
      rw [e, serveRescale_checkCounts, decide_eq_false ht, Bool.or_false]
      rfl

/-- MDL_UPDATE of a byte runs update and answers the saturation events it handled (41_modeller.md R201). -/
theorem execMdlUpdate_byte {s : State} (h : s.Ready) (c : Byte) :
    exec (.mdlUpdate (c.setWidth 9)) s =
      .next ((s.update c).setResult ((s.update c).model.satCount - s.model.satCount)) := by
  have h1 : (c.setWidth 9).toNat = c.toNat := by
    rw [BitVec.toNat_setWidth]; exact Nat.mod_eq_of_lt (by have := c.isLt; omega)
  have h2 : (c.setWidth 9).setWidth 8 = c :=
    BitVec.eq_of_toNat_eq (by rw [BitVec.toNat_setWidth, h1]; exact Nat.mod_eq_of_lt c.isLt)
  change Host.Outcome.next _ = _
  rw [State.command_of_ready h, if_neg (by rw [h1]; have := c.isLt; omega), h2]

end Sys2Proof.Machine
end

