-- ==== Sys2Proof/Tests/Slice0.lean ====
section
/-! SUPPORT. The model's own tests: what WellFormed refuses, the word of every command, small vectors of the spec
(95_test_vectors.md), and for each statement with hypotheses a concrete state and operands that meet them together. -/

namespace Sys2Proof.Tests

/-! One theorem at a time: the kernel's evaluations, run side by side, would each want a stack of their own. -/
set_option Elab.async false

open Sys2Proof Sys2Proof.Machine

/-! ## WellFormed refuses what R100 makes illegal -/

theorem test_wf_refuses_peek_field_3 : (Instr.tblPeek 3#2 0#64).wellFormed = false := by decide

theorem test_wf_refuses_hash_selectors : (Instr.tblHash 2#2 0#64).wellFormed = false ∧
    (Instr.tblHash 3#2 0#64).wellFormed = false := by decide

theorem test_illegal_words_refused :
    decode [0x18000003#32, 0#32, 0#32] = .error (.illegalSelector "TBL_PEEK") ∧
    decode [0x19000002#32, 0#32, 0#32] = .error (.illegalSelector "TBL_HASH") ∧
    decode [0x21000200#32] = .error (.reservedBits "MDL_UPDATE") ∧
    decode [0x07000000#32] = .error (.unassignedOpcode 0x07#8) ∧ decode [0x01000000#32] = .error .badFraming := by
  decide

/-! ## The word of every command, written out from 30_encoding.md section 5 -/

theorem test_decode_nop : decode [0x00000000#32] = .ok .nop := by decide
theorem test_decode_init : decode [0x01000000#32, 0x6800FF20#32] = .ok (.init 6#4 0x800#12 0xFF#8 0x20#8) := by decide
theorem test_decode_rd_reg : decode [0x0200001A#32] = .ok (.rdReg 0x1A#24) := by decide
theorem test_decode_rd_dist : decode [0x03000102#32] = .ok (.rdDist 0x102#24) := by decide
theorem test_decode_rd_dchk : decode [0x04000003#32] = .ok (.rdDchk 3#24) := by decide
theorem test_decode_rd_excl : decode [0x05000001#32] = .ok (.rdExcl 1#24) := by decide
theorem test_decode_rd_win : decode [0x0603FBFF#32] = .ok (.rdWin 0x3FBFF#24) := by decide
theorem test_decode_tbl_contains : decode [0x10000000#32, 0x80000000#32, 0x00000000#32] =
    .ok (.tblContains 0x8000000000000000#64) := by decide
theorem test_decode_tbl_count : decode [0x11000000#32, 0x81000000#32, 0x00000041#32] =
    .ok (.tblCount 0x8100000000000041#64) := by decide
theorem test_decode_tbl_insert : decode [0x12000000#32, 0x83000000#32, 0x0000EA79#32] =
    .ok (.tblInsert 0x830000000000EA79#64) := by decide
theorem test_decode_tbl_seen : decode [0x13000000#32, 0x87010203#32, 0x04050607#32] =
    .ok (.tblSeen 0x8701020304050607#64) := by decide
theorem test_decode_tbl_follower : decode [0x14000003#32, 0x80000000#32, 0x00000000#32] =
    .ok (.tblFollower 3#2 0x8000000000000000#64) := by decide
theorem test_decode_tbl_rescale : decode [0x15000000#32] = .ok .tblRescale := by decide
theorem test_decode_tbl_reset : decode [0x16000000#32] = .ok .tblReset := by decide
theorem test_decode_tbl_full : decode [0x17000000#32] = .ok .tblFull := by decide
theorem test_decode_tbl_peek : decode [0x18000002#32, 0x00000000#32, 0x00013F54#32] =
    .ok (.tblPeek 2#2 0x13F54#64) := by decide
theorem test_decode_tbl_hash : decode [0x19000001#32, 0x01234567#32, 0x89ABCDEF#32] =
    .ok (.tblHash 1#2 0x0123456789ABCDEF#64) := by decide
theorem test_decode_mdl_dist : decode [0x2000000F#32] = .ok (.mdlDist 0xF#4) := by decide
theorem test_decode_mdl_update : decode [0x210000FF#32] = .ok (.mdlUpdate 0xFF#9) := by decide
theorem test_decode_enc_start : decode [0x30000000#32] = .ok .encStart := by decide
theorem test_decode_enc_sym : decode [0x31000101#32] = .ok (.encSym 0x101#9) := by decide
theorem test_decode_enc_finish : decode [0x32000000#32] = .ok .encFinish := by decide
theorem test_decode_dec_start : decode [0x38000000#32] = .ok .decStart := by decide
theorem test_decode_dec_sym : decode [0x39000000#32] = .ok .decSym := by decide
theorem test_decode_dec_trailer : decode [0x3A000000#32] = .ok .decTrailer := by decide
theorem test_decode_bit_put : decode [0x40000001#32] = .ok (.bitPut 1#9) := by decide
theorem test_decode_bit_flush : decode [0x41000000#32] = .ok .bitFlush := by decide
theorem test_decode_bit_get : decode [0x42000000#32] = .ok .bitGet := by decide
theorem test_decode_raw_put : decode [0x430000D3#32] = .ok (.rawPut 0xD3#9) := by decide
theorem test_decode_raw_get : decode [0x44000000#32] = .ok .rawGet := by decide

/-- The table's numbering: the first word in bits 31:0, the next above it. -/
theorem test_decode_table_word : decodeTableWord 64 0x6800FF2001000000 = some (.init 6#4 0x800#12 0xFF#8 0x20#8) ∧
    decodeTableWord 32 0x19000001 = some (.tblHash 1#2 0#64) := by decide

/-! ## Small states -/

/-- The state a command leaves. -/
abbrev run (i : Instr) (s : State) : State := s.after i

theorem exec_run (i : Instr) (s : State) : exec i s = .next (run i s) := by
  obtain ⟨t, h, -⟩ := exec_outcome i s
  rw [run, State.after_of_next h, h]

/-- The state one step of the machine leaves. -/
def stepped (s : State) : State :=
  match step s with
  | .next t => t
  | .fault _ => s
  | .refused _ => s

theorem step_stepped (s : State) : step s = .next (stepped s) := by
  have h : ∃ t, step s = .next t := by
    unfold step
    split
    · exact ⟨_, rfl⟩
    · split
      · exact ⟨_, exec_run _ _⟩
      · exact ⟨_, rfl⟩
  obtain ⟨t, h⟩ := h
  simp [stepped, h]

/-- The vectors' start: INIT with O = 3, B = 8, BOOT = 0, ADAPT = 0. -/
def started : State := State.reset.configure 3#4 8#12 0#8 0#8

/-- A ready core with a table of 7 slots (vector T11). -/
def tiny : State :=
  { started with table := Table.reset { Table.powerOn with n := 7#32, m := 16#32 } .crc32c }

/-- The key ctx(1; 'A'). -/
abbrev keyA : Key := 0x8100000000000041#64

/-- A ready core whose table holds ctx(1; 'A') with count 65535 in slot 0 of 1, and where the root is absent. -/
def onlyA : State :=
  { started with table := { started.table with n := 1#32, m := 4#32, key := [(0, keyA)], count := [(0, 65535#16)]
                                               fidx := [(0, 1#32)], pool := [], nextFree := 2#32 } }

/-- A core after an order -1 distribution over every byte: dist[i] = i up to 256, EOS 1. -/
def flat : State := { started with model := { started.model with excl := BitVec.allOnes 256 }.distFallback }

/-- A core whose distribution gives bytes 0x41 and ESCAPE one each of two. -/
def two : State :=
  { started with model := { started.model with dist := [(0x42, 1#32), (256, 1#32), (257, 2#32), (258, 2#32)]
                                               dchk := setBit 0#256 0x41 } }

/-! ## Vectors of 95_test_vectors.md -/

/-- Section 2.1, CRC32C and FNVJ of ctx(1; 'A'). -/
theorem test_hash_vectors : crcHash1 keyA = 0xAF89BCE4#32 ∧ crcHash2 keyA = 0xAC78FD25#32 ∧
    fnvHash keyA = 0x67291517#32 ∧ oaatHash keyA = 0x1D7DC30C#32 := by decide +kernel

/-- Section 2.1 and program P4: the slots of ctx(1; 'A') for N = 279620. -/
theorem test_tbl_hash : (run (.tblHash 0#2 keyA) started).result = 81748#64 ∧
    (run (.tblHash 1#2 keyA) started).result = 102517#64 := by decide +kernel

/-- The root is in slot 44290 after INIT. -/
theorem test_init_root : (run (.tblPeek 0#2 44290#64) started).result = 0x8000000000000000#64 ∧
    (run (.tblPeek 1#2 44290#64) started).result = 1#64 ∧ (run (.tblPeek 2#2 44290#64) started).result = 1#64 := by
  decide +kernel

/-- Vector T1. -/
theorem test_tbl_insert : (run (.tblInsert keyA) started).result = 1#64 ∧
    (run (.tblPeek 2#2 81748#64) (run (.tblInsert keyA) started)).result = 2#64 := by decide +kernel

/-- Vector T5: the second key takes slot 81748 and ctx(1; 'A') is kicked to slot 102517 with its index. -/
theorem test_kick :
    let s := run (.tblInsert 0x830000000000EA79#64) (run (.tblInsert keyA) started)
    s.table.readSlot 81748 = ⟨0x830000000000EA79#64, 0#16, 3#32⟩ ∧ s.table.readSlot 102517 = ⟨keyA, 0#16, 2#32⟩ := by
  decide +kernel

/-- Vectors T2 to T4: the count saturates, and a rescale halves it. -/
theorem test_tbl_seen_saturates : (run (.tblSeen keyA) onlyA).table.count.read 0 = 65535#16 ∧
    (run .tblRescale onlyA).table.count.read 0 = 32767#16 := by decide +kernel

/-- Vector T4: the seen of ctx(1; 'A') marks bit 0x41 of the root. -/
theorem test_tbl_follower :
    (run (.tblFollower 1#2 root) (run (.tblSeen keyA) started)).result = 2#64 := by decide +kernel

/-- Vectors T9 and T10. -/
theorem test_tbl_absent_and_reset : (run (.tblCount 0x810000000000005A#64) started).result = 0#64 ∧
    (run .tblReset (run (.tblInsert keyA) started)).table.nextFree = 2#32 := by decide +kernel

/-- Vector M1. -/
theorem test_mdl_dist_first_chain : (run (.mdlDist 3#4) started).result = 1#64 ∧
    (run (.mdlDist 0#4) started).result = 1#64 ∧ (run (.mdlDist 0#4) started).model.visit = [root] := by
  decide +kernel

/-- Vector M1, order -1 with nothing excluded. -/
theorem test_mdl_dist_fallback : flat.model.distAt 258 = 257 ∧ flat.model.distAt 0x41 = 0x41 ∧
    flat.model.distAt 257 = 256 := by decide +kernel

/-- Vector M1, the update after the first chain. -/
theorem test_mdl_update :
    let s := run (.mdlUpdate 0x41#9) (run (.mdlDist 0#4) started)
    (run (.tblCount keyA) s).result = 1#64 ∧ (run (.rdWin 0#24) s).result = 0x41#64 ∧ s.result = 0#64 := by
  decide +kernel

/-- Vector M2: the root has one child of count 1, so the total is 2. -/
theorem test_mdl_dist_escape_c :
    let s := run (.mdlDist 0#4) { run (.tblSeen keyA) started with model := { started.model with excl := BitVec.allOnes 256 } }
    s.result = 2#64 ∧ s.model.distAt 0x42 = 1 ∧ s.model.distAt 256 = 1 ∧ (run (.rdDchk 1#24) s).result = 2#64 := by
  decide +kernel

/-- Vector C1: EOS at order -1 emits FF, and ENC_FINISH ends the payload FF 40. -/
theorem test_encoder :
    let s := run .encFinish (run (.encSym 257#9) (run .encStart flat))
    s.output = [0xFF#8, 0x40#8] ∧ s.result = 2#64 := by decide +kernel

/-- Vector C2: 'A' at order -1. -/
theorem test_enc_sym :
    let s := run (.encSym 0x41#9) (run .encStart flat)
    s.enc.low = 0x5FA05F80#64 ∧ s.enc.high = 0xDF20DEFF#64 ∧ s.bits.wrBuf = 0x20#8 ∧ s.bits.wrCnt = 7#3 := by
  decide +kernel

/-- Vector C2: the decoder on 41 BE 00 D3 D9. -/
theorem test_dec_sym :
    let s := run .decSym (run .decStart { flat with input := [0x41#8, 0xBE#8, 0x00#8, 0xD3#8, 0xD9#8] })
    s.result = 0x41#64 ∧ s.dec.low = 0x5FA05F80#64 ∧ s.dec.high = 0xDF20DEFF#64 ∧ s.dec.value = 0xDF0069EC#64 ∧
      s.dec.shifts = 7#64 ∧ s.dec.fetched = 5#64 ∧ s.dec.hist = 0xBE00D3D9#32 := by decide +kernel

/-- Vector C6: DEC_TRAILER straight after DEC_START takes bytes 1 to 4. -/
theorem test_dec_trailer :
    let s := run .decTrailer (run .decStart { started with input := [1#8, 2#8, 3#8, 4#8, 5#8, 6#8] })
    s.result = 0x02030405#64 ∧ s.input = [6#8] := by decide +kernel

/-- Vector C6: DEC_START on two bytes completes and faults TRUNCATED. -/
theorem test_dec_start_truncated :
    let s := run .decStart { started with input := [0xFF#8, 0x40#8] }
    s.status = 0xCA3#32 ∧ s.dec.value = 0xFF400000#64 ∧ s.dec.fetched = 2#64 := by decide +kernel

/-- Vectors B1 and B2. -/
theorem test_bit_writer :
    (run (.bitPut 1#9) { started with bits := { started.bits with wrBuf := 0x50#8, wrCnt := 7#3 } }).output = [0xA1#8] ∧
    (run .bitFlush { started with bits := { started.bits with wrBuf := 0x03#8, wrCnt := 2#3 } }).output = [0xC0#8] := by
  decide +kernel

/-- Vector B4. -/
theorem test_bit_get : (run .bitGet { started with input := [0xA1#8] }).result = 1#64 ∧
    (run .bitGet started).result = 2#64 ∧ (run .bitGet started).dec.eof = true := by decide +kernel

/-- Vectors B5 and B9. -/
theorem test_raw_bytes : (run .rawGet started).result = 0x100#64 ∧
    (run .rawGet { started with input := [0xD3#8] }).result = 0xD3#64 ∧
    (run (.rawPut 0x70#9) started).output = [0x70#8] ∧ (run (.rawPut 0x70#9) started).enc.outcnt = 0#64 := by
  decide +kernel

/-- Section 2.6: the maximal INIT, its STATUS and some of its registers. -/
theorem test_init_maximal :
    let s := run (.init 6#4 2048#12 255#8 32#8) State.reset
    s.status = 0x1001#32 ∧ (run (.rdReg 4#24) s).result = 0x3FC00#64 ∧ (run (.rdReg 0x14#24) s).result = 0xFFFFFFFF#64 ∧
      (run (.rdReg 2#24) s).result = 0x4444444#64 ∧ (run (.rdReg 1#24) s).result = 0x6800FF20#64 := by decide +kernel

/-- Sections 2.4 and 2.6: STATUS after some faults. -/
theorem test_fault_status : (run (.init 0#4 8#12 0#8 0#8) State.reset).status = 0x22#32 ∧
    (run (.rdReg 8#24) started).status = 0xD3#32 ∧ (run (.mdlDist 14#4) started).status = 0x53#32 ∧
    (run (.encSym 0x41#9) (run .encStart started)).status = 0x283#32 := by decide +kernel

/-- A run starts with the host's first command, INIT, on the port. -/
theorem test_first_step : stepped (State.reset.withFetchWord 64 0x3008000001000000) = started := by decide +kernel

/-! ## Witnesses: a state and operands that meet the hypotheses of each statement -/

theorem witness_DecodeOfEncode : (Instr.tblHash 1#2 keyA).wellFormed = true := by decide

theorem witness_EncodeOfDecode : decode [0x21000041#32] = .ok (.mdlUpdate 0x41#9) := by decide

theorem witness_StepRunsTheDecodedCommand :
    decode [0x15000000#32] = .ok .tblRescale ∧
      (started.setPort [0x15000000#32, 0x17000000#32]).port = [0x15000000#32] ++ [0x17000000#32] := by decide +kernel

theorem witness_StepWaitsForAWholeCommand :
    State.reset.port = [] ∧ ∃ w0 ext, (State.reset.setPort [0x10000000#32, 0#32]).port = w0 :: ext ∧
      (w0 :: ext).length < commandLength (opcode w0) :=
  ⟨rfl, 0x10000000#32, [0#32], rfl, by decide⟩

theorem witness_StepConsumesTheCommandsWords :
    (State.reset.setPort [0x10000000#32, 0#32, 0#32]).port = 0x10000000#32 :: [0#32, 0#32] ∧
      commandLength (opcode 0x10000000#32) ≤ [0x10000000#32, 0#32, 0#32].length := by decide

/-- The ends of every gap of the opcode map. -/
theorem witness_UnassignedOpcodeIsIllegal :
    State.reset.fault = false ∧
    [0x07, 0x0F, 0x1A, 0x1F, 0x22, 0x2F, 0x33, 0x37, 0x3B, 0x3F, 0x45, 0xFF].all (fun n =>
      (opcode (BitVec.ofNat 32 (n * 2 ^ 24))).toNat == n &&
        stepped (State.reset.setPort [BitVec.ofNat 32 (n * 2 ^ 24)]) == State.reset.raise .illegal) = true := by
  decide +kernel

/-- One word for each clause, with the least reserved bit of its format, or the least illegal selector. -/
theorem witness_ReservedBitsAreIllegal :
    State.reset.fault = false ∧
    [[0x00000001#32], [0x21000200#32], [0x20000010#32], [0x14000004#32, 0#32, 0#32], [0x18000003#32, 0#32, 0#32],
      [0x19000002#32, 0#32, 0#32]].all (fun ws =>
      stepped (State.reset.setPort ws) == State.reset.raise .illegal) = true := by
  decide +kernel

/-- A core with BAD_INDEX recorded. -/
def faulted : State := started.raise .badIndex

/-- A command, a command's words, words of no command, and INIT's opcode with its least and its greatest reserved bit. -/
theorem witness_RecordedFaultDiscardsCommands :
    (faulted.fault = true ∧ ∀ o b boot adapt, Instr.tblFull ≠ .init o b boot adapt) ∧
    [[0x17000000#32], [0xFF000000#32], [0x12000001#32, 0#32, 0#32]].all (fun ws =>
      stepped (faulted.setPort (ws ++ [0#32])) == faulted.setPort [0#32]) = true ∧
    [[0x01000001#32, 0x30080000#32], [0x01800000#32, 0x30080000#32]].all (fun ws =>
      stepped (faulted.setPort (ws ++ [0#32])) == (faulted.setPort [0#32]).raise .illegal) = true :=
  ⟨⟨rfl, by simp⟩, by decide +kernel, by decide +kernel⟩

theorem witness_UnconfiguredCommandsFault :
    State.reset.fault = false ∧ State.reset.cfg = false ∧ Instr.tblFull.wellFormed = true ∧ Instr.tblFull ≠ .nop ∧
      ∀ o b boot adapt, Instr.tblFull ≠ .init o b boot adapt := ⟨rfl, rfl, rfl, by decide, by simp⟩

/-- A precise fault, and TRUNCATED. -/
theorem witness_FaultsArePrecise :
    (run (.rdDist 259#24) started = faulted ∧ faulted.fault = true ∧ faulted.fcode ≠ 10#4) ∧
    ((run .decStart started).fault = true ∧ started.fault = false ∧ (run .decStart started).fcode = 10#4) := by
  decide +kernel

theorem witness_OnlyInitLeavesAFault :
    faulted.fault = true ∧ stepped (faulted.setPort [0x01000000#32, 0x30080000#32]) = started ∧
      started.fault = false := by decide +kernel

theorem witness_StatusShowsTheFlags : started.Ready := ⟨rfl, rfl⟩

theorem witness_NopChangesNothing : (1#24 : BitVec 24) ≠ 0#24 := by decide

/-- Each end of each range, and the two sides of MEM_MAX_MIB. -/
theorem witness_InitRefusesBadFields :
    [(0, 8, 0), (7, 8, 0), (3, 7, 0), (3, 2049, 0), (3, 8, 33)].all (fun f =>
      run (.init (BitVec.ofNat 4 f.1) (BitVec.ofNat 12 f.2.1) 0#8 (BitVec.ofNat 8 f.2.2)) State.reset ==
        State.reset.raise .config) = true ∧
    run (.init 3#4 65#12 0#8 0#8) { State.reset with build := { hashSel := .crc32c, memMaxMib := 64 } } =
      State.raise { State.reset with build := { hashSel := .crc32c, memMaxMib := 64 } } .alloc := by
  decide +kernel

/-- The least and the greatest legal fields. -/
theorem witness_InitSetsEveryRegister :
    configLegal 1#4 8#12 0#8 = true ∧ (8#12).toNat ≤ State.reset.build.memMaxMib ∧
    configLegal 6#4 2048#12 32#8 = true ∧ (2048#12).toNat ≤ State.reset.build.memMaxMib := by decide

/-- A core with two visited keys and a window of two bytes. -/
def visited : State :=
  { started with model := { started.model with visit := [root, keyA], win := [0x41#8, 0x42#8] } }

theorem witness_RdRegReadsTheSelectedRegister :
    visited.Ready ∧ visited.model.visit[1]? = some keyA ∧ (run (.rdReg 0x19#24) visited).result = keyA ∧
    [0x08, 0x0F, 0x1A, 0x1E, 0x1F, 0x25, 0x27, 0x2F, 0x34, 0xFFFFFF].all (fun n =>
      run (.rdReg (BitVec.ofNat 24 n)) visited == visited.raise .badIndex) = true := by decide +kernel

theorem witness_IndexedReadbackReadsTheElement :
    visited.Ready ∧ (258#24).toNat ≤ 258 ∧ 258 < (259#24).toNat ∧ (3#24).toNat ≤ 3 ∧ 3 < (4#24).toNat ∧
      visited.model.win[(1#24).toNat]? = some 0x42#8 ∧ visited.model.win.length ≤ (2#24).toNat := by decide +kernel

theorem witness_LegalKeysAreContextKeys :
    [1#8, 2#8, 3#8, 4#8, 5#8, 6#8, 7#8].length ≤ 7 ∧ legalKey (contextKey [1#8, 2#8, 3#8, 4#8, 5#8, 6#8, 7#8]) = true ∧
      contextKey [1#8, 2#8, 3#8, 4#8, 5#8, 6#8, 7#8] = 0x8701020304050607#64 ∧
      legalKey 0x8800000000000000#64 = false := by decide +kernel

theorem witness_ParentOfChild :
    legalKey 0x8601020304050607#64 = false ∧ legalKey 0x8600010203040506#64 = true ∧
      keyLen 0x8600010203040506#64 ≤ 6 ∧ [1#8, 2#8, 3#8, 4#8, 5#8, 6#8].length ≤ 6 := by decide +kernel

theorem witness_TblHashReducesModuloN : started.Ready ∧ 2 ≤ (2#2).toNat ∧ 2 ≤ (3#2).toNat := by decide

theorem witness_TblLookupsReadTheTwoSlots : onlyA.Ready ∧ legalKey 0#64 = false ∧ legalKey keyA = true ∧
    (run (.tblCount keyA) onlyA).result = 65535#64 := by decide +kernel

/-- An absent key, a present one without an index and a present one with an index. -/
theorem witness_TblFollowerReadsTheBitmap :
    onlyA.Ready ∧ legalKey 0#64 = false ∧ legalKey keyA = true ∧
    onlyA.table.slotOf onlyA.build.hashSel root = none ∧
    onlyA.table.slotOf onlyA.build.hashSel keyA = some 0 ∧ onlyA.table.fidx.read 0 ≠ 0#32 ∧
    State.Ready { onlyA with table := { onlyA.table with fidx := [] } } ∧
    Table.slotOf { onlyA.table with fidx := [] } .crc32c keyA = some 0 := by decide +kernel

/-- A full table, a present key, an empty pool, and an empty slot h1. -/
theorem witness_TblInsertWithoutKicks :
    legalKey 0#64 = false ∧ legalKey keyA = true ∧
    State.Ready { tiny with table := { tiny.table with isFull := true } } ∧
    (tiny.Ready ∧ legalKey root = true ∧ tiny.table.isFull = false ∧ tiny.table.contains .crc32c root = true) ∧
    (tiny.table.contains .crc32c keyA = false ∧ (16#32).toNat ≤ (16#32).toNat ∧ tiny.table.m = 16#32) ∧
    (tiny.table.nextFree.toNat < tiny.table.m.toNat ∧
      tiny.table.key.read (tiny.table.h1 tiny.build.hashSel keyA) = 0#64) := by decide +kernel

theorem witness_tiny_MemoryWf : tiny.MemoryWf := by
  unfold State.MemoryWf; decide +kernel

/-- The core after INIT meets the table invariant: its parameters and its table by the laws of INIT. -/
theorem witness_started_TableConsistent : started.TableConsistent :=
  configure_tableConsistent reset_memories_wf (by decide) (by decide)

theorem consistent_insert {s : State} (h : s.Ready) (hc : s.TableConsistent) {k : Key} (hk : legalKey k = true) :
    (run (.tblInsert k) s).TableConsistent := by
  obtain ⟨⟨g1, g2, g3, g4, g5⟩, hcfg⟩ := hc
  obtain ⟨⟨o, b, boot, adapt, hcf⟩, hcon, hv⟩ := hcfg h.1
  obtain ⟨e1, e2⟩ := (Table.insert_sizes s.table s.build.hashSel k).1
  obtain ⟨w1, w2, w3, w4⟩ := Table.insert_wf (t := s.table) ⟨g1, g2, g3, g4⟩ s.build.hashSel k
  rw [run, tblInsert_after h hk]
  refine ⟨⟨w1, w2, w3, w4, g5⟩, fun _ => ⟨⟨o, b, boot, adapt, ?_⟩,
    (Table.insert_spec ⟨g1, g2, g3, g4⟩ hcon (fun h0 => by rw [h0] at hk; exact absurd hk (by decide))).1, hv⟩⟩
  obtain ⟨c1, c2, c3, c4, c5, c6⟩ := hcf
  exact ⟨c1, c2, c3, e1.symm ▸ c4, e2.symm ▸ c5, c6⟩

theorem consistent_full {s : State} (hc : s.TableConsistent) :
    State.TableConsistent { s with table := { s.table with isFull := true } } ∧
    State.TableConsistent { s with table := { s.table with nextFree := s.table.m } } := by
  obtain ⟨c1, c2⟩ := hc
  refine ⟨⟨c1, c2⟩, c1, fun h => ?_⟩
  obtain ⟨e1, ⟨a, b, c, d, e, f, g⟩, e3⟩ := c2 h
  refine ⟨e1, ⟨a, b.trans c, Nat.le_refl _, d, e, f, fun j hj hz => ?_, g.2⟩, e3⟩
  exact ⟨(g.1 j hj hz).1, (g.1 j hj hz).2.trans_le c⟩

/-- A key whose two slots are one slot, 110341, and a second such key of the same slot. -/
abbrev keyX : Key := 0x8700041F8700041F#64
abbrev keyY : Key := 0x8700050D8700050D#64

/-- A present key (the root), an absent one, one whose insertion kicks another, a table that is full, and a pool that has
run out. -/
theorem witness_InsertionKeepsEveryKey :
    (started.Ready ∧ started.TableConsistent ∧ legalKey keyA = true ∧ legalKey root = true) ∧
    ((run (.tblInsert keyA) started).Ready ∧ (run (.tblInsert keyA) started).TableConsistent ∧
      legalKey 0x830000000000EA79#64 = true ∧
      (run (.tblInsert keyA) started).table.key.read
        ((run (.tblInsert keyA) started).table.h1 .crc32c 0x830000000000EA79#64) = keyA) ∧
    State.TableConsistent { started with table := { started.table with isFull := true } } ∧
    State.TableConsistent { started with table := { started.table with nextFree := started.table.m } } := by
  have hs := witness_started_TableConsistent
  exact ⟨⟨⟨rfl, rfl⟩, hs, by decide⟩, ⟨by decide +kernel, consistent_insert ⟨rfl, rfl⟩ hs (by decide), by decide +kernel⟩,
    (consistent_full hs).1, (consistent_full hs).2⟩

/-- Keys that share their only slot displace one another until the probes run out. -/
theorem kick_in_vain {hs : HashSel} {pos : Nat} {ks : List Key} (fuel : Nat) {cur : Entry} {t : Table} (hw : t.Wf)
    (hks : ∀ k ∈ ks, k ≠ 0#64 ∧ t.h1 hs k = pos ∧ t.h2 hs k = pos) (hc : cur.key ∈ ks) (hp : t.key.read pos ∈ ks) :
    (Table.kick hs fuel cur pos t).2 = false := by
  induction fuel generalizing cur t with
  | zero => rfl
  | succ fuel ih =>
    obtain ⟨h0, h1, h2⟩ := hks _ hp
    have ho : t.otherSlot hs (t.key.read pos) pos = pos := by unfold Table.otherSlot; rw [h1, h2, ite_self]
    rw [Table.kick, if_neg h0, ho]
    refine ih (Table.wf_writeSlot hw pos cur) hks hp ?_
    have h := congrArg Entry.key (Table.readSlot_writeSlot hw pos pos cur)
    rw [if_pos rfl] at h
    exact (show (t.writeSlot pos cur).key.read pos = cur.key from h) ▸ hc

theorem insert_in_vain {s : State} {kx ky : Key} {pos : Nat} (h : s.Ready) (hw : s.MemoryWf) (hy : legalKey ky = true)
    (hf : s.table.isFull = false) (hc : s.table.contains s.build.hashSel ky = false)
    (hm : s.table.nextFree.toNat < s.table.m.toNat) (hr : s.table.key.read pos = kx)
    (hx : kx ≠ 0#64 ∧ s.table.h1 s.build.hashSel kx = pos ∧ s.table.h2 s.build.hashSel kx = pos)
    (hky : ky ≠ 0#64 ∧ s.table.h1 s.build.hashSel ky = pos ∧ s.table.h2 s.build.hashSel ky = pos) :
    (run (.tblInsert ky) s).result = 0#64 := by
  rw [run, tblInsert_after h hy]
  refine congrArg flag64 (a₂ := false) ?_
  rcases s.table.insert_cases s.build.hashSel ky with ⟨g, -⟩ | ⟨-, g, -⟩ | ⟨-, -, g, -⟩ | ⟨-, -, -, e⟩
  · rw [hf] at g; cases g
  · rw [hc] at g; cases g
  · omega
  · rw [e, hky.2.1]
    exact kick_in_vain (ks := [kx, ky]) maxKicks ⟨hw.1, hw.2.1, hw.2.2.1, hw.2.2.2.1⟩
      (List.forall_mem_cons.2 ⟨hx, List.forall_mem_cons.2 ⟨hky, fun _ h => absurd h List.not_mem_nil⟩⟩)
      (List.mem_cons_of_mem _ List.mem_cons_self) (hr ▸ List.mem_cons_self)

/-- The core after INIT and TBL_INSERT of keyX. -/
def holdsX : State := run (.tblInsert keyX) started

/-- keyX holds the only slot of keyY: the two displace each other until the probes run out. -/
theorem witness_InsertionThatKicksInVain :
    holdsX.Ready ∧ holdsX.TableConsistent ∧ legalKey keyY = true ∧ holdsX.table.isFull = false ∧
    holdsX.table.nextFree.toNat < holdsX.table.m.toNat ∧ (run (.tblInsert keyY) holdsX).result = 0#64 := by
  have hr : holdsX.Ready := by decide +kernel
  have hc : holdsX.TableConsistent := consistent_insert ⟨rfl, rfl⟩ witness_started_TableConsistent (by decide)
  have hf : holdsX.table.isFull = false := by decide +kernel
  have hm : holdsX.table.nextFree.toNat < holdsX.table.m.toNat := by decide +kernel
  exact ⟨hr, hc, by decide, hf, hm, insert_in_vain (kx := keyX) (pos := 110341) hr hc.1 (by decide) hf
    (by decide +kernel) hm (by decide +kernel) (by decide +kernel) (by decide +kernel)⟩

/-- An absent key that goes in, a present root, and a present key whose parent is present with an index. -/
theorem witness_TblSeenCountsAndMarks :
    tiny.Ready ∧ tiny.table.contains tiny.build.hashSel keyA = false ∧
    (run (.tblInsert keyA) tiny).result ≠ 0#64 ∧
    tiny.table.slotOf tiny.build.hashSel root = some 2 ∧
    (run (.tblInsert keyA) tiny).table.slotOf tiny.build.hashSel keyA = some 1 ∧ keyA ≠ root ∧
    (run (.tblInsert keyA) tiny).table.slotOf tiny.build.hashSel (parentKey keyA) = some 2 ∧
    (run (.tblInsert keyA) tiny).table.fidx.read 2 ≠ 0#32 := by decide +kernel

/-- The insertion that fails: vector T11's table is full. -/
theorem witness_TblSeenOfAFullTable :
    (run (.tblInsert keyA) { tiny with table := { tiny.table with isFull := true } }).result = 0#64 ∧
      Table.contains { tiny.table with isFull := true } .crc32c keyA = false := by decide +kernel

theorem witness_TblRescaleHalvesTheCounts : tiny.Ready ∧ tiny.MemoryWf := ⟨⟨rfl, rfl⟩, witness_tiny_MemoryWf⟩

theorem witness_TblResetLeavesTheRootAlone : tiny.Ready ∧ 0 < tiny.table.n.toNat ∧ 1 < tiny.table.m.toNat := by
  decide +kernel

theorem witness_TblFullAndTblPeekReadTheTable :
    tiny.Ready ∧ tiny.table.n.toNat ≤ (7#64).toNat ∧ (6#64).toNat < tiny.table.n.toNat ∧ (2#2 : BitVec 2) ≠ 3#2 := by
  decide +kernel

/-- Seven visited keys. -/
def crowded : State := { started with model := { started.model with visit := List.replicate 7 root } }

theorem witness_MdlDistRefusesBadOrders :
    crowded.Ready ∧ (8 ≤ (8#4).toNat ∧ (14#4).toNat ≤ 14) ∧ ((4#4).toNat ≤ 7 ∧ crowded.order < (4#4).toNat) ∧
    (0#4).toNat < crowded.order ∧ (0#4).toNat ≤ crowded.model.win.length ∧ crowded.model.visit.length = 7 := by
  decide +kernel

theorem witness_MdlDistShortWindow : started.Ready ∧ started.model.dist.wf = true ∧ (3#4).toNat ≤ started.order ∧
    started.model.win.length < (1#4).toNat := by decide +kernel

theorem witness_MdlDistAbsentParent :
    visited.Ready ∧ visited.model.dist.wf = true ∧ (2#4).toNat ≤ visited.order ∧
    (2#4).toNat ≤ visited.model.win.length ∧ (visited.visitBefore 2).length < 7 ∧
    visited.table.contains visited.build.hashSel (visited.contextAt 2) = false := by decide +kernel

theorem witness_MdlDistPresentParent :
    (run (.tblSeen keyA) visited).Ready ∧ (run (.tblSeen keyA) visited).model.dist.wf = true ∧
    (0#4).toNat ≤ (run (.tblSeen keyA) visited).order ∧ ((run (.tblSeen keyA) visited).visitBefore 0).length < 7 ∧
    (run (.tblSeen keyA) visited).table.contains .crc32c ((run (.tblSeen keyA) visited).contextAt 0) = true ∧
    (run (.tblSeen keyA) { visited with model := { visited.model with excl := BitVec.allOnes 256 } }).codable 0 0x41 = true := by
  decide +kernel

theorem witness_MdlDistFallback : flat.Ready ∧ flat.model.dist.wf = true := by decide +kernel

theorem witness_DistributionsCanBeSearched :
    started.Ready ∧ started.model.dist.wf = true ∧ (run (.mdlDist 15#4) started).fault = false := by decide +kernel

theorem witness_MdlUpdateAdvancesTheWindow :
    started.Ready ∧ 255 < (256#9).toNat ∧ (255#9).toNat ≤ 255 ∧ started.model.satCount.toNat + 2 < 2 ^ 64 := by
  decide +kernel

/-- One visited key, the root, present. -/
def atRoot : State := { tiny with model := { tiny.model with visit := [root] } }

/-- Two visited keys, the first of them absent, with a rescale pending. -/
def atTwo : State := { tiny with model := { tiny.model with visit := [keyA, root], outscale := true } }

/-- The root visited, with the child's count one below MAX_FREQ. -/
def atLimit : State :=
  { atRoot with table := { (run (.tblSeen keyA) tiny).table with count := [(1, 65534#16), (2, 1#16)] } }

theorem witness_MdlUpdateSeesTheChild :
    (atTwo.Ready ∧ atTwo.model.visit = [keyA, root] ∧
      (legalKey keyA = true ∧ keyLen keyA ≤ 6) ∧ (legalKey root = true ∧ keyLen root ≤ 6) ∧
      atTwo.model.sumEsc.toNat + (atTwo.model.lastRun.toNat - atTwo.model.latestRun.toNat) < 2 ^ 64 ∧
      atTwo.rescaleDue 0x41#8 = true ∧ atTwo.table.contains .crc32c keyA = false ∧
      ((atTwo.after .tblRescale).seeChildren 0x41#8 atTwo.model.visit).2 = true) ∧
    (atRoot.rescaleDue 0x41#8 = false ∧ (atRoot.seeChildren 0x41#8 atRoot.model.visit).2 = true) ∧
    (atLimit.model.outscale = false ∧ atLimit.adapt = 0 ∧ atLimit.rescaleDue 0x41#8 = true ∧
      ((atLimit.after .tblRescale).seeChildren 0x41#8 atLimit.model.visit).2 = true ∧
      (run (.tblCount keyA) (run (.mdlUpdate 0x41#9) atLimit)).result = 32768#64) := by decide +kernel

/-- ADAPT = 1: the threshold 1 is reached with an escape frequency of 1, and not with one of 0. -/
theorem witness_MdlUpdateAdapts :
    let s := State.reset.configure 3#4 8#12 0#8 1#8
    let a := { s with model := { s.model with lastRun := 1#32 } }
    s.Ready ∧ s.adapt ≠ 0 ∧ s.model.visit = [] ∧
    s.model.sumEsc.toNat + (s.model.lastRun.toNat - s.model.latestRun.toNat) < s.model.adaptThr.toNat ∧
    s.model.outscale = false ∧ a.Ready ∧ a.adapt ≠ 0 ∧ a.model.visit = [] ∧
    a.model.adaptThr.toNat ≤ a.model.sumEsc.toNat + (a.model.lastRun.toNat - a.model.latestRun.toNat) := by
  decide +kernel

/-- A full table and an absent visited key, with bootstrap off, and on with a full window. -/
def saturated (bootEn : Bool) : State :=
  { tiny with table := { tiny.table with n := 97#32, isFull := true }
              model := { tiny.model with visit := [keyA], bootEn := bootEn, win := List.replicate 4 0x41#8 } }

/-- The same with a pool of three: the replay inserts one key and fails at the next. -/
def starved : State := { saturated true with table := { (saturated true).table with m := 3#32 } }

/-- A replay that fails: every hypothesis. -/
theorem witness_SaturationResetsTheTable :
    starved.Ready ∧ (starved.model.visit = [keyA] ∧ legalKey keyA = true ∧ keyLen keyA ≤ 6) ∧
    starved.model.sumEsc.toNat + (starved.model.lastRun.toNat - starved.model.latestRun.toNat) < 2 ^ 64 ∧
    starved.model.satCount.toNat + 2 < 2 ^ 64 ∧ starved.rescaleDue 0x41#8 = false ∧
    (starved.seeChildren 0x41#8 starved.model.visit).2 = false ∧ starved.model.bootEn = true ∧
    starved.model.h.toNat ≤ starved.model.win.length ∧ starved.order ≤ 6 ∧ 0 < starved.table.n.toNat ∧
    1 < starved.table.m.toNat ∧
    ((run .tblReset (starved.seeChildren 0x41#8 starved.model.visit).1).seeKeys
      (replayKeys starved.model.win starved.order)).2 = false ∧
    (run (.mdlUpdate 0x41#9) starved).result = 2#64 := by decide +kernel

/-- The same states with bootstrap off, and with a pool that suffices; the keys of a replay. -/
theorem witness_SaturationWithoutAFailingReplay :
    ((saturated false).rescaleDue 0x41#8 = false ∧ (saturated false).model.bootEn = false ∧
      ((saturated false).seeChildren 0x41#8 (saturated false).model.visit).2 = false ∧
      (run (.mdlUpdate 0x41#9) (saturated false)).result = 1#64) ∧
    ((saturated true).rescaleDue 0x41#8 = false ∧ (saturated true).model.bootEn = true ∧
      ((saturated true).seeChildren 0x41#8 (saturated true).model.visit).2 = false ∧
      ((run .tblReset ((saturated true).seeChildren 0x41#8 [keyA]).1).seeKeys
        (replayKeys (saturated true).model.win 3)).2 = true) ∧
    replayKeys [0x41#8, 0x42#8, 0x43#8] 1 = [keyA, 0x8100000000000042#64, 0x8100000000000043#64,
      0x8200000000004142#64, 0x8200000000004243#64] := by decide +kernel

/-! ### Coder and bit_io -/

/-- An active encoder and an active decoder over the whole range, on four bytes of input. -/
def coding : State :=
  { two with enc := { two.enc with active := true }, dec := { two.dec with active := true, value := 0x12345678#64 }
             input := List.replicate 4 0#8 }

theorem witness_EncStartAndEncSymRefusals :
    coding.Ready ∧ coding.bits.wrCnt = 0#3 ∧ (1#3 : BitVec 3) ≠ 0#3 ∧ 257 < (258#9).toNat ∧ (257#9).toNat ≤ 257 ∧
    started.enc.active = false ∧ coding.enc.active = true ∧ started.model.distAt 258 = 0 ∧
    coding.model.distAt (0x42 + 1) ≤ coding.model.distAt 0x42 := by decide +kernel

/-- An active encoder with ESCAPE as wide as the total. -/
def sure : State := { coding with model := { coding.model with dist := [(257, 1#32), (258, 1#32)] } }

/-- A part of the range with no bit pending and with three, and a symbol as wide as the total. -/
theorem witness_EncSymNarrowsTheRange :
    (coding.Ready ∧ (256#9).toNat ≤ 257 ∧ coding.enc.active = true ∧
      coding.model.distAt 256 = 1 ∧ coding.model.distAt 257 = 2 ∧ coding.model.distAt 258 = 2 ∧
      (coding.enc.low.toNat < 0x80000000 ∧ 0x80000000 ≤ coding.enc.high.toNat ∧ coding.enc.high.toNat ≤ 0xFFFFFFFF ∧
        coding.enc.low.toNat < 0x40000000) ∧
      coding.enc.btf.toNat + 32 < 2 ^ 64 ∧
      coding.enc.outcnt.toNat + (run (.encSym 256#9) coding).output.length < 2 ^ 64) ∧
    (run (.encSym 256#9) { coding with enc := { coding.enc with btf := 3#64 } }).bitsOut = [true, false, false, false] ∧
    (0 = sure.model.distAt 256 ∧ sure.model.distAt 257 = sure.model.distAt 258 ∧ 0 < sure.model.distAt 258 ∧
      run (.encSym 256#9) sure = sure) := by decide +kernel

theorem witness_EncoderAndDecoderStayEqual :
    coding.Ready ∧ coding.enc.active = true ∧ coding.dec.active = true ∧ coding.enc.low = coding.dec.low ∧
    coding.enc.high = coding.dec.high ∧
    coding.model.search (coding.dec.target (coding.model.distAt 258)) = some 0x41 ∧
    coding.model.zeroFreq 0x41 = false := by decide +kernel

theorem witness_EncFinishFlushesTheCode :
    coding.Ready ∧ started.Ready ∧ started.enc.active = false ∧ coding.enc.active = true ∧
    coding.enc.outcnt.toNat + coding.enc.btf.toNat + 3 < 2 ^ 64 := by decide +kernel

theorem witness_DecStartPrimesTheValue :
    coding.Ready ∧ (1#4 : BitVec 4) ≠ 0#4 ∧ coding.bits.rdCnt = 0#4 ∧ coding.input = [0#8, 0#8, 0#8, 0#8] ∧
    started.bits.rdCnt = 0#4 ∧ (List.replicate 3 0#8).length < 4 := by decide +kernel

/-- An active decoder with no distribution. -/
def noTotal : State := { coding with model := { coding.model with dist := [] } }

theorem witness_DecSymAnswersTheSymbolFound :
    (started.Ready ∧ started.dec.active = false) ∧
    (coding.Ready ∧ coding.dec.active = true ∧ coding.model.distAt 258 ≠ 0 ∧
      coding.model.search (coding.dec.target (coding.model.distAt 258)) = some 0x41) ∧
    (noTotal.Ready ∧ noTotal.dec.active = true ∧ noTotal.model.distAt 258 = 0) := by decide +kernel

/-- The four entries of the distribution and the interval of DEC_START: the coder invariants hold. -/
theorem witness_coding_CoderInRange : coding.CoderInRange := by
  refine ⟨by decide +kernel, fun _ => ⟨by unfold rangeOk; decide +kernel, by unfold rangeOk; decide +kernel, by decide +kernel,
    by decide +kernel, by decide +kernel, fun f hf => ?_⟩⟩
  have h2 : coding.model.distAt 258 = 2 := by decide +kernel
  rw [h2] at hf
  interval_cases f
  · exact ⟨0x41, by decide +kernel⟩
  · exact ⟨256, by decide +kernel⟩

theorem witness_DecSymFollowsTheCode :
    coding.Ready ∧ coding.CoderInRange ∧ coding.dec.active = true ∧ coding.dec.eof = false ∧
    2 = coding.model.distAt 258 ∧ 0 < 2 ∧ coding.bits.rdCnt.toNat ≤ 8 ∧ 32 ≤ coding.bitsIn.length ∧
    coding.dec.shifts.toNat + 32 < 2 ^ 64 :=
  ⟨by decide +kernel, witness_coding_CoderInRange, by decide +kernel⟩

/-- The whole trailer to come, all of it fetched, an input that ends inside it and one that had ended before. -/
theorem witness_DecTrailerReadsTheTrailer :
    (started.Ready ∧ started.dec.active = false) ∧
    (coding.Ready ∧ coding.dec.active = true ∧ coding.dec.eof = false ∧
      0 = min (coding.dec.fetched.toNat - (coding.dec.shifts.toNat + 9) / 8) 4 ∧ 4 - 0 ≤ coding.input.length) ∧
    (4 = min ((9#64).toNat - ((24#64).toNat + 9) / 8) 4 ∧ 4 - 4 ≤ ([] : List Byte).length) ∧
    (run .decTrailer { coding with input := [0x12#8, 0x34#8, 0x56#8] }).result = 0x12345600#64 ∧
    (run .decTrailer { coding with input := [0x12#8, 0x34#8, 0x56#8], dec := { coding.dec with eof := true } }).result =
      0#64 ∧ [0x12#8, 0x34#8, 0x56#8].length < 4 - 0 := by decide +kernel

theorem witness_BitPutAppendsOneBit :
    started.Ready ∧ 1 < (2#9).toNat ∧ (1#9).toNat ≤ 1 ∧ started.bits.wrCnt.toNat < 7 ∧ (7#3).toNat = 7 ∧
    started.enc.outcnt.toNat + 1 < 2 ^ 64 := by decide +kernel

theorem witness_BitFlushPadsToAByte :
    started.Ready ∧ started.bits.wrCnt = 0#3 ∧ (1#3 : BitVec 3) ≠ 0#3 ∧ started.enc.outcnt.toNat + 1 < 2 ^ 64 := by
  decide +kernel

/-- A fresh byte to take, an unread bit left, and the end of the input. -/
theorem witness_BitGetTakesTheNextBit :
    (coding.Ready ∧ coding.bits.rdCnt.toNat ≤ 8 ∧ coding.dec.eof = false ∧ coding.bits.rdCnt = 0#4 ∧
      coding.input = 0#8 :: List.replicate 3 0#8 ∧ coding.bitsIn = false :: List.replicate 31 false) ∧
    (run .bitGet coding).bits.rdCnt = 7#4 ∧ (run .bitGet coding).bitsIn = false :: List.replicate 30 false ∧
    (started.Ready ∧ started.bits.rdCnt = 0#4 ∧ started.input = []) := by decide +kernel

theorem witness_RawBytesPassUncounted :
    started.Ready ∧ 255 < (256#9).toNat ∧ (255#9).toNat ≤ 255 ∧ started.bits.wrCnt = 0#3 ∧ (1#3 : BitVec 3) ≠ 0#3 ∧
    (1#4 : BitVec 4) ≠ 0#4 ∧ started.bits.rdCnt = 0#4 ∧ started.dec.eof = false ∧ started.input = [] ∧
    coding.input = 0#8 :: List.replicate 3 0#8 ∧ (run .bitGet started).dec.eof = true ∧
    (run .bitGet started).Ready ∧ (run .bitGet started).bits.rdCnt = 0#4 := by decide +kernel

/-- The bits 1 0 1 go out as the byte A0 and come back from it. -/
theorem witness_WrittenBitsReadBack :
    started.Ready ∧ started.bits.wrCnt = 0#3 ∧
    (run .bitFlush (run (.bitPut 1#9) (run (.bitPut 0#9) (run (.bitPut 1#9) started)))).output = [0xA0#8] ∧
    (State.Ready { started with input := [0xA0#8] } ∧ started.bits.rdCnt = 0#4 ∧ started.dec.eof = false) ∧
    ([true, false, true] ++ List.replicate 5 false)[7]? = some false := by decide +kernel

/-! ### The whole machine -/

theorem witness_OnlyInitChangesTheConfiguration :
    exec (.tblInsert keyA) started = .next (run (.tblInsert keyA) started) ∧
      ∀ o b boot adapt, Instr.tblInsert keyA ≠ .init o b boot adapt := ⟨exec_run _ _, by simp⟩

/-- A core with two commands on its port, TBL_INSERT of ctx(1; 'A') and then ENC_START. -/
def primed : State :=
  (State.reset.setPort [0x12000000#32, 0x81000000#32, 0x00000041#32, 0x30000000#32]).configure 3#4 8#12 0#8 0#8

theorem witness_BytePortsMoveForward : step primed = .next (stepped primed) := step_stepped _

/-- One command of each component. -/
theorem witness_CommandsKeepToTheirComponent :
    exec (.tblInsert keyA) started = .next (run (.tblInsert keyA) started) ∧
    exec (.encSym 0x41#9) coding = .next (run (.encSym 0x41#9) coding) ∧
    exec .decSym coding = .next (run .decSym coding) := ⟨exec_run _ _, exec_run _ _, exec_run _ _⟩

theorem witness_MemoriesStayCanonical : primed.MemoryWf ∧ step primed = .next (stepped primed) :=
  ⟨(configure_tableConsistent reset_memories_wf (by decide) (by decide)).1, step_stepped _⟩

theorem witness_BoundsHold : primed.Bounded ∧ step primed = .next (stepped primed) :=
  ⟨⟨fun _ => configure_configOk (by decide) (by decide), by decide +kernel⟩, step_stepped _⟩

theorem witness_TableStaysConsistent :
    primed.TableConsistent ∧ step primed = .next (stepped primed) ∧ (stepped primed).table.nextFree = 3#32 :=
  ⟨configure_tableConsistent reset_memories_wf (by decide) (by decide), step_stepped _, by decide +kernel⟩

theorem witness_CodersStayInRange : coding.CoderInRange ∧ step coding = .next (stepped coding) :=
  ⟨witness_coding_CoderInRange, step_stepped _⟩

end Sys2Proof.Tests
end

/-! ## What a command leaves on the command port

No command touches the command port, so what a step takes off it is what `fetchCommand` handed over (30_encoding.md
R102). -/

namespace Sys2Proof.Machine

theorem update_port (s : State) (c : Byte) : (s.update c).port = s.port := by
  have hsteps := congrArg State.port (updateSteps_frame s c).others
  exact hsteps

theorem flushBits_port (s : State) : s.flushBits.port = s.port :=
  (padBits_frame _ s).port

theorem encFinishBits_port (s : State) : s.encFinishBits.port = s.port :=
  (flushBits_port _).trans (bitPlusFollow_frame _ _).port

theorem primeBits_port (n : Nat) (s : State) : (State.primeBits n s).port = s.port := by
  induction n generalizing s with
  | zero => rfl
  | succ n ih => exact (ih _).trans (getBit_frame s).port

theorem trailerByte_port (s : State) : s.trailerByte.2.port = s.port := by
  unfold State.trailerByte
  split
  · rfl
  · cases hi : s.input with
    | nil => rw [State.inByte_nil hi]; rfl
    | cons x xs => rw [State.inByte_cons hi]

theorem trailerBytes_port (n : Nat) (w : BitVec 32) (s : State) : (State.trailerBytes n w s).2.port = s.port := by
  induction n generalizing w s with
  | zero => rfl
  | succ n ih => exact (ih _ _).trans (trailerByte_port s)

theorem checkTruncated_port (s : State) : s.checkTruncated.port = s.port := by
  rcases s.checkTruncated_cases with ⟨-, he⟩ | ⟨-, he⟩ <;> rw [he]
  rfl

/-- No command that passes its checks touches the command port. -/
theorem Effect.port_eq {i : Instr} {s t : State} (h : Effect i s t) : t.port = s.port := by
  cases h with
  | mdlUpdate => exact update_port s _
  | encSym => exact (encodeInterval_frame s _ _ _).port
  | encFinish => exact encFinishBits_port s
  | decStart _ prime =>
    rw [checkTruncated_port, State.setDec_port, prime, primeBits_port, State.setDec_port]
  | decSym => exact (checkTruncated_port _).trans (decodeInterval_frame s _ _ _).port
  | decTrailer _ bytes => subst bytes; exact (checkTruncated_port _).trans (trailerBytes_port _ _ s)
  | bitPut => exact (putBit_frame s _).port
  | bitFlush => exact flushBits_port s
  | bitGet => exact (getBit_frame s).port
  | _ => rfl

/-- Every command answers a next state, with the command port as it was. -/
theorem exec_port (i : Instr) (s : State) : ∃ t, exec i s = .next t ∧ t.port = s.port := by
  obtain ⟨t, he, ho⟩ := exec_outcome i s
  refine ⟨t, he, ?_⟩
  rcases ho with ⟨rfl, -⟩ | ⟨c, -, rfl⟩ | ⟨heff, -⟩
  · rfl
  · rfl
  · exact heff.port_eq

theorem rejectWords_port (s : State) (op : BitVec 8) : (s.rejectWords op).port = s.port := by
  unfold State.rejectWords; split <;> rfl

theorem rejectWords_of_no_fault {s : State} (h : s.fault = false) (op : BitVec 8) :
    s.rejectWords op = s.raise .illegal := by
  simp [State.rejectWords, h]

/-! ## A step with a whole command on the port -/

section WholeCommand

variable {s : State} {w0 : Word} {ext rest : List Word}

theorem fetchCommand_of_whole (hp : s.port = w0 :: ext ++ rest) (hl : (w0 :: ext).length = commandLength (opcode w0)) :
    fetchCommand s.port = some (w0, w0 :: ext, rest) :=
  fetchCommand_eq_some.2 ⟨⟨ext, rfl⟩, hl, hp⟩

theorem step_of_decode_ok {i : Instr} (hp : s.port = w0 :: ext ++ rest) (hi : decode (w0 :: ext) = .ok i) :
    step s = exec i (s.setPort rest) := by
  simp only [step, fetchCommand_of_whole hp (decode_length hi), hi]

theorem step_of_decode_error {e : DecodeError} (hp : s.port = w0 :: ext ++ rest)
    (hl : (w0 :: ext).length = commandLength (opcode w0)) (he : decode (w0 :: ext) = .error e) :
    step s = .next ((s.setPort rest).rejectWords (opcode w0)) := by
  simp only [step, fetchCommand_of_whole hp hl, he]

/-- Words no command has are taken off the port whole and fault ILLEGAL (60_exceptions.md R304). -/
theorem step_of_decode_error_illegal {e : DecodeError} (hs : s.fault = false) (hp : s.port = w0 :: ext ++ rest)
    (hl : (w0 :: ext).length = commandLength (opcode w0)) (he : decode (w0 :: ext) = .error e) :
    step s = .next { s with port := rest, fault := true, fcode := 1#4 } := by
  rw [step_of_decode_error hp hl he, rejectWords_of_no_fault (by simpa using hs)]
  rfl

/-- A step takes exactly the words of the command next on the port. -/
theorem step_port (hp : s.port = w0 :: ext ++ rest) (hl : (w0 :: ext).length = commandLength (opcode w0)) :
    ∃ t, step s = .next t ∧ t.port = rest := by
  cases hd : decode (w0 :: ext) with
  | ok i =>
    rw [step_of_decode_ok hp hd]
    exact exec_port i (s.setPort rest)
  | error e =>
    rw [step_of_decode_error hp hl hd]
    exact ⟨_, rfl, rejectWords_port _ _⟩

end WholeCommand

end Sys2Proof.Machine

/-! ## What the decoder refuses

Which words each format refuses (30_encoding.md R92 to R97, R100), then each decoder by opcode. -/

namespace Sys2Proof

section Formats

variable {mnemonic : String} {w0 w1 w2 : Word}

@[simp] theorem formatN_error_iff {i : Instr} :
    (∃ e, formatN mnemonic i w0 = .error e) ↔ w0.extractLsb' 0 24 ≠ 0#24 := by
  unfold formatN; split <;> simp [*]

@[simp] theorem formatS_error_iff {f : BitVec 9 → Instr} :
    (∃ e, formatS mnemonic f w0 = .error e) ↔ w0.extractLsb' 9 15 ≠ 0#15 := by
  unfold formatS; split <;> simp [*]

@[simp] theorem formatO_error_iff {f : BitVec 4 → Instr} :
    (∃ e, formatO mnemonic f w0 = .error e) ↔ w0.extractLsb' 4 20 ≠ 0#20 := by
  unfold formatO; split <;> simp [*]

@[simp] theorem formatC_error_iff {f : BitVec 4 → BitVec 12 → BitVec 8 → BitVec 8 → Instr} :
    (∃ e, formatC mnemonic f w0 w1 = .error e) ↔ w0.extractLsb' 0 24 ≠ 0#24 := by
  unfold formatC; split <;> simp [*]

@[simp] theorem formatK_error_iff {f : BitVec 64 → Instr} :
    (∃ e, formatK mnemonic f w0 w1 w2 = .error e) ↔ w0.extractLsb' 0 24 ≠ 0#24 := by
  unfold formatK; split <;> simp [*]

@[simp] theorem formatKI_error_iff {legal : BitVec 2 → Bool} {f : BitVec 2 → BitVec 64 → Instr} :
    (∃ e, formatKI mnemonic legal f w0 w1 w2 = .error e) ↔
      w0.extractLsb' 2 22 ≠ 0#22 ∨ legal (w0.extractLsb' 0 2) = false := by
  unfold formatKI
  split
  · split <;> simp [*]
  · simp [*]

end Formats

theorem peekSelLegal_eq_false_iff (sel : BitVec 2) : peekSelLegal sel = false ↔ sel.toNat = 3 := by
  simp [peekSelLegal, ← BitVec.toNat_inj]

theorem hashSelLegal_eq_false_iff (sel : BitVec 2) : hashSelLegal sel = false ↔ 2 ≤ sel.toNat := by
  rw [hashSelLegal, decide_eq_false_iff_not, Nat.not_lt]

/-! ### Opcodes outside the map -/

/-- The gaps of the opcode map (30_encoding.md R99). -/
def UnassignedOpcode (op : BitVec 8) : Prop :=
  (0x07 ≤ op.toNat ∧ op.toNat ≤ 0x0F) ∨ (0x1A ≤ op.toNat ∧ op.toNat ≤ 0x1F) ∨ (0x22 ≤ op.toNat ∧ op.toNat ≤ 0x2F) ∨
    (0x33 ≤ op.toNat ∧ op.toNat ≤ 0x37) ∨ (0x3B ≤ op.toNat ∧ op.toNat ≤ 0x3F) ∨ 0x45 ≤ op.toNat

theorem commandLength_of_unassigned {op : BitVec 8} (h : UnassignedOpcode op) : commandLength op = 1 := by
  unfold UnassignedOpcode at h
  unfold commandLength
  split <;> omega

theorem decode_of_unassigned {w0 : Word} (h : UnassignedOpcode (opcode w0)) :
    decode [w0] = .error (.unassignedOpcode (opcode w0)) := by
  rw [decode, if_pos (commandLength_of_unassigned h)]
  unfold UnassignedOpcode at h
  unfold decodeOne
  split
  case h_23 => rfl
  all_goals omega

/-! ### Reserved bits and selectors -/

/-- A first word that 30_encoding.md R100 makes illegal: a reserved bit of its opcode's format is set, or the selector of
TBL_PEEK or TBL_HASH is out of range. -/
def IllegalFields (w0 : Word) : Prop :=
  ((opcode w0).toNat ∈ [0x00, 0x01, 0x10, 0x11, 0x12, 0x13, 0x15, 0x16, 0x17, 0x30, 0x32, 0x38, 0x39, 0x3A, 0x41,
      0x42, 0x44] ∧ w0.extractLsb' 0 24 ≠ 0#24) ∨
    ((opcode w0).toNat ∈ [0x21, 0x31, 0x40, 0x43] ∧ w0.extractLsb' 9 15 ≠ 0#15) ∨
    ((opcode w0).toNat = 0x20 ∧ w0.extractLsb' 4 20 ≠ 0#20) ∨
    ((opcode w0).toNat ∈ [0x14, 0x18, 0x19] ∧ w0.extractLsb' 2 22 ≠ 0#22) ∨
    ((opcode w0).toNat = 0x18 ∧ (w0.extractLsb' 0 2).toNat = 3) ∨
    ((opcode w0).toNat = 0x19 ∧ 2 ≤ (w0.extractLsb' 0 2).toNat)

theorem decodeOne_of_illegalFields {w0 : Word} (h : IllegalFields w0) : ∃ e, decodeOne w0 = .error e := by
  unfold IllegalFields at h
  unfold decodeOne
  split <;> rename_i hop
  case h_23 => exact ⟨_, rfl⟩
  -- Format I has no reserved bits, and none of the six clauses names its opcodes.
  case h_2 | h_3 | h_4 | h_5 | h_6 => simp [hop] at h
  all_goals simpa [hop] using h

theorem decodeTwo_of_illegalFields {w0 : Word} (h : IllegalFields w0) (w1 : Word) :
    ∃ e, decodeTwo w0 w1 = .error e := by
  unfold IllegalFields at h
  unfold decodeTwo
  split
  next hop => simpa [hop] using h
  next => exact ⟨_, rfl⟩

theorem decodeThree_of_illegalFields {w0 : Word} (h : IllegalFields w0) (w1 w2 : Word) :
    ∃ e, decodeThree w0 w1 w2 = .error e := by
  unfold IllegalFields at h
  unfold decodeThree
  split <;> rename_i hop
  case h_8 => exact ⟨_, rfl⟩
  all_goals simpa [hop, peekSelLegal_eq_false_iff, hashSelLegal_eq_false_iff] using h

/-- Whatever words follow it, a first word with illegal fields begins no command. -/
theorem decode_of_illegalFields {w0 : Word} (h : IllegalFields w0) (ext : List Word) :
    ∃ e, decode (w0 :: ext) = .error e := by
  match ext with
  | [] =>
    rw [decode]
    split
    · exact decodeOne_of_illegalFields h
    · exact ⟨_, rfl⟩
  | [w1] => exact decodeTwo_of_illegalFields h w1
  | [w1, w2] => exact decodeThree_of_illegalFields h w1 w2
  | _ :: _ :: _ :: _ => exact ⟨_, rfl⟩

end Sys2Proof

/-! ## The statements on the command cycle -/

namespace Sys2Proof.Machine

/-- Settles O6: the words the opcode calls for are split off the port, and no meaning touches the port after that. -/
theorem stepConsumesTheCommandsWords : Obligations.StepConsumesTheCommandsWords := by
  unfold Obligations.StepConsumesTheCommandsWords
  intro s w0 ext hp hl
  obtain ⟨n, hn⟩ : ∃ n, commandLength (opcode w0) = n + 1 :=
    Nat.exists_eq_add_one.2 (commandLength_le (opcode w0)).1
  have hsplit : s.port = w0 :: ext.take n ++ ext.drop n := by simpa using hp
  have hlen : (w0 :: ext.take n).length = commandLength (opcode w0) := by
    simp only [List.length_cons, List.length_take] at hl ⊢; omega
  rw [hn, List.drop_succ_cons]
  exact step_port hsplit hlen

/-- Settles O7: the decoder refuses a word in a gap of the opcode map, and a step rejects it alone. -/
theorem unassignedOpcodeIsIllegal : Obligations.UnassignedOpcodeIsIllegal := by
  unfold Obligations.UnassignedOpcodeIsIllegal
  intro s w0 rest hs hp h
  have hlen : commandLength (opcode w0) = 1 := commandLength_of_unassigned h
  exact ⟨hlen, step_of_decode_error_illegal (ext := []) hs hp hlen.symm (decode_of_unassigned h)⟩

/-- Settles O8: the decoder refuses the words, and a step rejects them whole. -/
theorem reservedBitsAreIllegal : Obligations.ReservedBitsAreIllegal := by
  unfold Obligations.ReservedBitsAreIllegal
  intro s w0 ext rest hs hp hl h
  obtain ⟨e, he⟩ := decode_of_illegalFields h ext
  exact step_of_decode_error_illegal hs hp hl he

end Sys2Proof.Machine

/-! ## Runs of bit commands

A run of BIT_PUT commands writes the list of its bits, and a run of BIT_GET commands reads along the list of the bits
the input still holds (43_bitio.md R262 to R266). -/

namespace Sys2Proof.Machine

/-! ### Runs of commands -/

theorem execAll_cons {i : Instr} {is : List Instr} {s t : State} (h : exec i s = .next t) :
    execAll (i :: is) s = execAll is t := by
  rw [execAll, h]

theorem execAll_append {is js : List Instr} {s t : State} (h : execAll is s = .next t) :
    execAll (is ++ js) s = execAll js t := by
  induction is generalizing s with
  | nil => cases h; rfl
  | cons i is ih =>
    obtain ⟨u, hu, -⟩ := exec_port i s
    rw [execAll_cons hu] at h
    rw [List.cons_append, execAll_cons hu, ih h]

/-! ### Bits written -/

theorem WriterFrame.ready {s t : State} (h : WriterFrame s t) (hs : s.Ready) : t.Ready :=
  ⟨h.cfg.trans hs.1, h.fault.trans hs.2⟩

theorem putBit_output_prefix (s : State) (b : Bool) : s.output <+: (s.putBit b).output := by
  by_cases h : s.bits.wrCnt.toNat = 7
  · obtain ⟨⟨x, hx⟩, -⟩ := putBit_output_full b h
    exact ⟨[x], hx.symm⟩
  · have hlt := s.bits.wrCnt.isLt
    rw [(putBit_output_short b (by omega)).1]

theorem padBits_output_prefix (n : Nat) (s : State) : s.output <+: (s.padBits n).output := by
  induction n generalizing s with
  | zero => exact List.prefix_rfl
  | succ n ih =>
    unfold State.padBits
    split
    · exact List.prefix_rfl
    · exact (putBit_output_prefix s false).trans (ih _)

/-- put_bit for each bit of a list, the first bit first. -/
def State.putList (s : State) (bs : List Bool) : State := bs.foldl State.putBit s

theorem State.putList_nil (s : State) : s.putList [] = s := rfl

theorem State.putList_cons (s : State) (b : Bool) (bs : List Bool) : s.putList (b :: bs) = (s.putBit b).putList bs := rfl

theorem putList_frame (s : State) (bs : List Bool) : WriterFrame s (s.putList bs) := by
  induction bs generalizing s with
  | nil => exact .refl s
  | cons b bs ih => exact (putBit_frame s b).trans (ih _)

theorem putList_bitsOut (s : State) (bs : List Bool) : (s.putList bs).bitsOut = s.bitsOut ++ bs := by
  induction bs generalizing s with
  | nil => simp [State.putList_nil]
  | cons b bs ih => rw [State.putList_cons, ih, putBit_bitsOut, List.append_assoc, List.singleton_append]

theorem putList_output_prefix (s : State) (bs : List Bool) : s.output <+: (s.putList bs).output := by
  induction bs generalizing s with
  | nil => exact List.prefix_rfl
  | cons b bs ih => exact (putBit_output_prefix s b).trans (ih _)

theorem exec_bitPut_bool {s : State} (h : s.Ready) (b : Bool) :
    exec (.bitPut (if b then 1#9 else 0#9)) s = .next (s.putBit b) := by
  cases b <;> exact congrArg Host.Outcome.next (State.command_of_ready h)

theorem exec_bitFlush {s : State} (h : s.Ready) : exec .bitFlush s = .next s.flushBits :=
  congrArg Host.Outcome.next (State.command_of_ready h)

theorem execAll_bitPut {s : State} (h : s.Ready) (bs : List Bool) :
    execAll (bs.map fun b => Instr.bitPut (if b then 1#9 else 0#9)) s = .next (s.putList bs) := by
  induction bs generalizing s with
  | nil => rfl
  | cons b bs ih =>
    rw [List.map_cons, execAll_cons (exec_bitPut_bool h b), ih ((putBit_frame s b).ready h), State.putList_cons]

theorem execAll_bitPut_bitFlush {s : State} (h : s.Ready) (bs : List Bool) :
    execAll ((bs.map fun b => Instr.bitPut (if b then 1#9 else 0#9)) ++ [.bitFlush]) s =
      .next (s.putList bs).flushBits := by
  rw [execAll_append (execAll_bitPut h bs), execAll_cons (exec_bitFlush ((putList_frame s bs).ready h)), execAll]

/-! ### Whole bytes -/

/-- On a byte boundary of the writer, the bits out are those of the bytes delivered. -/
theorem bitsOut_of_boundary {s : State} (h : s.bits.wrCnt = 0#3) : s.bitsOut = s.output.flatMap byteBits := by
  simp [State.bitsOut, BitIO.pending, h]

/-- On a byte boundary of the reader, the bits to come are those of the bytes of the input. -/
theorem bitsIn_of_boundary {s : State} (h : s.bits.rdCnt = 0#4) : s.bitsIn = s.input.flatMap byteBits := by
  simp [State.bitsIn, BitIO.unread, h]

theorem length_flatMap_byteBits (bytes : List Byte) : (bytes.flatMap byteBits).length = 8 * bytes.length := by
  simp [byteBits, List.length_flatMap, Nat.mul_comm]

/-- Bits written from a byte boundary and flushed are delivered as whole bytes: those bits, and fewer than eight pad
zeros after them (43_bitio.md R263). -/
theorem flushed_putList_bytes {s : State} (h : s.bits.wrCnt = 0#3) (bs : List Bool) :
    ∃ bytes pad, (s.putList bs).flushBits.output = s.output ++ bytes ∧ pad < 8 ∧
      bytes.flatMap byteBits = bs ++ List.replicate pad false := by
  obtain ⟨bytes, hout⟩ := (putList_output_prefix s bs).trans (padBits_output_prefix 7 (s.putList bs))
  obtain ⟨hbits, hcnt⟩ := padBits_bitsOut 7 (s.putList bs) (by omega)
  refine ⟨bytes, (8 - (s.putList bs).bits.wrCnt.toNat) % 8, hout.symm, Nat.mod_lt _ (by omega), ?_⟩
  rw [bitsOut_of_boundary hcnt, ← hout, putList_bitsOut, bitsOut_of_boundary h, List.flatMap_append,
    List.append_assoc] at hbits
  exact List.append_cancel_left hbits

/-! ### Bits read -/

theorem ReaderFrame.ready {s t : State} (h : ReaderFrame s t) (hs : s.Ready) : t.Ready :=
  ⟨h.cfg.trans hs.1, h.fault.trans hs.2⟩

/-- With a bit left, BIT_GET answers it and leaves the others to be read (43_bitio.md R272). -/
theorem exec_bitGet_cons {s : State} (h : s.Ready) (hc : s.bits.rdCnt.toNat ≤ 8) (he : s.dec.eof = false) {b : Bool}
    {rest : List Bool} (hb : s.bitsIn = b :: rest) :
    ∃ t, exec .bitGet s = .next t ∧ t.result = (if b then 1#64 else 0#64) ∧ t.Ready ∧ t.bits.rdCnt.toNat ≤ 8 ∧
      t.dec.eof = false ∧ t.bitsIn = rest := by
  obtain ⟨hbit, hrest, heof, hcnt⟩ := getBit_cons hc he hb
  refine ⟨_, congrArg Host.Outcome.next (State.command_of_ready h), ?_, (getBit_frame s).ready h, hcnt, heof, hrest⟩
  simp [heof, hbit, flag64]

/-- BIT_GET `n + 1` times ends with bit `n` of the bits to come. -/
theorem execAll_bitGet {s : State} (h : s.Ready) (hc : s.bits.rdCnt.toNat ≤ 8) (he : s.dec.eof = false) {n : Nat}
    {b : Bool} (hb : s.bitsIn[n]? = some b) :
    ∃ t, execAll (List.replicate (n + 1) .bitGet) s = .next t ∧ t.result = if b then 1#64 else 0#64 := by
  induction n generalizing s with
  | zero =>
    obtain ⟨rest, hrest⟩ := List.head?_eq_some_iff.1 (List.head?_eq_getElem?.trans hb)
    obtain ⟨t, ht, hres, -⟩ := exec_bitGet_cons h hc he hrest
    exact ⟨t, execAll_cons ht, hres⟩
  | succ n ih =>
    cases hs : s.bitsIn with
    | nil => simp [hs] at hb
    | cons c rest =>
      obtain ⟨t, ht, -, hready, hcnt, heof, hrest⟩ := exec_bitGet_cons h hc he hs
      obtain ⟨u, hu, hres⟩ := ih hready hcnt heof (by rwa [hrest, ← List.getElem?_cons_succ, ← hs])
      exact ⟨u, (execAll_cons ht).trans hu, hres⟩

/-- Settles O52: what is delivered spells the bits and the pad zeros, and BIT_GET reads along any input that begins
with it. -/
theorem writtenBitsReadBack : Obligations.WrittenBitsReadBack := by
  unfold Obligations.WrittenBitsReadBack
  intro s bs hs hw
  obtain ⟨bytes, pad, hout, hpad, hbytes⟩ := flushed_putList_bytes hw bs
  refine ⟨_, bytes, pad, execAll_bitPut_bitFlush hs bs, hout, hpad, ?_, ?_⟩
  · rw [← length_flatMap_byteBits, hbytes, List.length_append, List.length_replicate]
  · intro r rest hr hcnt heof hin n b hb
    have hbits : r.bitsIn = (bs ++ List.replicate pad false) ++ rest.flatMap byteBits := by
      rw [bitsIn_of_boundary hcnt, hin, List.flatMap_append, hbytes]
    have hlt := (List.getElem?_eq_some_iff.1 hb).1
    exact execAll_bitGet hr (by simp [hcnt]) heof (by rw [hbits, List.getElem?_append_left hlt, hb])

end Sys2Proof.Machine

/-! ## What the decoder accepts

Each format accepts exactly the words its encoder writes (30_encoding.md R92 to R97); the two directions of each lemma
serve the two round trips. -/

namespace Sys2Proof

/-- A concatenation is known by its two parts. -/
theorem eq_append_iff {m n : Nat} {x : BitVec (m + n)} {a : BitVec m} {b : BitVec n} :
    x = a ++ b ↔ x.extractLsb' n m = a ∧ x.extractLsb' 0 n = b := by
  constructor
  · rintro rfl
    exact ⟨BitVec.extractLsb'_append_eq_left, BitVec.extractLsb'_append_eq_right⟩
  · rintro ⟨rfl, rfl⟩
    rw [BitVec.extractLsb'_append_extractLsb'_eq_extractLsb' (Nat.zero_add n).symm, BitVec.extractLsb'_eq_self]

/-- A first word is known by the 24 bits below its opcode. -/
theorem eq_firstWord_iff {w0 : Word} {low : BitVec 24} :
    w0 = firstWord (opcode w0) low ↔ w0.extractLsb' 0 24 = low :=
  (eq_append_iff (m := 8) (n := 24)).trans (and_iff_right rfl)

/-- The low 24 bits of a first word whose upper `m` bits are reserved. -/
theorem low_eq_zero_append_iff {m n : Nat} {w0 : Word} {x : BitVec n} (hmn : m + n ≤ 24) :
    (w0.extractLsb' 0 24).extractLsb' 0 (m + n) = 0#m ++ x ↔
      w0.extractLsb' n m = 0#m ∧ w0.extractLsb' 0 n = x := by
  rw [BitVec.extractLsb'_extractLsb'_of_le (by omega), eq_append_iff,
    BitVec.extractLsb'_extractLsb'_of_le (by omega), BitVec.extractLsb'_extractLsb'_of_le (by omega)]

/-- The configuration word of INIT is known by its four fields. -/
theorem eq_configFields_iff {w1 : Word} {o : BitVec 4} {b : BitVec 12} {boot adapt : BitVec 8} :
    w1 = (o ++ b) ++ (boot ++ adapt) ↔ w1.extractLsb' 28 4 = o ∧ w1.extractLsb' 16 12 = b ∧
      w1.extractLsb' 8 8 = boot ∧ w1.extractLsb' 0 8 = adapt := by
  rw [eq_append_iff (m := 16) (n := 16), eq_append_iff (m := 4) (n := 12), eq_append_iff (m := 8) (n := 8)]
  have hhigh {start len : Nat} (h : start + len ≤ 16) :
      (w1.extractLsb' 16 16).extractLsb' start len = w1.extractLsb' (16 + start) len :=
    BitVec.eq_of_getLsbD_eq fun i hi => by simp [hi, show start + i < 16 by omega, Nat.add_assoc]
  rw [hhigh (by omega), hhigh (by omega), BitVec.extractLsb'_extractLsb'_of_le (by omega),
    BitVec.extractLsb'_extractLsb'_of_le (by omega)]
  exact and_assoc

section Formats

variable {mnemonic : String} {w0 w1 w2 : Word} {j : Instr}

theorem formatN_ok_iff {i : Instr} : formatN mnemonic i w0 = .ok j ↔ [w0] = encodeN (opcode w0) ∧ i = j := by
  simp only [encodeN, List.cons.injEq, and_true, eq_firstWord_iff]
  unfold formatN; split <;> simp [*]

theorem formatS_ok_iff {f : BitVec 9 → Instr} :
    formatS mnemonic f w0 = .ok j ↔ ∃ sym, [w0] = encodeS (opcode w0) sym ∧ f sym = j := by
  have hlow (sym : BitVec 9) := low_eq_zero_append_iff (m := 15) (w0 := w0) (x := sym) (by omega)
  simp only [BitVec.extractLsb'_eq_self] at hlow
  simp only [encodeS, List.cons.injEq, and_true, eq_firstWord_iff, hlow]
  unfold formatS; split <;> simp [*]

theorem formatO_ok_iff {f : BitVec 4 → Instr} :
    formatO mnemonic f w0 = .ok j ↔ ∃ ordf, [w0] = encodeO (opcode w0) ordf ∧ f ordf = j := by
  have hlow (ordf : BitVec 4) := low_eq_zero_append_iff (m := 20) (w0 := w0) (x := ordf) (by omega)
  simp only [BitVec.extractLsb'_eq_self] at hlow
  simp only [encodeO, List.cons.injEq, and_true, eq_firstWord_iff, hlow]
  unfold formatO; split <;> simp [*]

theorem formatI_ok_iff {f : BitVec 24 → Instr} :
    formatI f w0 = .ok j ↔ ∃ idx, [w0] = encodeI (opcode w0) idx ∧ f idx = j := by
  simp [encodeI, eq_firstWord_iff, formatI]

theorem formatC_ok_iff {f : BitVec 4 → BitVec 12 → BitVec 8 → BitVec 8 → Instr} :
    formatC mnemonic f w0 w1 = .ok j ↔
      ∃ o b boot adapt, [w0, w1] = encodeC (opcode w0) o b boot adapt ∧ f o b boot adapt = j := by
  simp only [encodeC, List.cons.injEq, and_true, eq_firstWord_iff, eq_configFields_iff]
  unfold formatC; split <;> simp [*]

theorem formatK_ok_iff {f : BitVec 64 → Instr} :
    formatK mnemonic f w0 w1 w2 = .ok j ↔ ∃ arg, [w0, w1, w2] = encodeK (opcode w0) arg ∧ f arg = j := by
  have harg (arg : BitVec 64) : w1 = arg.extractLsb' 32 32 ∧ w2 = arg.extractLsb' 0 32 ↔ arg = w1 ++ w2 := by
    rw [eq_append_iff (m := 32) (n := 32), eq_comm, @eq_comm _ w2]
  simp only [encodeK, List.cons.injEq, and_true, eq_firstWord_iff, harg]
  unfold formatK; split <;> simp [*]

theorem formatKI_ok_iff {legal : BitVec 2 → Bool} {f : BitVec 2 → BitVec 64 → Instr} :
    formatKI mnemonic legal f w0 w1 w2 = .ok j ↔
      ∃ sel arg, legal sel = true ∧ [w0, w1, w2] = encodeKI (opcode w0) sel arg ∧ f sel arg = j := by
  have harg (arg : BitVec 64) : w1 = arg.extractLsb' 32 32 ∧ w2 = arg.extractLsb' 0 32 ↔ arg = w1 ++ w2 := by
    rw [eq_append_iff (m := 32) (n := 32), eq_comm, @eq_comm _ w2]
  have hlow (sel : BitVec 2) := low_eq_zero_append_iff (m := 22) (w0 := w0) (x := sel) (by omega)
  simp only [BitVec.extractLsb'_eq_self] at hlow
  simp only [encodeKI, List.cons.injEq, and_true, eq_firstWord_iff, harg, hlow]
  unfold formatKI
  split
  · split <;> simp_all
  · simp_all

end Formats
/-! ### Words to command -/

theorem eq_ofNat_of_toNat_eq {op : BitVec 8} {n : Nat} (h : op.toNat = n) : op = BitVec.ofNat 8 n := by
  simp [← h]

section Words

variable {w0 w1 w2 : Word} {i : Instr}

theorem encode_of_decodeOne (h : decodeOne w0 = .ok i) : i.wellFormed = true ∧ encode i = [w0] := by
  unfold decodeOne at h
  split at h <;> rename_i hop
  case h_23 => cases h
  case h_2 | h_3 | h_4 | h_5 | h_6 =>
    obtain ⟨idx, hw, rfl⟩ := formatI_ok_iff.1 h
    rw [eq_ofNat_of_toNat_eq hop] at hw
    exact ⟨rfl, hw.symm⟩
  case h_10 =>
    obtain ⟨ordf, hw, rfl⟩ := formatO_ok_iff.1 h
    rw [eq_ofNat_of_toNat_eq hop] at hw
    exact ⟨rfl, hw.symm⟩
  case h_11 | h_13 | h_18 | h_21 =>
    obtain ⟨sym, hw, rfl⟩ := formatS_ok_iff.1 h
    rw [eq_ofNat_of_toNat_eq hop] at hw
    exact ⟨rfl, hw.symm⟩
  all_goals
    obtain ⟨hw, rfl⟩ := formatN_ok_iff.1 h
    rw [eq_ofNat_of_toNat_eq hop] at hw
    exact ⟨rfl, hw.symm⟩

theorem encode_of_decodeTwo (h : decodeTwo w0 w1 = .ok i) : i.wellFormed = true ∧ encode i = [w0, w1] := by
  unfold decodeTwo at h
  split at h <;> rename_i hop
  case h_2 => cases h
  obtain ⟨o, b, boot, adapt, hw, rfl⟩ := formatC_ok_iff.1 h
  rw [eq_ofNat_of_toNat_eq hop] at hw
  exact ⟨rfl, hw.symm⟩

theorem encode_of_decodeThree (h : decodeThree w0 w1 w2 = .ok i) :
    i.wellFormed = true ∧ encode i = [w0, w1, w2] := by
  unfold decodeThree at h
  split at h <;> rename_i hop
  case h_8 => cases h
  case h_5 | h_6 | h_7 =>
    obtain ⟨sel, arg, hsel, hw, rfl⟩ := formatKI_ok_iff.1 h
    rw [eq_ofNat_of_toNat_eq hop] at hw
    exact ⟨hsel, hw.symm⟩
  all_goals
    obtain ⟨arg, hw, rfl⟩ := formatK_ok_iff.1 h
    rw [eq_ofNat_of_toNat_eq hop] at hw
    exact ⟨rfl, hw.symm⟩

end Words

/-- The words the decoder accepts are those of the command it answers (30_encoding.md R92 to R101). -/
theorem encode_of_decode {ws : List Word} {i : Instr} (h : decode ws = .ok i) :
    i.wellFormed = true ∧ encode i = ws := by
  match ws with
  | [] => cases h
  | [w0] =>
    rw [decode] at h
    split at h
    · exact encode_of_decodeOne h
    · cases h
  | [w0, w1] => exact encode_of_decodeTwo h
  | [w0, w1, w2] => exact encode_of_decodeThree h
  | _ :: _ :: _ :: _ :: _ => cases h

/-! ### Command to words -/

section FirstWord

variable {mnemonic : String} {op : BitVec 8}

@[simp] theorem formatN_firstWord (i : Instr) : formatN mnemonic i (firstWord op 0#24) = .ok i :=
  formatN_ok_iff.2 ⟨by rw [opcode_firstWord]; rfl, rfl⟩

@[simp] theorem formatS_firstWord (f : BitVec 9 → Instr) (sym : BitVec 9) :
    formatS mnemonic f (firstWord op (0#15 ++ sym)) = .ok (f sym) :=
  formatS_ok_iff.2 ⟨sym, by rw [opcode_firstWord]; rfl, rfl⟩

@[simp] theorem formatO_firstWord (f : BitVec 4 → Instr) (ordf : BitVec 4) :
    formatO mnemonic f (firstWord op (0#20 ++ ordf)) = .ok (f ordf) :=
  formatO_ok_iff.2 ⟨ordf, by rw [opcode_firstWord]; rfl, rfl⟩

@[simp] theorem formatI_firstWord (f : BitVec 24 → Instr) (idx : BitVec 24) :
    formatI f (firstWord op idx) = .ok (f idx) :=
  formatI_ok_iff.2 ⟨idx, by rw [opcode_firstWord]; rfl, rfl⟩

theorem formatC_firstWord (f : BitVec 4 → BitVec 12 → BitVec 8 → BitVec 8 → Instr) (o : BitVec 4)
    (b : BitVec 12) (boot adapt : BitVec 8) :
    formatC mnemonic f (firstWord op 0#24) ((o ++ b) ++ (boot ++ adapt)) = .ok (f o b boot adapt) :=
  formatC_ok_iff.2 ⟨o, b, boot, adapt, by rw [opcode_firstWord]; rfl, rfl⟩

@[simp] theorem formatK_firstWord (f : BitVec 64 → Instr) (arg : BitVec 64) :
    formatK mnemonic f (firstWord op 0#24) (arg.extractLsb' 32 32) (arg.extractLsb' 0 32) = .ok (f arg) :=
  formatK_ok_iff.2 ⟨arg, by rw [opcode_firstWord]; rfl, rfl⟩

theorem formatKI_firstWord {legal : BitVec 2 → Bool} (f : BitVec 2 → BitVec 64 → Instr) {sel : BitVec 2}
    (h : legal sel = true) (arg : BitVec 64) :
    formatKI mnemonic legal f (firstWord op (0#22 ++ sel)) (arg.extractLsb' 32 32) (arg.extractLsb' 0 32) =
      .ok (f sel arg) :=
  formatKI_ok_iff.2 ⟨sel, arg, h, by rw [opcode_firstWord]; rfl, rfl⟩

end FirstWord

theorem decode_one {op : BitVec 8} (low : BitVec 24) (h : commandLength op = 1) :
    decode [firstWord op low] = decodeOne (firstWord op low) := by
  rw [decode, opcode_firstWord, if_pos h]

/-- The decoder reads every well-formed command back from its words (30_encoding.md R92 to R98). -/
theorem decode_encode {i : Instr} (h : i.wellFormed = true) : decode (encode i) = .ok i := by
  cases i
  case rdReg | rdDist | rdDchk | rdExcl | rdWin =>
    rw [encode, encodeI, decode_one _ rfl]
    simp [decodeOne]
  case mdlDist =>
    rw [encode, encodeO, decode_one _ rfl]
    simp [decodeOne]
  case mdlUpdate | encSym | bitPut | rawPut =>
    rw [encode, encodeS, decode_one _ rfl]
    simp [decodeOne]
  case init =>
    rw [encode, encodeC, decode, decodeTwo, opcode_firstWord]
    exact formatC_firstWord _ _ _ _ _
  case tblContains | tblCount | tblInsert | tblSeen =>
    rw [encode, encodeK, decode]
    simp [decodeThree]
  case tblFollower | tblPeek | tblHash =>
    rw [encode, encodeKI, decode, decodeThree, opcode_firstWord]
    exact formatKI_firstWord _ h _
  all_goals
    rw [encode, encodeN, decode_one _ rfl]
    simp [decodeOne]

/-! ## The statements on the encoding -/

/-- Settles O1: every format reads back the word its encoder writes, and the opcode selects that format. -/
theorem decodeOfEncode : Obligations.DecodeOfEncode := by
  unfold Obligations.DecodeOfEncode
  exact fun i h => decode_encode h

/-- Settles O2: a format accepts only the words its encoder writes, so no bit of an accepted word is free. -/
theorem encodeOfDecode : Obligations.EncodeOfDecode := by
  unfold Obligations.EncodeOfDecode
  exact fun ws i h => encode_of_decode h

/-- Settles O3: each list of words is the encoding of its command. -/
theorem wordsDecodeAsWritten : Obligations.WordsDecodeAsWritten := by
  unfold Obligations.WordsDecodeAsWritten
  refine ⟨?_, ?_, ?_, ?_, ?_, ?_, ?_, ?_, ?_, ?_, ?_⟩ <;> decide

end Sys2Proof

/-! ## The common checks, command by command

What every command but NOP and INIT does while a fault is recorded and before INIT (60_exceptions.md R304, R305), and
what the commands that run can record. -/

namespace Sys2Proof.Machine

section CommonChecks

variable {i : Instr} {s : State}

/-- While a fault is recorded every command but INIT is discarded. -/
theorem exec_of_fault (hf : s.fault = true) (hi : ∀ o b boot adapt, i ≠ .init o b boot adapt) :
    exec i s = .next s := by
  cases i
  case nop => rfl
  case init o b boot adapt => exact absurd rfl (hi o b boot adapt)
  case tblPeek | tblHash => exact congrArg Host.Outcome.next (State.commandSel_of_fault hf _)
  all_goals exact congrArg Host.Outcome.next (State.command_of_fault hf)

/-- Before INIT every well-formed command but NOP and INIT faults NOT_CONFIGURED. -/
theorem exec_of_unconfigured (hf : s.fault = false) (hc : s.cfg = false) (hw : i.wellFormed = true) (hn : i ≠ .nop)
    (hi : ∀ o b boot adapt, i ≠ .init o b boot adapt) : exec i s = .next (s.raise .notConfigured) := by
  cases i
  case nop => exact absurd rfl hn
  case init o b boot adapt => exact absurd rfl (hi o b boot adapt)
  case tblPeek sel slot =>
    rw [exec, execTblPeek, show peekSelLegal sel = true from hw, State.commandSel_legal,
      State.command_of_unconfigured hf hc]
  case tblHash sel key =>
    rw [exec, execTblHash, show hashSelLegal sel = true from hw, State.commandSel_legal,
      State.command_of_unconfigured hf hc]
  all_goals exact congrArg Host.Outcome.next (State.command_of_unconfigured hf hc)

end CommonChecks

/-! ### Frames of the composite operations -/

theorem flushBits_frame (s : State) : WriterFrame s s.flushBits := padBits_frame _ s

theorem countFollow_frame (s : State) : EncoderFrame s s.countFollow := by constructor <;> rfl

theorem encFinishBits_frame (s : State) : EncoderFrame s s.encFinishBits :=
  (countFollow_frame s).trans ((bitPlusFollow_frame _ _).trans (flushBits_frame _).encoder)

theorem primeBits_frame (n : Nat) (s : State) : DecoderFrame s (State.primeBits n s) := by
  induction n generalizing s with
  | zero => exact .refl s
  | succ n ih =>
    exact (getBit_frame s).decoder.trans ((by constructor <;> rfl : DecoderFrame _ (State.setDec _ _)).trans (ih _))

theorem trailerByte_frame (s : State) : DecoderFrame s s.trailerByte.2 := by
  unfold State.trailerByte
  split
  · exact .refl s
  · cases hi : s.input with
    | nil => rw [State.inByte_nil hi]; constructor <;> rfl
    | cons x xs => rw [State.inByte_cons hi]; constructor <;> rfl

theorem trailerBytes_frame (n : Nat) (w : BitVec 32) (s : State) :
    DecoderFrame s (State.trailerBytes n w s).2 := by
  induction n generalizing w s with
  | zero => exact .refl s
  | succ n ih => exact (trailerByte_frame s).trans (ih _ _)

/-- Only the fault record can change at the end of DEC_START, DEC_SYM and DEC_TRAILER (60_exceptions.md R303). -/
theorem State.checkTruncated_eq (s : State) :
    s.checkTruncated = { s with fault := s.fault || s.dec.eof, fcode := if s.dec.eof then 10#4 else s.fcode } := by
  rcases s.checkTruncated_cases with ⟨he, h⟩ | ⟨he, h⟩ <;> rw [h] <;> simp [he, State.raise_eq, faultNumber]

/-- What an update changes (41_modeller.md R196). -/
theorem update_eq (s : State) (c : Byte) :
    s.update c = { s with table := (s.update c).table, model := (s.update c).model, draws := (s.update c).draws } := by
  have h := congrArg (fun u => u.setModel (u.model.advance c)) (updateSteps_frame s c).others
  exact h

/-! ### What a command records -/

/-- The three commands that can record TRUNCATED (60_exceptions.md R303). -/
def CanTruncate (i : Instr) : Prop := i = .decStart ∨ i = .decSym ∨ i = .decTrailer

/-- The fault record after an effect: as it was, cleared (INIT), or TRUNCATED at the end of the input. -/
def FaultEffect (i : Instr) (s t : State) : Prop :=
  (t.fault = s.fault ∧ t.fcode = s.fcode) ∨ (t.fault = false ∧ t.fcode = 0#4) ∨
    (CanTruncate i ∧ t.fault = true ∧ t.fcode = 10#4 ∧ t.dec.eof = true)

theorem faultEffect_checkTruncated {i : Instr} {s t : State} (hi : CanTruncate i) (hf : t.fault = s.fault)
    (hc : t.fcode = s.fcode) : FaultEffect i s t.checkTruncated := by
  rcases t.checkTruncated_cases with ⟨he, h⟩ | ⟨-, h⟩ <;> rw [h]
  · exact .inr (.inr ⟨hi, rfl, rfl, he⟩)
  · exact .inl ⟨hf, hc⟩

theorem Effect.fault_cases {i : Instr} {s t : State} (h : Effect i s t) : FaultEffect i s t := by
  cases h with
  | init => exact .inr (.inl ⟨rfl, rfl⟩)
  | mdlUpdate => rw [update_eq]; exact .inl ⟨rfl, rfl⟩
  | encSym => exact .inl ⟨(encodeInterval_frame s _ _ _).fault, (encodeInterval_frame s _ _ _).fcode⟩
  | encFinish => exact .inl ⟨(encFinishBits_frame s).fault, (encFinishBits_frame s).fcode⟩
  | @decStart _ p _ prime =>
    have hf : p.fault = s.fault ∧ p.fcode = s.fcode := by
      rw [prime, (primeBits_frame 32 _).fault, (primeBits_frame 32 _).fcode]
      exact ⟨rfl, rfl⟩
    exact faultEffect_checkTruncated (.inl rfl) hf.1 hf.2
  | decSym =>
    have hf := decodeInterval_frame s
    exact faultEffect_checkTruncated (.inr (.inl rfl)) (hf _ _ _).fault (hf _ _ _).fcode
  | decTrailer _ bytes =>
    subst bytes
    have hf := trailerBytes_frame
    exact faultEffect_checkTruncated (.inr (.inr rfl)) (hf _ _ s).fault (hf _ _ s).fcode
  | bitPut => exact .inl ⟨(putBit_frame s _).fault, (putBit_frame s _).fcode⟩
  | bitFlush => exact .inl ⟨(flushBits_frame s).fault, (flushBits_frame s).fcode⟩
  | bitGet => exact .inl ⟨(getBit_frame s).fault, (getBit_frame s).fcode⟩
  | _ => exact .inl ⟨rfl, rfl⟩

/-! ## The statements on the command cycle and on faults -/

/-- Settles O4: the port hands over exactly the words the decoder accepts. -/
theorem stepRunsTheDecodedCommand : Obligations.StepRunsTheDecodedCommand := by
  unfold Obligations.StepRunsTheDecodedCommand
  intro s ws rest i hd hp
  obtain ⟨w0, ext, rfl⟩ := List.exists_cons_of_ne_nil (decode_ne_nil hd)
  exact step_of_decode_ok hp hd

/-- Settles O5: the port hands over nothing before the whole command is there. -/
theorem stepWaitsForAWholeCommand : Obligations.StepWaitsForAWholeCommand := by
  unfold Obligations.StepWaitsForAWholeCommand
  intro s h
  simp only [step, fetchCommand_eq_none.2 h]

/-- Settles O9: the common checks discard a command, and `rejectWords` does so for words of none but INIT's. -/
theorem recordedFaultDiscardsCommands : Obligations.RecordedFaultDiscardsCommands := by
  unfold Obligations.RecordedFaultDiscardsCommands
  refine ⟨fun i s => exec_of_fault, fun s w0 ext rest hf hp hl => ⟨fun hop => ?_, fun hop hlow => ?_⟩⟩
  · cases hd : decode (w0 :: ext) with
    | ok i =>
      rw [step_of_decode_ok hp hd]
      refine exec_of_fault hf fun o b boot adapt hi => hop ?_
      subst hi
      have hw0 : w0 = firstWord 0x01#8 0#24 := (List.cons.inj (encode_of_decode hd).2).1.symm
      rw [hw0, opcode_firstWord]
    | error e =>
      rw [step_of_decode_error hp hl hd, State.rejectWords, if_pos (by simp [hf, hop])]
      rfl
  · obtain ⟨e, hd⟩ := decode_of_illegalFields (w0 := w0) (.inl ⟨by simp [hop], hlow⟩) ext
    rw [step_of_decode_error hp hl hd, State.rejectWords, if_neg (by simp [hop])]
    rfl

/-- Settles O10: the common checks refuse every command before INIT. -/
theorem unconfiguredCommandsFault : Obligations.UnconfiguredCommandsFault := by
  unfold Obligations.UnconfiguredCommandsFault
  exact fun i s hf hc hw hn hi => exec_of_unconfigured hf hc hw hn hi

/-- Settles O11: `Outcome` tells a precise fault from an effect, and an effect records TRUNCATED at most. -/
theorem faultsArePrecise : Obligations.FaultsArePrecise := by
  unfold Obligations.FaultsArePrecise
  intro i s t he hf
  rcases exec_cases he with ⟨rfl, -⟩ | ⟨c, hc, rfl⟩ | ⟨heff, hready⟩
  · exact ⟨fun _ => by rw [← hf], fun hs => absurd hf (by simp [hs])⟩
  · exact ⟨fun _ => rfl, fun _ h10 => absurd ((faultNumber_eq_ten c).1 h10) hc⟩
  · rcases heff.fault_cases with ⟨hfault, -⟩ | ⟨hfault, -⟩ | ⟨hi, -, hcode, heof⟩
    · rcases hready with ⟨o, b, boot, adapt, rfl⟩ | hready
      · cases heff; cases hf
      · rw [hfault, hready.2] at hf; cases hf
    · rw [hfault] at hf; cases hf
    · exact ⟨fun hne => absurd hcode hne, fun _ _ => ⟨hi, heof⟩⟩

/-- Settles O12: every other command, and every rejection, leaves a recorded fault recorded. -/
theorem onlyInitLeavesAFault : Obligations.OnlyInitLeavesAFault := by
  unfold Obligations.OnlyInitLeavesAFault
  intro s t hs hstep ht
  rcases step_cases hstep with rfl | ⟨words, rest, -, rfl | rfl⟩ | ⟨i, words, rest, hd, hp, he⟩
  · rw [hs] at ht; cases ht
  · rw [State.setPort_fault, hs] at ht; cases ht
  · cases ht
  · by_cases hi : ∃ o b boot adapt, i = .init o b boot adapt
    · obtain ⟨o, b, boot, adapt, rfl⟩ := hi
      refine ⟨o, b, boot, adapt, rest, by rw [(encode_of_decode hd).2, hp], ?_⟩
      rcases exec_cases he with ⟨rfl, -⟩ | ⟨c, -, rfl⟩ | ⟨heff, -⟩
      · rw [State.setPort_fault, hs] at ht; cases ht
      · cases ht
      · cases heff with
        | init legal fits =>
          obtain ⟨ho, ho', hb, hb', hadapt⟩ := configLegal_iff.1 legal
          exact ⟨ho, ho', hb, hb', hadapt, fits⟩
    · push Not at hi
      rw [exec_of_fault (s := s.setPort rest) hs hi] at he
      cases he
      rw [State.setPort_fault, hs] at ht; cases ht

end Sys2Proof.Machine

/-! ## Control and readback -/

namespace Sys2Proof.Machine

/-- Settles O13: STATUS is written out field by field from bit 31 down. -/
theorem statusShowsTheFlags : Obligations.StatusShowsTheFlags := by
  unfold Obligations.StatusShowsTheFlags
  intro s
  refine ⟨?_, ?_, ?_, ?_, ?_, ?_, ?_, ?_, ?_, ?_, ?_, fun hr => ?_⟩
  case refine_3 =>
    rw [State.status, BitVec.extractLsb'_append_eq_of_add_le (by omega), BitVec.extractLsb'_append_eq_of_le (by omega)]
    exact BitVec.extractLsb'_append_eq_right
  case refine_4 =>
    rw [State.status, BitVec.extractLsb'_append_eq_of_add_le (by omega), BitVec.extractLsb'_append_eq_of_le (by omega)]
    exact BitVec.extractLsb'_append_eq_left
  case refine_11 =>
    rw [State.status, BitVec.extractLsb'_append_eq_of_le (by omega), BitVec.extractLsb'_append_eq_of_le (by omega),
      BitVec.extractLsb'_append_eq_of_le (by omega)]
    exact BitVec.extractLsb'_append_eq_left
  case refine_12 => exact congrArg Host.Outcome.next (State.command_of_ready hr)
  all_goals
    simp only [State.status, BitVec.getLsbD_append]
    simp

/-- Settles O14: the opcode selects format N, which accepts the word 0 alone. -/
theorem nopChangesNothing : Obligations.NopChangesNothing := by
  unfold Obligations.NopChangesNothing
  refine ⟨by decide, fun s => rfl, fun x hx => ?_⟩
  change decode [firstWord 0x00#8 x] = _
  rw [decode_one x rfl]
  simp [decodeOne, formatN, hx]

/-- Settles O15: the checks on the fields come before the check on the memory's size. -/
theorem initRefusesBadFields : Obligations.InitRefusesBadFields := by
  unfold Obligations.InitRefusesBadFields
  intro s o b boot adapt
  have hlegal := configLegal_iff (o := o) (b := b) (adapt := adapt)
  refine ⟨fun hbad => ?_, fun hgood hfits => ?_⟩
  · have hf : configLegal o b adapt = false := by
      rw [Bool.eq_false_iff, ne_eq, hlegal]; omega
    exact congrArg Host.Outcome.next (if_pos hf)
  · have ht : ¬ configLegal o b adapt = false := by
      rw [Bool.not_eq_false, hlegal]; omega
    exact congrArg Host.Outcome.next ((if_neg ht).trans (if_pos hfits))

/-! ### INIT -/

/-- The slots below N of the table reset leaves: the root alone. -/
theorem Table.reset_read_below {t : Table} {hs : HashSel} (hn : 0 < t.n.toNat) (hm : 1 < t.m.toNat) {i : Nat}
    (hi : i < t.n.toNat) :
    (t.reset hs).key.read i = (if i = t.h1 hs root then root else 0#64) ∧
      (t.reset hs).count.read i = (if i = t.h1 hs root then 1#16 else 0#16) ∧
      (t.reset hs).fidx.read i = (if i = t.h1 hs root then 1#32 else 0#32) := by
  obtain ⟨hkey, hcount, hfidx, -⟩ := Table.reset_read (hs := hs) hn hm i
  rw [hkey, hcount, hfidx, if_pos hi, if_pos hi, if_pos hi]
  exact ⟨rfl, rfl, rfl⟩

/-- The slots from N on are as they were before the reset. -/
theorem Table.reset_read_above {t : Table} {hs : HashSel} (hn : 0 < t.n.toNat) (hm : 1 < t.m.toNat) {i : Nat}
    (hi : t.n.toNat ≤ i) :
    (t.reset hs).key.read i = t.key.read i ∧ (t.reset hs).count.read i = t.count.read i ∧
      (t.reset hs).fidx.read i = t.fidx.read i := by
  obtain ⟨hkey, hcount, hfidx, -⟩ := Table.reset_read (hs := hs) hn hm i
  have hlt : t.h1 hs root < t.n.toNat := Table.h1_lt hn
  have hne : i ≠ t.h1 hs root := by omega
  have hge : ¬ i < t.n.toNat := by omega
  simp only [hkey, hcount, hfidx, hne, hge, if_false, and_self]

/-- Settles O16: INIT is `configure`, and its table is the reset of one with the derived sizes. -/
theorem initSetsEveryRegister : Obligations.InitSetsEveryRegister := by
  unfold Obligations.InitSetsEveryRegister
  intro s o b boot adapt ho ho' hb hb' hadapt hfits
  have hlegal : configLegal o b adapt = true := configLegal_iff.2 ⟨ho, ho', hb, hb', hadapt⟩
  have hexec : exec (.init o b boot adapt) s = .next (s.configure o b boot adapt) :=
    congrArg Host.Outcome.next ((if_neg (by simp [hlegal])).trans (if_neg (by omega)))
  obtain ⟨hn, hm, hslots, hpool⟩ := tableSlots_spec hlegal
  obtain ⟨hco, hcb, hcboot, hcadapt⟩ := eq_configFields_iff.1 (rfl : configWord o b boot adapt = _)
  -- The table INIT resets: the old one, with the sizes of the new configuration.
  let sized : Table := { s.table with n := BitVec.ofNat 32 (tableSlots b), m := BitVec.ofNat 32 (poolSize b) }
  have hn0 : 0 < sized.n.toNat := by change 0 < (BitVec.ofNat 32 (tableSlots b)).toNat; omega
  have hm1 : 1 < sized.m.toNat := by change 1 < (BitVec.ofNat 32 (poolSize b)).toNat; omega
  obtain ⟨hsn, hsm⟩ := Table.reset_sizes sized s.build.hashSel
  have htable : (s.configure o b boot adapt).table = sized.reset s.build.hashSel := rfl
  have hh1 : (sized.reset s.build.hashSel).h1 s.build.hashSel root = sized.h1 s.build.hashSel root :=
    ((Table.reset_sizes sized s.build.hashSel).hash _ _).1
  have hreset := Table.reset_eq (hs := s.build.hashSel) hn0 hm1
  have hbelow {i : Nat} := Table.reset_read_below (hs := s.build.hashSel) hn0 hm1 (i := i)
  have habove {i : Nat} := Table.reset_read_above (hs := s.build.hashSel) hn0 hm1 (i := i)
  have hpools (q : Nat) := (Table.reset_read (hs := s.build.hashSel) hn0 hm1 q).2.2.2
  refine ⟨_, hexec, rfl, rfl, rfl, rfl, hco, hcb, hcboot, hcadapt, ?_, ?_, (windowSize_spec hlegal boot).1,
    adaptThreshold_spec hlegal, ?_, ?_, ?_, ?_, ?_, ?_, rfl, rfl, rfl, rfl, rfl, rfl, ?_, ?_, rfl, rfl, rfl, rfl, rfl,
    rfl, rfl, rfl, rfl, rfl, rfl⟩
  · rw [htable, hsn]; exact hn
  · rw [htable, hsm]; exact hm
  · rw [htable, hh1, hsn]
    exact fun i hi => hbelow hi
  · rw [htable, hsm]
    exact fun q hq => by rw [hpools, if_pos hq]
  · rw [htable, hsn]
    exact fun i hi => habove hi
  · rw [htable, hsm]
    exact fun q hq => by rw [hpools, if_neg (by omega)]
  · rw [htable, hreset]
  · rw [htable, hreset]
  · simp [Modeller.afterInit]
  · intro i hi
    exact (Memory.read_clearBelow _ _ _).trans (if_pos (by unfold distLen; omega))

/-! ### Readback -/

/-- Looking an index up in the numbered elements of a list. -/
theorem lookup_zipIdx {α : Type} (l : List α) (k n : Nat) :
    ((l.zipIdx k).map fun e => (e.2, e.1)).lookup n = if k ≤ n then l[n - k]? else none := by
  induction l generalizing k with
  | nil => simp
  | cons x l ih =>
    rw [List.zipIdx_cons, List.map_cons, List.lookup_cons, ih]
    rcases Nat.lt_trichotomy n k with hlt | rfl | hgt
    · simp [show (n == k) = false by simp; omega, show ¬ k ≤ n by omega, show ¬ k + 1 ≤ n by omega]
    · simp
    · obtain ⟨d, rfl⟩ : ∃ d, n = k + (d + 1) := ⟨n - (k + 1), by omega⟩
      have hne : (k + (d + 1) == k) = false := by simp
      simp [hne, show k + 1 ≤ k + (d + 1) by omega, show k + (d + 1) - (k + 1) = d by omega]

/-- The visit-list entries RD_REG names lie at selectors 0x18 to 0x1E, those that exist (44_control.md R286). -/
theorem lookup_visitSelectors (visit : List Key) (n : Nat) :
    (visitSelectors visit).lookup n = if 0x18 ≤ n ∧ n ≤ 0x1E then visit[n - 0x18]? else none := by
  rw [visitSelectors, lookup_zipIdx, List.getElem?_take]
  by_cases h : 0x18 ≤ n
  · by_cases h' : n ≤ 0x1E
    · simp [h, h', show n - 0x18 < 7 by omega]
    · simp [h, h', show ¬ n - 0x18 < 7 by omega]
  · simp [h]

/-- RD_REG's registers before the visit list (44_control.md R286). -/
def State.lowRegisters (s : State) : List (Nat × Reg) :=
  [(0x00, s.status.setWidth 64), (0x01, s.config.setWidth 64), (0x02, s.table.n.setWidth 64),
   (0x03, s.table.m.setWidth 64), (0x04, s.model.h.setWidth 64), (0x05, s.table.nextFree.setWidth 64),
   (0x06, flag64 s.table.isFull), (0x07, s.model.satCount),
   (0x10, BitVec.ofNat 64 s.model.win.length), (0x11, BitVec.ofNat 64 s.model.visit.length),
   (0x12, flag64 s.model.outscale), (0x13, s.model.sumEsc), (0x14, s.model.adaptThr.setWidth 64),
   (0x15, s.model.lastRun.setWidth 64), (0x16, s.model.latestRun.setWidth 64), (0x17, flag64 s.model.bootEn)]

/-- RD_REG's registers after the visit list (44_control.md R286). -/
def State.highRegisters (s : State) : List (Nat × Reg) :=
  [(0x20, s.enc.low), (0x21, s.enc.high), (0x22, s.enc.btf), (0x23, s.enc.outcnt), (0x24, flag64 s.enc.active),
   (0x28, s.dec.low), (0x29, s.dec.high), (0x2A, s.dec.value), (0x2B, s.dec.shifts), (0x2C, s.dec.fetched),
   (0x2D, flag64 s.dec.eof), (0x2E, flag64 s.dec.active),
   (0x30, s.bits.wrBuf.setWidth 64), (0x31, s.bits.wrCnt.setWidth 64), (0x32, s.bits.rdBuf.setWidth 64),
   (0x33, s.bits.rdCnt.setWidth 64)]

/-- The table of RD_REG, in its three parts (44_control.md R286). -/
theorem State.register_eq (s : State) (n : Nat) :
    s.register n = ((s.lowRegisters.lookup n).or
      (if 0x18 ≤ n ∧ n ≤ 0x1E then s.model.visit[n - 0x18]? else none)).or (s.highRegisters.lookup n) := by
  have hparts : s.registers = s.lowRegisters ++ visitSelectors s.model.visit ++ s.highRegisters := rfl
  rw [State.register, hparts, List.lookup_append, List.lookup_append, lookup_visitSelectors]

theorem lookup_lowRegisters_none (s : State) {n : Nat} (h : (0x08 ≤ n ∧ n ≤ 0x0F) ∨ 0x18 ≤ n) :
    s.lowRegisters.lookup n = none := by
  simp only [List.lookup_eq_none_iff, State.lowRegisters, List.forall_mem_cons, bne_iff_ne]
  simp; omega

theorem lookup_highRegisters_none (s : State) {n : Nat}
    (h : n ≤ 0x1F ∨ (0x25 ≤ n ∧ n ≤ 0x27) ∨ n = 0x2F ∨ 0x34 ≤ n) : s.highRegisters.lookup n = none := by
  simp only [List.lookup_eq_none_iff, State.highRegisters, List.forall_mem_cons, bne_iff_ne]
  simp; omega

section Readback

variable {s : State} (hr : s.Ready)

include hr

theorem exec_rdReg (sel : BitVec 24) : exec (.rdReg sel) s = .next (s.readback (s.register sel.toNat)) :=
  congrArg Host.Outcome.next (State.command_of_ready hr)

theorem exec_rdReg_some {sel : BitVec 24} {v : Reg} (h : s.register sel.toNat = some v) :
    exec (.rdReg sel) s = .next { s with result := v } := by
  rw [exec_rdReg hr, h]; rfl

theorem exec_rdReg_none {sel : BitVec 24} (h : s.register sel.toNat = none) :
    exec (.rdReg sel) s = .next { s with fault := true, fcode := 13#4 } := by
  rw [exec_rdReg hr, h]; rfl

theorem exec_rdDist_some {idx : BitVec 24} (h : idx.toNat ≤ 258) :
    exec (.rdDist idx) s = .next { s with result := (s.model.dist.read idx.toNat).setWidth 64 } := by
  rw [exec, execRdDist, State.command_of_ready hr, if_neg (by omega)]; rfl

theorem exec_rdDist_none {idx : BitVec 24} (h : 258 < idx.toNat) :
    exec (.rdDist idx) s = .next { s with fault := true, fcode := 13#4 } := by
  rw [exec, execRdDist, State.command_of_ready hr, if_pos h]; rfl

theorem exec_rdDchk (idx : BitVec 24) :
    exec (.rdDchk idx) s = .next (s.readback (bitmapReadback s.model.dchk idx.toNat)) :=
  congrArg Host.Outcome.next (State.command_of_ready hr)

theorem exec_rdExcl (idx : BitVec 24) :
    exec (.rdExcl idx) s = .next (s.readback (bitmapReadback s.model.excl idx.toNat)) :=
  congrArg Host.Outcome.next (State.command_of_ready hr)

theorem exec_rdWin (idx : BitVec 24) :
    exec (.rdWin idx) s = .next (s.readback ((s.model.win[idx.toNat]?).map fun b => b.setWidth 64)) :=
  congrArg Host.Outcome.next (State.command_of_ready hr)

end Readback

theorem getLsbD_bitmapWord (v : Bitmap) (w : Nat) {j : Nat} (hj : j < 64) :
    (bitmapWord v w).getLsbD j = v.getLsbD (64 * w + j) := by
  rw [bitmapWord, BitVec.getLsbD_extractLsb', decide_eq_true hj, Bool.true_and]

/-- Settles O17: the table of registers, with the visit list looked up by its own lemma. -/
theorem rdRegReadsTheSelectedRegister : Obligations.RdRegReadsTheSelectedRegister := by
  unfold Obligations.RdRegReadsTheSelectedRegister
  intro s hr
  refine ⟨fun sel => rfl, fun sel v hmem => exec_rdReg_some hr ?_, fun j k hj hk => exec_rdReg_some hr ?_,
    fun sel hsel => exec_rdReg_none hr ?_⟩
  · rw [State.register_eq]
    simp only [List.mem_cons, Prod.mk.injEq, List.not_mem_nil, or_false] at hmem
    rcases hmem with h | h | h | h | h | h | h | h | h | h | h | h | h | h | h | h | h | h | h | h | h | h | h | h | h |
      h | h | h | h | h | h | h <;> obtain ⟨rfl, rfl⟩ := h <;> rfl
  · have hn : (BitVec.ofNat 24 (0x18 + j)).toNat = 0x18 + j := Nat.mod_eq_of_lt (by omega)
    rw [State.register_eq, hn, lookup_lowRegisters_none s (by omega), if_pos (by omega), Nat.add_sub_cancel_left, hk]
    rfl
  · have hvisit : (if 0x18 ≤ sel.toNat ∧ sel.toNat ≤ 0x1E then s.model.visit[sel.toNat - 0x18]? else none) = none := by
      split
      · exact List.getElem?_eq_none (by omega)
      · rfl
    rw [State.register_eq, hvisit, lookup_lowRegisters_none s (by omega), lookup_highRegisters_none s (by omega)]
    rfl

/-- Settles O18: each readback finds its element or answers none. -/
theorem indexedReadbackReadsTheElement : Obligations.IndexedReadbackReadsTheElement := by
  unfold Obligations.IndexedReadbackReadsTheElement
  intro s idx hr
  refine ⟨rfl, rfl, rfl, rfl, exec_rdDist_some hr, exec_rdDist_none hr, fun h => ?_, fun h => ?_, fun h => ⟨?_, ?_⟩,
    fun c hc => ?_, fun h => ?_⟩
  · refine ⟨bitmapWord s.model.dchk idx.toNat, ?_, fun j hj => getLsbD_bitmapWord _ _ hj⟩
    rw [exec_rdDchk hr, bitmapReadback, if_neg (by omega)]; rfl
  · refine ⟨bitmapWord s.model.excl idx.toNat, ?_, fun j hj => getLsbD_bitmapWord _ _ hj⟩
    rw [exec_rdExcl hr, bitmapReadback, if_neg (by omega)]; rfl
  · rw [exec_rdDchk hr, bitmapReadback, if_pos h]; rfl
  · rw [exec_rdExcl hr, bitmapReadback, if_pos h]; rfl
  · rw [exec_rdWin hr, hc]; rfl
  · rw [exec_rdWin hr, List.getElem?_eq_none h]; rfl

end Sys2Proof.Machine

/-! ## Context keys

A key is its top byte, 0x80 with the length, over 56 bits of context (40_table.md R120, R121). -/

namespace Sys2Proof.Machine

/-! ### The fields of a key -/

/-- A key of at most seven bytes, field by field. -/
theorem mkKey_eq {n : Nat} (h : n ≤ 7) (x : BitVec 56) : mkKey n x = (8#4 ++ BitVec.ofNat 4 n) ++ x := by
  have htop : ∀ m : Fin 8, 0x80#8 ||| BitVec.ofNat 8 m = 8#4 ++ BitVec.ofNat 4 m := by decide
  exact congrArg (· ++ x) (htop ⟨n, by omega⟩)

/-- What a key is made of (40_table.md R121). -/
theorem eq_keyFields_iff {k : Key} {a b : BitVec 4} {x : BitVec 56} :
    k = (a ++ b) ++ x ↔ k.extractLsb' 60 4 = a ∧ k.extractLsb' 56 4 = b ∧ keyBytes k = x := by
  have hhigh {start len : Nat} (h : start + len ≤ 8) :
      (k.extractLsb' 56 8).extractLsb' start len = k.extractLsb' (56 + start) len :=
    BitVec.eq_of_getLsbD_eq fun i hi => by simp [hi, show start + i < 8 by omega, Nat.add_assoc]
  rw [eq_append_iff (m := 8) (n := 56), eq_append_iff (m := 4) (n := 4), hhigh (by omega), hhigh (by omega), and_assoc]
  rfl

theorem keyLen_mkKey {n : Nat} (h : n ≤ 7) (x : BitVec 56) : keyLen (mkKey n x) = n := by
  rw [keyLen, (eq_keyFields_iff.1 (mkKey_eq h x)).2.1, BitVec.toNat_ofNat]
  omega

@[simp] theorem keyBytes_mkKey (n : Nat) (x : BitVec 56) : keyBytes (mkKey n x) = x :=
  BitVec.extractLsb'_append_eq_right

/-- A key of at most seven bytes is legal when no context byte stands above its length (40_table.md R123). -/
theorem legalKey_mkKey {n : Nat} (h : n ≤ 7) (x : BitVec 56) :
    legalKey (mkKey n x) = true ↔ x >>> (8 * n) = 0#56 := by
  rw [legalKey, (eq_keyFields_iff.1 (mkKey_eq h x)).1, keyLen_mkKey h, keyBytes_mkKey]
  simp [h]

/-- A legal key is rebuilt from its length and its context bytes (40_table.md R121, R123). -/
theorem legalKey_iff {k : Key} :
    legalKey k = true ↔ keyLen k ≤ 7 ∧ keyBytes k >>> (8 * keyLen k) = 0#56 ∧ mkKey (keyLen k) (keyBytes k) = k := by
  constructor
  · intro h
    simp only [legalKey, Bool.and_eq_true, beq_iff_eq, decide_eq_true_eq] at h
    obtain ⟨⟨htag, hlen⟩, hbytes⟩ := h
    refine ⟨hlen, hbytes, ?_⟩
    rw [mkKey_eq hlen, eq_comm, eq_keyFields_iff]
    exact ⟨htag, by rw [keyLen, BitVec.ofNat_toNat, BitVec.setWidth_eq], rfl⟩
  · rintro ⟨hlen, hbytes, hk⟩
    rw [← hk, legalKey_mkKey hlen]
    exact hbytes

/-! ### The bytes of a context -/

/-- The context bytes of a list, the newest in bits 7:0 (40_table.md R120). -/
def packBytes (bytes : List Byte) : BitVec 56 := bytes.foldl (fun x b => (x <<< 8) ||| b.setWidth 56) 0#56

theorem contextKey_eq (bytes : List Byte) : contextKey bytes = mkKey bytes.length (packBytes bytes) := rfl

theorem packBytes_concat (bytes : List Byte) (c : Byte) :
    packBytes (bytes ++ [c]) = (packBytes bytes <<< 8) ||| c.setWidth 56 := by
  simp [packBytes]

theorem getLsbD_pushByte (x : BitVec 56) (c : Byte) {i : Nat} (hi : i < 56) :
    ((x <<< 8) ||| c.setWidth 56).getLsbD i = if i < 8 then c.getLsbD i else x.getLsbD (i - 8) := by
  rw [BitVec.getLsbD_or, BitVec.getLsbD_shiftLeft, BitVec.getLsbD_setWidth]
  by_cases h : i < 8
  · simp [hi, h]
  · simp [hi, h, BitVec.getLsbD_of_ge c i (by omega)]

/-- Each bit of the packed bytes is that of the byte it lies in; there is nothing above them. -/
theorem getLsbD_packBytes (bytes : List Byte) {i : Nat} (hi : i < 56) :
    (packBytes bytes).getLsbD i = ((bytes.reverse[i / 8]?).map fun b => b.getLsbD (i % 8)).getD false := by
  induction bytes using List.reverseRecOn generalizing i with
  | nil => simp [packBytes]
  | append_singleton bytes c ih =>
    rw [packBytes_concat, getLsbD_pushByte _ _ hi, List.reverse_append, List.reverse_singleton, List.singleton_append]
    by_cases h : i < 8
    · simp [h, Nat.div_eq_of_lt h, Nat.mod_eq_of_lt h]
    · obtain ⟨j, rfl⟩ : ∃ j, i = j + 8 := ⟨i - 8, by omega⟩
      simp [ih (show j < 56 by omega), show (j + 8) / 8 = j / 8 + 1 by omega]

theorem packBytes_getLsbD_above (bytes : List Byte) {i : Nat} (hi : i < 56) (h : 8 * bytes.length ≤ i) :
    (packBytes bytes).getLsbD i = false := by
  rw [getLsbD_packBytes bytes hi, List.getElem?_eq_none (by simp; omega)]
  rfl

/-- The byte at distance `j` from the newest (40_table.md R120). -/
theorem packBytes_byte {bytes : List Byte} (h7 : bytes.length ≤ 7) {j : Nat} (hj : j < bytes.length) :
    (packBytes bytes).extractLsb' (8 * j) 8 = bytes[bytes.length - 1 - j]'(by omega) := by
  refine BitVec.eq_of_getLsbD_eq fun i hi => ?_
  rw [BitVec.getLsbD_extractLsb', decide_eq_true hi, Bool.true_and, getLsbD_packBytes bytes (by omega),
    show (8 * j + i) / 8 = j by omega, show (8 * j + i) % 8 = i by omega, List.getElem?_reverse hj,
    List.getElem?_eq_getElem (by omega)]
  rfl

theorem packBytes_shift_eq_zero {bytes : List Byte} : packBytes bytes >>> (8 * bytes.length) = 0#56 := by
  refine BitVec.eq_of_getLsbD_eq fun i hi => ?_
  rw [BitVec.getLsbD_ushiftRight, BitVec.getLsbD_zero]
  by_cases h : 8 * bytes.length + i < 56
  · exact packBytes_getLsbD_above bytes h (by omega)
  · exact BitVec.getLsbD_of_ge _ _ (by omega)

theorem legalKey_contextKey {bytes : List Byte} (h : bytes.length ≤ 7) : legalKey (contextKey bytes) = true := by
  rw [contextKey_eq, legalKey_mkKey h]
  exact packBytes_shift_eq_zero

/-- Context bits with nothing above `n` bytes are the packing of `n` bytes. -/
theorem exists_packBytes {n : Nat} {x : BitVec 56} (hx : x >>> (8 * n) = 0#56) :
    ∃ bytes : List Byte, bytes.length = n ∧ packBytes bytes = x := by
  refine ⟨((List.range n).map fun j => x.extractLsb' (8 * j) 8).reverse, by simp,
    BitVec.eq_of_getLsbD_eq fun i hi => ?_⟩
  rw [getLsbD_packBytes _ hi, List.reverse_reverse, List.getElem?_map]
  by_cases h : i / 8 < n
  · rw [List.getElem?_range h]
    simp [show i % 8 < 8 by omega, show 8 * (i / 8) + i % 8 = i by omega]
  · rw [List.getElem?_eq_none (by simpa using h)]
    have hbit := congrArg (fun v => BitVec.getLsbD v (i - 8 * n)) hx
    simpa [show 8 * n + (i - 8 * n) = i by omega] using hbit

/-- Settles O19: the context bits of a key are the packed bytes of its context, and every legal key unpacks. -/
theorem legalKeysAreContextKeys : Obligations.LegalKeysAreContextKeys := by
  unfold Obligations.LegalKeysAreContextKeys
  refine ⟨fun bytes h7 => ⟨BitVec.extractLsb'_append_eq_left, fun j hj => ?_, fun i hlow hi => ?_⟩, fun k => ⟨?_, ?_⟩,
    by decide⟩
  · rw [contextKey_eq, mkKey, BitVec.extractLsb'_append_eq_of_add_le (by omega)]
    exact packBytes_byte h7 hj
  · rw [contextKey_eq, mkKey, BitVec.getLsbD_append, if_pos hi]
    exact packBytes_getLsbD_above bytes hi hlow
  · intro h
    obtain ⟨hlen, hbytes, hk⟩ := legalKey_iff.1 h
    obtain ⟨bytes, hn, hx⟩ := exists_packBytes hbytes
    exact ⟨bytes, by omega, by rw [contextKey_eq, hn, hx, hk]⟩
  · rintro ⟨bytes, h7, rfl⟩
    exact legalKey_contextKey h7

/-! ### Parent and child -/

section Child

variable {p : Key} (hp : legalKey p = true) (h6 : keyLen p ≤ 6)

theorem keyLen_childKey (h6 : keyLen p ≤ 6) (c : Byte) : keyLen (childKey p c) = keyLen p + 1 :=
  keyLen_mkKey (by omega) _

theorem keyBytes_childKey (p : Key) (c : Byte) : keyBytes (childKey p c) = (keyBytes p <<< 8) ||| c.setWidth 56 :=
  keyBytes_mkKey _ _

include hp

/-- The child of a context of at most six bytes is the context with the byte at its end (40_table.md R122). -/
theorem exists_contextKey_child (c : Byte) :
    ∃ bytes : List Byte, bytes.length = keyLen p ∧ p = contextKey bytes ∧
      childKey p c = contextKey (bytes ++ [c]) := by
  obtain ⟨-, hbytes, hk⟩ := legalKey_iff.1 hp
  obtain ⟨bytes, hn, hx⟩ := exists_packBytes hbytes
  refine ⟨bytes, hn, by rw [contextKey_eq, hn, hx, hk], ?_⟩
  rw [contextKey_eq, packBytes_concat, hx, List.length_append, hn]
  rfl

include h6

theorem legalKey_childKey (c : Byte) : legalKey (childKey p c) = true := by
  obtain ⟨bytes, hn, -, hc⟩ := exists_contextKey_child hp c
  rw [hc]
  exact legalKey_contextKey (by simp; omega)

theorem parentKey_childKey (c : Byte) : parentKey (childKey p c) = p := by
  obtain ⟨-, hbytes, hk⟩ := legalKey_iff.1 hp
  have hshift : ((keyBytes p <<< 8) ||| c.setWidth 56) >>> 8 = keyBytes p := by
    refine BitVec.eq_of_getLsbD_eq fun i hi => ?_
    rw [BitVec.getLsbD_ushiftRight]
    by_cases h : 8 + i < 56
    · rw [getLsbD_pushByte _ _ h, if_neg (by omega), Nat.add_sub_cancel_left]
    · have hbit := congrArg (fun v => BitVec.getLsbD v (i - 8 * keyLen p)) hbytes
      rw [BitVec.getLsbD_of_ge _ _ (by omega)]
      simpa [show 8 * keyLen p + (i - 8 * keyLen p) = i by omega] using hbit.symm
  rw [parentKey, keyLen_childKey h6, keyBytes_childKey, hshift, Nat.add_sub_cancel, hk]

end Child

theorem trailingByte_childKey (p : Key) (c : Byte) : trailingByte (childKey p c) = c.toNat := by
  rw [trailingByte, childKey, mkKey, BitVec.extractLsb'_append_eq_of_add_le (by omega)]
  congr 1
  refine BitVec.eq_of_getLsbD_eq fun i hi => ?_
  rw [BitVec.getLsbD_extractLsb', decide_eq_true hi, Bool.true_and, Nat.zero_add, getLsbD_pushByte _ _ (by omega),
    if_pos hi]

/-- Settles O20: a legal parent is the key of a context, and its child is that context with the byte at its end. -/
theorem parentOfChild : Obligations.ParentOfChild := by
  unfold Obligations.ParentOfChild
  intro p c hp h6
  refine ⟨parentKey_childKey hp h6 c, legalKey_childKey hp h6 c, keyLen_childKey h6 c, trailingByte_childKey p c,
    fun bytes hbytes => ?_⟩
  rw [contextKey_eq, childKey, keyLen_mkKey (by omega), keyBytes_mkKey, contextKey_eq, packBytes_concat,
    List.length_append, List.length_singleton]

/-! ## Hashes -/

/-- Byte `j` of a value with its halves swapped. -/
theorem keyByte_swap (k : Key) {j : Nat} (hj : j < 4) :
    keyByte (k.extractLsb' 0 32 ++ k.extractLsb' 32 32) j = keyByte k (j + 4) ∧
      keyByte (k.extractLsb' 0 32 ++ k.extractLsb' 32 32) (j + 4) = keyByte k j := by
  unfold keyByte
  constructor
  · rw [BitVec.extractLsb'_append_eq_of_add_le (by omega)]
    congr 1
    refine BitVec.eq_of_getLsbD_eq fun i hi => ?_
    simp [hi, show 8 * j + i < 32 by omega]
    congr 1; omega
  · rw [BitVec.extractLsb'_append_eq_of_le (by omega), BitVec.extractLsb'_extractLsb'_of_le (by omega)]
    rw [show 8 * (j + 4) - 32 = 8 * j by omega]

/-- H2 of the CRC-32C pair is H1 of the value with its halves swapped (40_table.md R125). -/
theorem crcHash2_eq (k : Key) : crcHash2 k = crcHash1 (k.extractLsb' 0 32 ++ k.extractLsb' 32 32) := by
  have h0 := keyByte_swap k (j := 0) (by omega)
  have h1 := keyByte_swap k (j := 1) (by omega)
  have h2 := keyByte_swap k (j := 2) (by omega)
  have h3 := keyByte_swap k (j := 3) (by omega)
  simp only [Nat.zero_add, Nat.reduceAdd] at h0 h1 h2 h3
  simp only [crcHash1, crcHash2, List.map_cons, List.map_nil, h0, h1, h2, h3]

/-- Settles O21: a legal selector picks one of the pair, reduced modulo N. -/
theorem tblHashReducesModuloN : Obligations.TblHashReducesModuloN := by
  unfold Obligations.TblHashReducesModuloN
  intro s k hr
  refine ⟨?_, ?_, fun sel hsel => ?_, crcHash2_eq k⟩
  · rw [exec, execTblHash, show hashSelLegal 0#2 = true from rfl, State.commandSel_legal, State.command_of_ready hr]
    rfl
  · rw [exec, execTblHash, show hashSelLegal 1#2 = true from rfl, State.commandSel_legal, State.command_of_ready hr]
    rfl
  · rw [exec, execTblHash, (hashSelLegal_eq_false_iff sel).2 hsel, State.commandSel_illegal hr.2]
    rfl

end Sys2Proof.Machine

/-! ## The table -/

namespace Sys2Proof.Machine

section KeyCommand

variable {s : State} {k : Key} {f : State → State}

theorem keyCommand_legal (hr : s.Ready) (hk : legalKey k = true) : s.keyCommand k f = f s := by
  rw [State.keyCommand, State.command_of_ready hr, if_pos hk]

theorem keyCommand_illegal (hr : s.Ready) (hk : legalKey k = false) :
    s.keyCommand k f = { s with fault := true, fcode := 7#4 } := by
  rw [State.keyCommand, State.command_of_ready hr, if_neg (by simp [hk])]
  rfl

end KeyCommand

theorem legalKey_ne_zero {k : Key} (hk : legalKey k = true) : k ≠ 0#64 := by
  rw [← (legalKey_iff.1 hk).2.2]
  exact mkKey_ne_zero _ _

/-! ### Lookups -/

section Lookups

variable {t : Table} {hs : HashSel} {k : Key}

/-- A key is present when one of its two slots holds it (40_table.md R128, R129). -/
theorem Table.contains_iff :
    t.contains hs k = true ↔ t.key.read (t.h1 hs k) = k ∨ t.key.read (t.h2 hs k) = k := by
  rw [← not_iff_not, Bool.not_eq_true, Table.contains_eq_false, Table.slotOf_none, not_or]

/-- The count of a key, slot h1 first (40_table.md R130). -/
theorem Table.countOf_eq (t : Table) (hs : HashSel) (k : Key) :
    t.countOf hs k =
      if t.key.read (t.h1 hs k) = k then t.count.read (t.h1 hs k)
      else if t.key.read (t.h2 hs k) = k then t.count.read (t.h2 hs k) else 0#16 := by
  unfold Table.countOf Table.slotOf
  split_ifs <;> rfl

theorem Table.followers_of_none (h : t.slotOf hs k = none) : t.followers hs k = 0#256 := by
  rw [Table.followers, h]

theorem Table.followers_of_some {i : Nat} (h : t.slotOf hs k = some i) :
    t.followers hs k = if t.fidx.read i = 0#32 then 0#256 else t.pool.read (t.fidx.read i).toNat := by
  rw [Table.followers, h]

end Lookups

/-- Settles O22: a lookup reads slot h1, then slot h2. -/
theorem tblLookupsReadTheTwoSlots : Obligations.TblLookupsReadTheTwoSlots := by
  unfold Obligations.TblLookupsReadTheTwoSlots
  intro s k hr
  refine ⟨fun hk => ⟨congrArg Host.Outcome.next (keyCommand_illegal hr hk),
    congrArg Host.Outcome.next (keyCommand_illegal hr hk)⟩, fun hk => ⟨?_, ?_⟩⟩
  · rw [exec, execTblContains, keyCommand_legal hr hk]
    simp only [State.setResult, flag64, Table.contains_iff]
  · rw [exec, execTblCount, keyCommand_legal hr hk, Table.countOf_eq]
    simp only [State.setResult, apply_ite (BitVec.setWidth 64), BitVec.setWidth_zero]

/-- Settles O23: the bitmap a lookup finds, word by word. -/
theorem tblFollowerReadsTheBitmap : Obligations.TblFollowerReadsTheBitmap := by
  unfold Obligations.TblFollowerReadsTheBitmap
  intro s sel k hr
  have hexec (hk : legalKey k = true) : exec (.tblFollower sel k) s =
      .next { s with result := bitmapWord (s.table.followers s.build.hashSel k) sel.toNat } :=
    congrArg Host.Outcome.next (keyCommand_legal hr hk)
  have hzero : bitmapWord 0#256 sel.toNat = 0#64 := BitVec.extractLsb'_zero
  refine ⟨fun hk => congrArg Host.Outcome.next (keyCommand_illegal hr hk), fun hk hslot => ?_,
    fun i hk hslot hf => ?_, fun i hk hslot hf => ⟨_, hexec hk, fun j hj => ?_⟩⟩
  · rw [hexec hk, Table.followers_of_none hslot, hzero]
  · rw [hexec hk, Table.followers_of_some hslot, if_pos hf, hzero]
  · rw [getLsbD_bitmapWord _ _ hj, Table.followers_of_some hslot, if_neg hf]

/-! ### Insertion -/

section Insertion

variable {s : State} {t : Table} {hs : HashSel} {k : Key}

theorem exec_tblInsert (hr : s.Ready) (hk : legalKey k = true) :
    exec (.tblInsert k) s = .next ((s.setTable (s.table.insert s.build.hashSel k).1).setResult
      (flag64 (s.table.insert s.build.hashSel k).2)) :=
  congrArg Host.Outcome.next (keyCommand_legal hr hk)

theorem Table.insert_of_full (hf : t.isFull = true) : t.insert hs k = (t, false) := by
  rw [Table.insert, if_pos hf]

theorem Table.insert_of_contains (hf : t.isFull = false) (hc : t.contains hs k = true) :
    t.insert hs k = (t, true) := by
  rw [Table.insert, if_neg (by simp [hf]), if_pos hc]

theorem Table.insert_of_exhausted (hf : t.isFull = false) (hc : t.contains hs k = false)
    (hm : t.m.toNat ≤ t.nextFree.toNat) : t.insert hs k = ({ t with isFull := true }, false) := by
  rw [Table.insert, if_neg (by simp [hf]), if_neg (by simp [hc]), if_pos (BitVec.le_def.2 hm)]

theorem Table.insert_of_absent (hf : t.isFull = false) (hc : t.contains hs k = false)
    (hm : t.nextFree.toNat < t.m.toNat) :
    t.insert hs k = Table.kick hs maxKicks (t.newEntry k) (t.h1 hs k) { t with nextFree := t.nextFree + 1#32 } := by
  rw [Table.insert, if_neg (by simp [hf]), if_neg (by simp [hc]), if_neg (by rw [BitVec.le_def]; omega)]

/-- A kick loop that meets an empty slot puts the carried entry there (40_table.md R131). -/
theorem Table.kick_of_empty {fuel pos : Nat} {cur : Entry} (h : t.key.read pos = 0#64) :
    Table.kick hs (fuel + 1) cur pos t = (t.writeSlot pos cur, true) := by
  rw [Table.kick, if_pos h]

/-- An absent key goes straight into an empty slot h1 (40_table.md R131). -/
theorem Table.insert_of_empty (hf : t.isFull = false) (hc : t.contains hs k = false)
    (hm : t.nextFree.toNat < t.m.toNat) (hempty : t.key.read (t.h1 hs k) = 0#64) :
    t.insert hs k =
      (Table.writeSlot { t with nextFree := t.nextFree + 1#32 } (t.h1 hs k) (t.newEntry k), true) :=
  (Table.insert_of_absent hf hc hm).trans
    (Table.kick_of_empty (fuel := 9999) (t := { t with nextFree := t.nextFree + 1#32 }) hempty)

/-- Settles O24: the four ways insert ends without moving an entry. -/
theorem tblInsertWithoutKicks : Obligations.TblInsertWithoutKicks := by
  unfold Obligations.TblInsertWithoutKicks
  intro s k hr
  refine ⟨fun hk => congrArg Host.Outcome.next (keyCommand_illegal hr hk), fun hk hf => ?_, fun hk hf hc => ?_,
    fun hk hf hc hm => ?_, fun hk hwf hf hc hm hempty => ?_⟩
  · rw [exec_tblInsert hr hk, Table.insert_of_full hf]; rfl
  · rw [exec_tblInsert hr hk, Table.insert_of_contains hf hc]; rfl
  · rw [exec_tblInsert hr hk, Table.insert_of_exhausted hf hc hm]; rfl
  · obtain ⟨hkey, hcount, hfidx, -⟩ := hwf
    rw [exec_tblInsert hr hk, Table.insert_of_empty hf hc hm hempty]
    exact ⟨_, rfl, rfl, rfl, fun i => Memory.read_write hkey _ _ _, fun i => Memory.read_write hcount _ _ _,
      fun i => Memory.read_write hfidx _ _ _⟩

/-! ### Insertion into a consistent table -/

/-- In a consistent table a key has the count and index of the entry that holds it, and no other. -/
theorem Table.entryOf_eq_some_iff (h : t.Consistent hs) (hk : k ≠ 0#64) {p : BitVec 16 × BitVec 32} :
    t.entryOf hs k = some p ↔ t.Holds { key := k, count := p.1, fidx := p.2 } := by
  constructor
  · intro he
    obtain ⟨i, hslot, rfl⟩ := Option.map_eq_some_iff.1 he
    obtain ⟨hi, rfl⟩ := (Table.slotOf_of_consistent h hk).1 hslot
    exact ⟨hk, i, hi, rfl⟩
  · intro he
    have hentry := Table.entryOf_of_holds h he
    exact hentry

theorem Table.contains_eq_isSome (t : Table) (hs : HashSel) (k : Key) :
    t.contains hs k = (t.entryOf hs k).isSome := by
  rw [Table.entryOf, Option.isSome_map, Table.contains]

theorem Table.countOf_eq_entryOf (t : Table) (hs : HashSel) (k : Key) :
    t.countOf hs k = ((t.entryOf hs k).map Prod.fst).getD 0#16 := by
  rw [Table.countOf, Table.entryOf]
  cases t.slotOf hs k <;> rfl

theorem Table.followers_eq_entryOf (t : Table) (hs : HashSel) (k : Key) :
    t.followers hs k =
      ((t.entryOf hs k).map fun p => if p.2 = 0#32 then 0#256 else t.pool.read p.2.toNat).getD 0#256 := by
  rw [Table.followers, Table.entryOf]
  cases t.slotOf hs k <;> rfl

/-- A key is present in a consistent table when some entry holds it. -/
theorem Table.contains_iff_holds (h : t.Consistent hs) (hk : k ≠ 0#64) :
    t.contains hs k = true ↔ ∃ e, t.Holds e ∧ e.key = k := by
  rw [Table.contains_eq_isSome, Option.isSome_iff_exists]
  constructor
  · rintro ⟨p, hp⟩
    exact ⟨_, (Table.entryOf_eq_some_iff h hk).1 hp, rfl⟩
  · rintro ⟨e, he, rfl⟩
    exact ⟨_, Table.entryOf_of_holds h he⟩

theorem Table.not_holds_of_absent (h : t.Consistent hs) (hk : k ≠ 0#64) (hc : t.contains hs k = false) {e : Entry}
    (he : t.Holds e) : e.key ≠ k := fun hek => by
  rw [(Table.contains_iff_holds h hk).2 ⟨e, he, hek⟩] at hc; cases hc

/-- Entries with one key are equal when their count and index are. -/
theorem entry_eq_newEntry_iff {k' : Key} {p : BitVec 16 × BitVec 32} :
    ({ key := k', count := p.1, fidx := p.2 } : Entry) = t.newEntry k ↔ k' = k ∧ p = (0#16, t.nextFree) := by
  simp [Prod.ext_iff]

/-- After an insertion that succeeds every key has the entry it had, and the new one its fresh entry (40_table.md R131,
R140). -/
theorem Table.insert_entryOf (hwf : t.Wf) (h : t.Consistent hs) (hk : k ≠ 0#64) (hr : (t.insert hs k).2 = true)
    {k' : Key} (hk' : k' ≠ 0#64) :
    (t.insert hs k).1.entryOf hs k' =
      if k' = k ∧ t.contains hs k = false then some (0#16, t.nextFree) else t.entryOf hs k' := by
  obtain ⟨hcon, hholds, -⟩ := Table.insert_spec hwf h hk
  refine Option.ext fun p => ?_
  rw [Table.entryOf_eq_some_iff hcon hk', hholds hr, entry_eq_newEntry_iff]
  split
  · rename_i hnew
    obtain ⟨rfl, habs⟩ := hnew
    have hno : ¬ t.Holds { key := k', count := p.1, fidx := p.2 } :=
      fun he => Table.not_holds_of_absent h hk habs he rfl
    simp [hno, habs, eq_comm]
  · rename_i hold
    rw [Table.entryOf_eq_some_iff h hk']
    tauto

/-- After an insertion that kicks in vain every key but the discarded one has its entry (40_table.md R132). -/
theorem Table.insert_failed_entryOf (hwf : t.Wf) (h : t.Consistent hs) (hk : k ≠ 0#64) (hf : t.isFull = false)
    (hm : t.nextFree.toNat < t.m.toNat) (hr : (t.insert hs k).2 = false) :
    ∃ d, d ≠ 0#64 ∧ (d = k ∨ t.contains hs d = true) ∧ (t.insert hs k).1.entryOf hs d = none ∧
      ∀ k', k' ≠ 0#64 → k' ≠ d → (t.insert hs k).1.entryOf hs k' =
        if k' = k then some (0#16, t.nextFree) else t.entryOf hs k' := by
  obtain ⟨hcon, -, -⟩ := Table.insert_spec hwf h hk
  obtain ⟨habs, -, d, hd, hholds, hgone⟩ := Table.insert_failed hwf h hk hf hm hr
  have hd0 : d.key ≠ 0#64 := hd.elim (fun hd => hd.1) (fun hd => by rw [hd]; exact hk)
  refine ⟨d.key, hd0, ?_, Table.entryOf_eq_none hcon hd0 hgone, fun k' hk' hne => Option.ext fun p => ?_⟩
  · exact hd.elim (fun hd => .inr ((Table.contains_iff_holds h hd0).2 ⟨d, hd, rfl⟩)) (fun hd => .inl (by rw [hd]))
  · have hnd : ({ key := k', count := p.1, fidx := p.2 } : Entry) ≠ d := fun e => hne (congrArg Entry.key e)
    rw [Table.entryOf_eq_some_iff hcon hk', hholds, entry_eq_newEntry_iff, and_iff_left hnd]
    split
    · rename_i hkk
      subst hkk
      have hno : ¬ t.Holds { key := k', count := p.1, fidx := p.2 } :=
        fun he => Table.not_holds_of_absent h hk habs he rfl
      simp [hno, eq_comm]
    · rename_i hkk
      rw [Table.entryOf_eq_some_iff h hk']
      tauto

/-- No key appears by an insertion but the one inserted. -/
theorem Table.contains_of_insert (hwf : t.Wf) (h : t.Consistent hs) (hk : k ≠ 0#64) {k' : Key} (hk' : k' ≠ 0#64)
    (hc : (t.insert hs k).1.contains hs k' = true) : k' = k ∨ t.contains hs k' = true := by
  obtain ⟨hcon, -, hfrom⟩ := Table.insert_spec hwf h hk
  obtain ⟨e, he, rfl⟩ := (Table.contains_iff_holds hcon hk').1 hc
  rcases hfrom e he with he | rfl
  · exact .inr ((Table.contains_iff_holds h hk').2 ⟨e, he, rfl⟩)
  · exact .inl rfl

theorem Table.insert_nextFree (hf : t.isFull = false) (hc : t.contains hs k = false)
    (hm : t.nextFree.toNat < t.m.toNat) : (t.insert hs k).1.nextFree = t.nextFree + 1#32 := by
  rw [Table.insert_of_absent hf hc hm]
  exact (Table.kick_sizes _ _ _ _).2.1

theorem Table.not_full_of_insert (hr : (t.insert hs k).2 = true) : t.isFull = false := by
  cases hf : t.isFull
  · rfl
  · rw [Table.insert_of_full hf] at hr; cases hr

theorem Table.room_of_insert (hr : (t.insert hs k).2 = true) (hc : t.contains hs k = false) :
    t.nextFree.toNat < t.m.toNat := by
  by_contra hm
  rw [Table.insert_of_exhausted (Table.not_full_of_insert hr) hc (by omega)] at hr
  cases hr

theorem Table.absent_of_insert_failed (hf : t.isFull = false) (hr : (t.insert hs k).2 = false) :
    t.contains hs k = false := by
  cases hc : t.contains hs k
  · rfl
  · rw [Table.insert_of_contains hf hc] at hr; cases hr

/-- Insertion changes neither the sizes nor the pool (40_table.md R131). -/
theorem Table.insert_frame (t : Table) (hs : HashSel) (k : Key) :
    (t.insert hs k).1 = { (t.insert hs k).1 with n := t.n, m := t.m, pool := t.pool } := by
  obtain ⟨⟨hn, hm⟩, hpool, -, -⟩ := t.insert_sizes hs k
  rw [← hn, ← hm, ← hpool]

end Insertion

/-- Settles O25: what `insert` answers tells which entries the table holds, and lookups follow from the entries. -/
theorem insertionKeepsEveryKey : Obligations.InsertionKeepsEveryKey := by
  unfold Obligations.InsertionKeepsEveryKey
  intro s k hr hcon hk
  obtain ⟨⟨hw1, hw2, hw3, hw4, -⟩, hcfg⟩ := hcon
  have hwf : s.table.Wf := ⟨hw1, hw2, hw3, hw4⟩
  have h : s.table.Consistent s.build.hashSel := (hcfg hr.1).2.1
  have hk0 : k ≠ 0#64 := legalKey_ne_zero hk
  have hframe := s.table.insert_frame s.build.hashSel k
  obtain ⟨-, hpool, hfull, hfull'⟩ := s.table.insert_sizes s.build.hashSel k
  refine ⟨_, exec_tblInsert hr hk, ?_, ?_, fun hres => ?_, fun hres => ?_, fun k' hk' hc => ?_⟩
  · cases (s.table.insert s.build.hashSel k).2
    exacts [.inl rfl, .inr rfl]
  · exact congrArg (fun t => (s.setTable t).setResult _) hframe
  · have hins : (s.table.insert s.build.hashSel k).2 = true := by
      cases hb : (s.table.insert s.build.hashSel k).2
      · rw [hb] at hres; cases hres
      · rfl
    have hnf := Table.not_full_of_insert hins
    have hentry {k' : Key} := Table.insert_entryOf hwf h hk0 hins (k' := k')
    refine ⟨Table.insert_contains hwf h hk0 hins, (hfull hins).trans hnf, fun hc => ?_, fun hc => ?_,
      fun k' hk' => hentry hk', fun k' hk' hc => ?_⟩
    · simp [Table.insert_of_contains hnf hc]
    · exact Table.insert_nextFree hnf hc (Table.room_of_insert hins hc)
    · have hsame := hentry hk'
      rw [if_neg (by rintro ⟨rfl, hc'⟩; rw [hc] at hc'; cases hc')] at hsame
      refine ⟨?_, ?_, ?_⟩
      · rw [Table.contains_eq_isSome, ← hc, Table.contains_eq_isSome s.table, ← hsame]; rfl
      · rw [Table.countOf_eq_entryOf, Table.countOf_eq_entryOf s.table, ← hsame]; rfl
      · rw [Table.followers_eq_entryOf, Table.followers_eq_entryOf s.table, ← hsame, ← hpool]; rfl
  · have hins : (s.table.insert s.build.hashSel k).2 = false := flag64_eq_zero.1 hres
    refine ⟨hfull' hins, fun hf => ?_, fun hf hm => ?_, fun hf hm => ⟨?_, ?_⟩⟩
    · simp [Table.insert_of_full hf]
    · simp [Table.insert_of_exhausted hf (Table.absent_of_insert_failed hf hins) hm]
    · exact Table.insert_nextFree hf (Table.absent_of_insert_failed hf hins) hm
    · exact Table.insert_failed_entryOf hwf h hk0 hf hm hins
  · exact Table.contains_of_insert hwf h hk0 hk' hc

end Sys2Proof.Machine

/-! ### Counting a key -/

namespace Sys2Proof.Machine

section Seen

variable {s : State} {t : Table} {hs : HashSel} {k : Key}

theorem exec_tblSeen (hr : s.Ready) (hk : legalKey k = true) :
    exec (.tblSeen k) s = .next ((s.setTable (s.table.seen s.build.hashSel k).1).setResult
      (flag64 (s.table.seen s.build.hashSel k).2)) :=
  congrArg Host.Outcome.next (keyCommand_legal hr hk)

theorem Table.seen_of_contains (hc : t.contains hs k = true) : t.seen hs k = t.seenPresent hs k := by
  rw [Table.seen, if_pos hc]

theorem Table.seen_of_insert_failed (hc : t.contains hs k = false) (hi : (t.insert hs k).2 = false) :
    t.seen hs k = t.insert hs k := by
  rcases t.seen_cases hs k with ⟨h, -⟩ | ⟨-, h, -⟩ | ⟨-, -, h⟩
  · rw [hc] at h; cases h
  · rw [hi] at h; cases h
  · exact h

theorem Table.seen_of_insert (hc : t.contains hs k = false) (hi : (t.insert hs k).2 = true) :
    t.seen hs k = (t.insert hs k).1.seenPresent hs k := by
  rcases t.seen_cases hs k with ⟨h, -⟩ | ⟨-, -, h⟩ | ⟨-, h, -⟩
  · rw [hc] at h; cases h
  · exact h
  · rw [hi] at h; cases h

/-- One of the two slots of `k` holds it. -/
def Table.Placed (t : Table) (hs : HashSel) (k : Key) : Prop :=
  t.key.read (t.h1 hs k) = k ∨ t.key.read (t.h2 hs k) = k

/-- While the kick loop runs, a key it has been given sits in one of its slots or is carried to one of them, whatever
else the table holds: a displaced key goes to its other slot (40_table.md R131). -/
theorem Table.kick_placed (hk : k ≠ 0#64) (fuel : Nat) {cur : Entry} {pos : Nat} {t : Table} (hwf : t.key.wf = true)
    (h : t.Placed hs k ∨ (cur.key = k ∧ (pos = t.h1 hs k ∨ pos = t.h2 hs k)))
    (hr : (Table.kick hs fuel cur pos t).2 = true) : (Table.kick hs fuel cur pos t).1.Placed hs k := by
  induction fuel generalizing cur pos t with
  | zero => cases hr
  | succ fuel ih =>
    have hkey (i : Nat) : (t.writeSlot pos cur).key.read i = if i = pos then cur.key else t.key.read i :=
      Memory.read_write hwf _ _ _
    -- After the write `k` is placed, unless it was placed at `pos` and another key has taken its slot.
    have hplaced (hne : cur.key ≠ k → t.key.read pos ≠ k) : (t.writeSlot pos cur).Placed hs k := by
      change (t.writeSlot pos cur).key.read (t.h1 hs k) = k ∨ (t.writeSlot pos cur).key.read (t.h2 hs k) = k
      rw [hkey, hkey]
      by_cases hck : cur.key = k
      · rcases h with (h | h) | ⟨-, rfl | rfl⟩
        · left; split <;> assumption
        · right; split <;> assumption
        · left; simp [hck]
        · right; simp [hck]
      · have hpos := hne hck
        rcases h with (h | h) | ⟨h, -⟩
        · left; rw [if_neg (by rintro rfl; exact hpos h)]; exact h
        · right; rw [if_neg (by rintro rfl; exact hpos h)]; exact h
        · exact absurd h hck
    rw [Table.kick] at hr ⊢
    split at hr
    next hempty =>
      rw [if_pos hempty]
      exact hplaced fun _ => by rw [hempty]; exact hk.symm
    next hfull =>
      rw [if_neg hfull]
      refine ih (t := t.writeSlot pos cur) (Memory.wf_write hwf _ _) ?_ hr
      by_cases hpk : t.key.read pos = k ∧ cur.key ≠ k
      · refine .inr ⟨hpk.1, ?_⟩
        rw [hpk.1, Table.otherSlot]
        split
        · exact .inr rfl
        · exact .inl rfl
      · exact .inl (hplaced (by tauto))

/-- An insertion that succeeds leaves the key present, in any table. -/
theorem Table.contains_of_insert_self (hwf : t.key.wf = true) (hk : k ≠ 0#64) (hr : (t.insert hs k).2 = true) :
    (t.insert hs k).1.contains hs k = true := by
  have hf := Table.not_full_of_insert hr
  cases hc : t.contains hs k
  · have hins := Table.insert_of_absent hf hc (Table.room_of_insert hr hc)
    rw [hins] at hr ⊢
    exact Table.contains_iff.2 (Table.kick_placed (t := { t with nextFree := t.nextFree + 1#32 }) hk _ hwf
      (.inr ⟨rfl, .inl rfl⟩) hr)
  · rw [Table.insert_of_contains hf hc]; exact hc

theorem bumpCount_toNat (c : BitVec 16) : (bumpCount c).toNat = min (c.toNat + 1) 65535 := by
  have hlt := c.isLt
  unfold bumpCount maxFreq
  split
  · rw [BitVec.toNat_add]; simp; omega
  · omega

theorem trailingByte_lt (k : Key) : trailingByte k < 256 := (k.extractLsb' 0 8).isLt

/-- Marking sets one bit of one bitmap. -/
theorem getLsbD_read_write_setBit {m : Memory 256} (hwf : m.wf = true) (q q' : Nat) {b : Nat} (hb : b < 256) (c : Nat) :
    ((m.write q (setBit (m.read q) b)).read q').getLsbD c =
      ((m.read q').getLsbD c || (decide (q' = q) && decide (c = b))) := by
  rw [Memory.read_write hwf]
  by_cases hq : q' = q
  · simp [hq, getLsbD_setBit _ hb]
  · simp [hq]

/-- Marking the parent's bitmap does not look at the counts. -/
theorem Table.markParent_counts (t : Table) (hs : HashSel) (k : Key) (c : Memory 16) :
    Table.markParent { t with count := c } hs k = { t.markParent hs k with count := c } := by
  unfold Table.markParent
  have hslot : Table.slotOf { t with count := c } hs (parentKey k) = t.slotOf hs (parentKey k) := rfl
  rw [hslot]
  split_ifs
  · rfl
  · cases t.slotOf hs (parentKey k) with
    | none => rfl
    | some p => by_cases hf : t.fidx.read p = 0#32 <;> simp [hf]

/-- A root, and a key whose parent is absent or has no index, mark nothing (40_table.md R134). -/
theorem Table.markParent_of_unmarked (h : k = root ∨ ∀ p, t.slotOf hs (parentKey k) = some p → t.fidx.read p = 0#32) :
    t.markParent hs k = t := by
  rcases t.markParent_cases hs k with ⟨-, e⟩ | ⟨p, hroot, hp, hf, -⟩
  · exact e
  · exact absurd (h.resolve_left hroot p hp) hf

theorem Table.markParent_of_marked {p : Nat} (hroot : k ≠ root) (hp : t.slotOf hs (parentKey k) = some p)
    (hf : t.fidx.read p ≠ 0#32) :
    t.markParent hs k = { t with
      pool := t.pool.write (t.fidx.read p).toNat (setBit (t.pool.read (t.fidx.read p).toNat) (trailingByte k)) } := by
  rcases t.markParent_cases hs k with ⟨h, -⟩ | ⟨p', -, hp', -, e⟩
  · exact absurd (h.resolve_left hroot p hp) hf
  · rw [e, Option.some.inj (hp.symm.trans hp')]

/-- Marking changes the pool alone. -/
theorem Table.markParent_frame (t : Table) (hs : HashSel) (k : Key) :
    t.markParent hs k = { t with pool := (t.markParent hs k).pool } := by
  rcases t.markParent_cases hs k with ⟨-, e⟩ | ⟨p, -, -, -, e⟩ <;> rw [e]

/-- `seen` of a present key raises its count and marks its parent's bitmap. -/
theorem Table.seenPresent_eq {i : Nat} (h : t.slotOf hs k = some i) :
    t.seenPresent hs k = ({ t with count := t.count.write i (bumpCount (t.count.read i))
                                   pool := (t.markParent hs k).pool }, true) := by
  rw [Table.seenPresent_some h, Table.markParent_counts, Table.markParent_frame]

end Seen

/-- Settles O26: `seen` of a present key is `seenPresent`; of an absent one, that after the insertion. -/
theorem tblSeenCountsAndMarks : Obligations.TblSeenCountsAndMarks := by
  unfold Obligations.TblSeenCountsAndMarks
  intro s k hr
  refine ⟨fun hk => congrArg Host.Outcome.next (keyCommand_illegal hr hk), fun u hk hwf hc hu => ?_,
    fun i hk hwf hslot => ?_⟩
  · obtain rfl := Host.Outcome.next.inj ((exec_tblInsert hr hk).symm.trans hu)
    refine ⟨fun hres => ?_, fun hres => ?_⟩
    · have hins : (s.table.insert s.build.hashSel k).2 = false := flag64_eq_zero.1 hres
      rw [exec_tblSeen hr hk, Table.seen_of_insert_failed hc hins]
    · have hins : (s.table.insert s.build.hashSel k).2 = true := by
        rw [← Bool.not_eq_false]; exact fun hf => hres (flag64_eq_zero.2 hf)
      have hcon := Table.contains_of_insert_self hwf.1 (legalKey_ne_zero hk) hins
      refine ⟨hcon, ?_⟩
      rw [exec_tblSeen hr hk, Table.seen_of_insert hc hins, ← Table.seen_of_contains hcon]
      exact (exec_tblSeen (s := (s.setTable (s.table.insert s.build.hashSel k).1).setResult
        (flag64 (s.table.insert s.build.hashSel k).2)) hr hk).symm
  · obtain ⟨-, hwcount, -, hwpool, -⟩ := hwf
    have hcon : s.table.contains s.build.hashSel k = true := Table.contains_eq_true.2 ⟨i, hslot⟩
    rw [exec_tblSeen hr hk, Table.seen_of_contains hcon, Table.seenPresent_eq hslot]
    refine ⟨_, rfl, rfl, rfl, ?_, fun j hj => Memory.read_write_of_ne _ _ hj, fun hno => ?_,
      fun p hroot hp => ⟨fun hf => ?_, fun hf q c _ => ?_⟩⟩
    · rw [← bumpCount_toNat]
      exact congrArg BitVec.toNat (Memory.read_write_same hwcount _ _)
    · have hmark : s.table.markParent s.build.hashSel k = s.table :=
        Table.markParent_of_unmarked (hno.imp_right fun hnone p hp => by rw [hnone] at hp; cases hp)
      have hpool := congrArg Table.pool hmark
      exact hpool
    · have hmark : s.table.markParent s.build.hashSel k = s.table :=
        Table.markParent_of_unmarked (.inr fun p' hp' => by rwa [← Option.some.inj (hp.symm.trans hp')])
      have hpool := congrArg Table.pool hmark
      exact hpool
    · have hmark := congrArg Table.pool (Table.markParent_of_marked hroot hp hf)
      exact (congrArg (fun m : Memory 256 => (m.read q).getLsbD c) hmark).trans
        (getLsbD_read_write_setBit hwpool _ _ (trailingByte_lt k) _)

/-! ### Rescale, reset and readback of the table -/

/-- Settles O27: mapping the counts halves those of the occupied slots. -/
theorem tblRescaleHalvesTheCounts : Obligations.TblRescaleHalvesTheCounts := by
  unfold Obligations.TblRescaleHalvesTheCounts
  intro s hr hwf
  refine ⟨by decide, _, congrArg Host.Outcome.next (State.command_of_ready hr), rfl, fun i => ?_⟩
  rw [State.setTable_table, Table.rescale_count hwf.2.1]
  split
  · rw [BitVec.toNat_ushiftRight, Nat.shiftRight_eq_div_pow, Nat.pow_one]
  · rfl

/-- Settles O28: what reset leaves below the configured sizes. -/
theorem tblResetLeavesTheRootAlone : Obligations.TblResetLeavesTheRootAlone := by
  unfold Obligations.TblResetLeavesTheRootAlone
  intro s hr hn hm
  obtain ⟨hsn, hsm⟩ := Table.reset_sizes s.table s.build.hashSel
  have hreset := Table.reset_eq (hs := s.build.hashSel) hn hm
  refine ⟨by decide, _, congrArg Host.Outcome.next (State.command_of_ready hr), rfl, hsn, hsm,
    congrArg Table.nextFree hreset, congrArg Table.isFull hreset, fun i hi => Table.reset_read_below hn hm hi,
    fun q hq => ?_⟩
  exact (Table.reset_read hn hm q).2.2.2.trans (if_pos hq)

/-- Settles O29: TBL_PEEK checks its selector, then its slot. -/
theorem tblFullAndTblPeekReadTheTable : Obligations.TblFullAndTblPeekReadTheTable := by
  unfold Obligations.TblFullAndTblPeekReadTheTable
  refine ⟨by decide, fun s slot hr => ?_⟩
  have hpeek {sel : BitVec 2} (hsel : sel ≠ 3#2) : exec (.tblPeek sel slot) s = .next
      (if s.table.n.toNat ≤ slot.toNat then s.raise .badIndex else s.setResult (s.table.peek sel slot.toNat)) := by
    rw [exec, execTblPeek, show peekSelLegal sel = true by simpa [peekSelLegal] using hsel, State.commandSel_legal,
      State.command_of_ready hr]
  refine ⟨congrArg Host.Outcome.next (State.command_of_ready hr), ?_, fun sel hsel hslot => ?_, fun hslot => ?_⟩
  · exact congrArg Host.Outcome.next (State.commandSel_illegal hr.2)
  · rw [hpeek hsel, if_pos hslot]; rfl
  · have hin : ¬ s.table.n.toNat ≤ slot.toNat := by omega
    rw [hpeek (by decide), hpeek (by decide), hpeek (by decide), if_neg hin, if_neg hin, if_neg hin]
    exact ⟨rfl, rfl, rfl⟩

end Sys2Proof.Machine

/-! ## Distributions

What MDL_DIST leaves in the distribution registers (41_modeller.md R181 to R188): first on the modeller alone, then for
the command. -/

namespace Sys2Proof.Machine

/-! ### The last entries of the array -/

theorem escapeOnly_read {d : Memory 32} (h : d.wf = true) (i : Nat) :
    (escapeOnly d).read i =
      if i = 258 then 1#32 else if i = 257 then 1#32 else if i = 256 then 0#32 else d.read i := by
  have h256 := Memory.wf_write h 256 0#32
  rw [escapeOnly, Memory.read_write (Memory.wf_write h256 _ _), Memory.read_write h256, Memory.read_write h]

/-- The array in which ESCAPE alone has width (41_modeller.md R183, R186). -/
theorem distAt_escapeOnly {m : Modeller} {d : Memory 32} (h : d.wf = true) (hm : m.dist = escapeOnly d) :
    m.distAt 256 = 0 ∧ m.distAt 257 = 1 ∧ m.distAt 258 = 1 ∧ ∀ i < 256, m.distAt i = (d.read i).toNat := by
  have hread := escapeOnly_read h
  refine ⟨?_, ?_, ?_, fun i hi => ?_⟩ <;> rw [Modeller.distAt, hm, hread]
  · rfl
  · rfl
  · rfl
  · rw [if_neg (by omega), if_neg (by omega), if_neg (by omega)]

/-! ### A present context -/

/-- The count of the child of `p` with trailing byte `c` (41_modeller.md R182). -/
def Table.childFreq (t : Table) (hs : HashSel) (p : Key) (c : Nat) : Nat :=
  (t.countOf hs (childKey p (BitVec.ofNat 8 c))).toNat

/-- The bytes a scan of `p` gives an interval (41_modeller.md R182). -/
def Modeller.codable (m : Modeller) (t : Table) (hs : HashSel) (p : Key) : Nat → Bool :=
  selected (t.followers hs p &&& m.excl) (t.childFreq hs p)

/-- The total of a present context's distribution (41_modeller.md R182, R184). -/
def Modeller.presentTotal (m : Modeller) (t : Table) (hs : HashSel) (p : Key) : Nat :=
  weight (m.codable t hs p) (t.childFreq hs p) 256 + max 1 ((List.range 256).filter (m.codable t hs p)).length

theorem Table.childFreq_le (t : Table) (hs : HashSel) (p : Key) (c : Nat) : t.childFreq hs p c ≤ 65535 := by
  have := (t.countOf hs (childKey p (BitVec.ofNat 8 c))).isLt
  unfold Table.childFreq; omega

/-- A stretched frequency and the one it adds to ESCAPE are at most twice a count (10_state.md R39). -/
theorem weight_add_length_le (sel : Nat → Bool) {freq : Nat → Nat} (hf : ∀ c, freq c ≤ 65535) (c : Nat) :
    weight sel freq c + ((List.range c).filter sel).length ≤ 131070 * c := by
  induction c with
  | zero => simp [weight]
  | succ c ih =>
    rw [weight_succ, filter_length_succ]
    have := hf c
    split <;> omega

section Present

variable (m : Modeller) (t : Table) (hs : HashSel) (p : Key)

theorem presentTotal_le : m.presentTotal t hs p ≤ 33553920 := by
  have hsum := weight_add_length_le (m.codable t hs p) (t.childFreq_le hs p) 256
  have hweight := weight_le (m.codable t hs p) (t.childFreq_le hs p) 256
  unfold Modeller.presentTotal; omega

theorem weight_childFreq_lt {i : Nat} (hi : i ≤ 256) : weight (m.codable t hs p) (t.childFreq hs p) i < 2 ^ 32 := by
  have := weight_le (m.codable t hs p) (t.childFreq_le hs p) i
  omega

/-- What distribute leaves for a present context, once dist_check is cleared (41_modeller.md R182, R184, R185, R188). -/
theorem distPresent_spec (hw : m.dist.wf = true) :
    (∀ i, (m.distPresent t hs p).distAt i =
      if i = 257 ∨ i = 258 then m.presentTotal t hs p
      else if written (m.codable t hs p) 256 i = true ∨ i = 256 then weight (m.codable t hs p) (t.childFreq hs p) i
      else m.distAt i) ∧
    (∀ c < 256, (m.distPresent t hs p).dchk.getLsbD c = (m.dchk.getLsbD c || m.codable t hs p c)) ∧
    (∀ c < 256, (m.distPresent t hs p).excl.getLsbD c = (m.excl.getLsbD c && !(m.codable t hs p c))) ∧
    (m.distPresent t hs p).latestRun.toNat = weight (m.codable t hs p) (t.childFreq hs p) 256 ∧
    (m.distPresent t hs p).lastRun.toNat = m.presentTotal t hs p ∧
    (m.distPresent t hs p).outscale = (m.outscale || decide (65535 < m.presentTotal t hs p)) := by
  have hscan := scanBytes_spec (t.followers hs p &&& m.excl) (t.childFreq hs p)
    (acc := { dist := m.dist, dchk := m.dchk, excl := m.excl, run := 0, n := 0 }) hw rfl rfl
  rw [← show m.scan t hs p = scanBytes _ (t.childFreq hs p) _ from rfl,
    ← show m.codable t hs p = selected _ (t.childFreq hs p) from rfl] at hscan
  obtain ⟨hsw, hrun, hn, hdchk, hexcl, hread⟩ := hscan
  have htot : (m.scan t hs p).run + max 1 (m.scan t hs p).n = m.presentTotal t hs p := by rw [hrun, hn]; rfl
  have hle := presentTotal_le m t hs p
  have hdist : (m.distPresent t hs p).dist =
      (((m.scan t hs p).dist.write 256 (BitVec.ofNat 32 (weight (m.codable t hs p) (t.childFreq hs p) 256))).write 257
        (BitVec.ofNat 32 (m.presentTotal t hs p))).write 258 (BitVec.ofNat 32 (m.presentTotal t hs p)) := by
    rw [← htot, ← hrun]; rfl
  have hnat {x : Nat} (hx : x < 2 ^ 32) : (BitVec.ofNat 32 x).toNat = x := Nat.mod_eq_of_lt hx
  refine ⟨fun i => ?_, fun c hc => ?_, fun c hc => ?_, ?_, ?_, ?_⟩
  · have hw256 := Memory.wf_write hsw 256 (BitVec.ofNat 32 (weight (m.codable t hs p) (t.childFreq hs p) 256))
    rw [Modeller.distAt, hdist, Memory.read_write (Memory.wf_write hw256 _ _), Memory.read_write hw256,
      Memory.read_write hsw, hread]
    by_cases h258 : i = 258
    · simp only [h258, or_true, if_true]; exact hnat (by omega)
    by_cases h257 : i = 257
    · simp only [h257, true_or, if_true]; exact hnat (by omega)
    by_cases h256 : i = 256
    · subst h256
      simp only [if_true, or_true]
      exact hnat (weight_childFreq_lt m t hs p (by omega))
    simp only [h256, h257, h258, or_false, if_false]
    split
    · rename_i hwr
      refine hnat (weight_childFreq_lt m t hs p ?_)
      simp only [written, Bool.or_eq_true, Bool.and_eq_true, decide_eq_true_eq] at hwr
      omega
    · rfl
  · exact (hdchk c).trans (by rw [decide_eq_true hc, Bool.true_and])
  · exact (hexcl c).trans (by rw [decide_eq_true hc, Bool.true_and])
  · exact (congrArg (fun r => (BitVec.ofNat 32 r).toNat) hrun).trans (hnat (weight_childFreq_lt m t hs p (by omega)))
  · exact (congrArg (fun r => (BitVec.ofNat 32 r).toNat) htot).trans (hnat (by omega))
  · rw [← htot]; rfl

end Present

/-! ### Every distribution can be searched -/

/-- A running sum is 0 or ends with the last selected byte. -/
theorem weight_eq_zero_or_last (sel : Nat → Bool) (freq : Nat → Nat) (c : Nat) :
    weight sel freq c = 0 ∨ ∃ b < c, sel b = true ∧ weight sel freq c = weight sel freq (b + 1) := by
  induction c with
  | zero => exact .inl rfl
  | succ c ih =>
    cases hc : sel c
    · have hsame : weight sel freq (c + 1) = weight sel freq c := by rw [weight_succ, hc]; rfl
      rw [hsame]
      exact ih.imp_right fun ⟨b, hb, hs, he⟩ => ⟨b, by omega, hs, he⟩
    · exact .inr ⟨c, by omega, hc, rfl⟩

theorem written_of_sel {sel : Nat → Bool} {c : Nat} (hc : c < 256) (h : sel c = true) :
    written sel 256 c = true ∧ written sel 256 (c + 1) = true := by
  simp [written, hc, h, show c + 1 ≤ 256 by omega]

section Search

variable {m : Modeller}

/-- Where ESCAPE alone has width and no byte is a candidate, the search finds ESCAPE. -/
theorem decodable_of_escapeOnly (hd : m.dchk = 0#256) (h256 : m.distAt 256 = 0) (h257 : m.distAt 257 = 1)
    (h258 : m.distAt 258 = 1) : m.Decodable := by
  have hno (c : Nat) : ¬ m.dchk.getLsbD c = true := by simp [hd]
  exact decodable_of_escape (fun c _ h => absurd h (hno c)) (fun c _ h => absurd h (hno c)) (.inl h256)
    (h257.trans h258.symm)

/-- The distribution of a present context can be searched: each candidate starts where the one before it ends. -/
theorem decodable_of_present (t : Table) (hs : HashSel) (p : Key) (hw : m.dist.wf = true) (hd : m.dchk = 0#256) :
    (m.distPresent t hs p).Decodable := by
  obtain ⟨hdist, hdchk, -⟩ := distPresent_spec m t hs p hw
  have hcand {c : Nat} (hc : c < 256) : (m.distPresent t hs p).dchk.getLsbD c = m.codable t hs p c := by
    rw [hdchk c hc, hd, BitVec.getLsbD_zero, Bool.false_or]
  have hat {i : Nat} (hi : i ≤ 256) (hwr : written (m.codable t hs p) 256 i = true ∨ i = 256) :
      (m.distPresent t hs p).distAt i = weight (m.codable t hs p) (t.childFreq hs p) i := by
    rw [hdist, if_neg (by omega), if_pos hwr]
  have hend {c : Nat} (hc : c < 256) (h : m.codable t hs p c = true) :
      (m.distPresent t hs p).distAt (c + 1) = weight (m.codable t hs p) (t.childFreq hs p) (c + 1) :=
    hat (by omega) (.inl (written_of_sel hc h).2)
  have h258 : (m.distPresent t hs p).distAt 258 = m.presentTotal t hs p := by rw [hdist, if_pos (.inr rfl)]
  have hlast {i : Nat} (hi : i ≤ 256)
      (hat : (m.distPresent t hs p).distAt i = weight (m.codable t hs p) (t.childFreq hs p) i) :
      (m.distPresent t hs p).distAt i = 0 ∨ ∃ b < i, (m.distPresent t hs p).dchk.getLsbD b = true ∧
        (m.distPresent t hs p).distAt i = (m.distPresent t hs p).distAt (b + 1) := by
    rw [hat]
    refine (weight_eq_zero_or_last _ _ _).imp_right fun ⟨b, hb, hsel, he⟩ => ⟨b, hb, ?_, ?_⟩
    · rw [hcand (by omega), hsel]
    · rw [he, hend (by omega) hsel]
  refine decodable_of_escape (fun c hc h => ?_) (fun c hc h => ?_) (hlast (le_refl _) (hat (le_refl _) (.inr rfl))) ?_
  · rw [hcand hc] at h
    exact hlast (by omega) (hat (by omega) (.inl (written_of_sel hc h).1))
  · rw [hcand hc] at h
    rw [hend hc h, h258]
    have := weight_mono (m.codable t hs p) (t.childFreq hs p) (show c + 1 ≤ 256 by omega)
    unfold Modeller.presentTotal; omega
  · rw [h258, hdist, if_pos (.inl rfl)]

/-- What the order -1 fill leaves (41_modeller.md R187). -/
theorem distFallback_spec (hw : m.dist.wf = true) :
    (∀ c ≤ 256, m.distFallback.distAt c = openBelow m.excl c) ∧
      m.distFallback.distAt 257 = openBelow m.excl 256 ∧ m.distFallback.distAt 258 = openBelow m.excl 256 + 1 ∧
      m.distFallback.dchk = m.excl := by
  obtain ⟨hfw, hrun, hread⟩ := fallbackBytes_spec m.excl hw
  have hle := openBelow_le m.excl
  have hdist : m.distFallback.dist = ((fallbackBytes m.excl m.dist).1.write 257
      (BitVec.ofNat 32 (openBelow m.excl 256))).write 258 (BitVec.ofNat 32 (openBelow m.excl 256 + 1)) := by
    simp only [Modeller.distFallback, hrun]
  have hat (i : Nat) : m.distFallback.distAt i = (if i = 258 then BitVec.ofNat 32 (openBelow m.excl 256 + 1)
      else if i = 257 then BitVec.ofNat 32 (openBelow m.excl 256)
      else if i ≤ 256 then BitVec.ofNat 32 (openBelow m.excl i) else m.dist.read i).toNat := by
    rw [Modeller.distAt, hdist, Memory.read_write (Memory.wf_write hfw _ _), Memory.read_write hfw, hread]
  have hnat {c : Nat} (hc : c ≤ 257) : (BitVec.ofNat 32 c).toNat = c := Nat.mod_eq_of_lt (by omega)
  refine ⟨fun c hc => ?_, ?_, ?_, rfl⟩
  · rw [hat, if_neg (by omega), if_neg (by omega), if_pos hc]
    exact hnat (by have := hle c; omega)
  · rw [hat, if_neg (by omega), if_pos rfl]
    exact hnat (by have := hle 256; omega)
  · rw [hat, if_pos rfl]
    exact hnat (by have := hle 256; omega)

/-- The open byte in whose interval a target below the number of open bytes lies. -/
theorem exists_open_byte (excl : Bitmap) {f n : Nat} (h : f < openBelow excl n) :
    ∃ c < n, openBelow excl c ≤ f ∧ f < openBelow excl (c + 1) ∧ excl.getLsbD c = true := by
  induction n with
  | zero => cases h
  | succ n ih =>
    by_cases hn : f < openBelow excl n
    · obtain ⟨c, hc, hrest⟩ := ih hn
      exact ⟨c, by omega, hrest⟩
    · refine ⟨n, by omega, by omega, h, ?_⟩
      rw [openBelow_succ] at h
      by_contra hno
      simp [hno] at h; omega

/-- The order -1 distribution can be searched: an open byte's interval holds its target, and EOS takes the last. -/
theorem decodable_of_fallback (hw : m.dist.wf = true) : m.distFallback.Decodable := by
  obtain ⟨hbelow, h257, h258, hdchk⟩ := distFallback_spec hw
  intro f hf
  by_cases hopen : f < openBelow m.excl 256
  · obtain ⟨c, hc, hlow, hhigh, hbit⟩ := exists_open_byte m.excl hopen
    have hans : m.distFallback.answers f c = true := by
      simp [Modeller.answers, hdchk, hbit, hbelow (c + 1) (by omega), hhigh]
    obtain ⟨c', hs, hle, hans', -⟩ := search_of_candidate (by omega) hans
    -- No byte below `c` answers, since the interval of each ends at or below the target.
    have hmono := openBelow_mono m.excl (b := c' + 1) (c := c)
    have hlt : f < openBelow m.excl (c' + 1) := by
      simp only [Modeller.answers, Bool.and_eq_true, decide_eq_true_eq] at hans'
      rw [hbelow (c' + 1) (by omega)] at hans'
      exact hans'.2
    obtain rfl : c' = c := by omega
    refine ⟨c', hs, by omega, ?_, ?_, ?_⟩
    · rw [hbelow c' (by omega)]; exact hlow
    · rw [hbelow (c' + 1) (by omega)]; exact hhigh
    · have := openBelow_mono m.excl (show c' + 1 ≤ 256 by omega)
      rw [hbelow (c' + 1) (by omega), h258]; omega
  · have hnone (c : Nat) (hc : c < 257) : m.distFallback.answers f c = false := by
      have hle : m.distFallback.distAt (c + 1) ≤ f := by
        by_cases h : c = 256
        · subst h; rw [h257]; omega
        · have := openBelow_mono m.excl (show c + 1 ≤ 256 by omega)
          rw [hbelow (c + 1) (by omega)]; omega
      simp [Modeller.answers]; omega
    refine ⟨257, ?_, le_refl _, ?_, hf, le_refl _⟩
    · rw [search_of_none hnone, h257, if_pos (by omega)]
    · rw [h257]; omega

end Search

end Sys2Proof.Machine

/-! ### MDL_DIST -/

namespace Sys2Proof.Machine

theorem distStart_wf {m : Modeller} (hw : m.dist.wf = true) (first : Bool) : (m.distStart first).dist.wf = true := by
  rw [distStart_eq]
  cases first
  exacts [hw, Memory.wf_clearBelow hw _]

theorem distStart_distAt (m : Modeller) (first : Bool) {i : Nat} (hi : i ≤ 258) :
    (m.distStart first).distAt i = if first then 0 else m.distAt i := by
  cases first
  · rfl
  · have hclear : (m.dist.clearBelow distLen).read i = 0#32 :=
      (Memory.read_clearBelow _ _ _).trans (if_pos (by unfold distLen; omega))
    exact congrArg BitVec.toNat hclear

theorem distStart_dchk (m : Modeller) (first : Bool) : (m.distStart first).dchk = 0#256 := by
  rw [distStart_eq]

/-- A distribution registers state that the coders can use: the total is positive and bounded, and every target is found
(10_state.md R39, 42_coder.md R242). -/
def Modeller.Searchable (m : Modeller) : Prop := 0 < m.distAt 258 ∧ m.distAt 258 ≤ 33553920 ∧ m.Decodable

theorem searchable_of_escapeOnly {m : Modeller} {d : Memory 32} (hw : d.wf = true) (hm : m.dist = escapeOnly d)
    (hd : m.dchk = 0#256) : m.Searchable := by
  obtain ⟨h256, h257, h258, -⟩ := distAt_escapeOnly hw hm
  exact ⟨by omega, by omega, decodable_of_escapeOnly hd h256 h257 h258⟩

/-- Every distribute leaves a distribution the decoder can search (41_modeller.md R181 to R187). -/
theorem distribute_searchable {m : Modeller} (hw : m.dist.wf = true) (t : Table) (hs : HashSel) (o : Nat) {ord : Int}
    (h : -1 ≤ ord) : (m.distribute t hs o ord).Searchable := by
  have hw1 := distStart_wf hw (decide (ord = (o : Int)))
  have hd1 := distStart_dchk m (decide (ord = (o : Int)))
  rcases distribute_cases m t hs o h with ⟨-, e⟩ | ⟨n, -, -, e⟩ | ⟨n, -, -, -, e⟩ | ⟨n, -, -, -, e⟩ <;> rw [e] <;>
    generalize m.distStart (decide (ord = (o : Int))) = m1 at hw1 hd1
  · obtain ⟨-, -, h258, -⟩ := distFallback_spec hw1
    have := openBelow_le m1.excl 256
    exact ⟨by omega, by omega, decodable_of_fallback hw1⟩
  · exact searchable_of_escapeOnly hw1 rfl hd1
  · have h258 : (m1.distPresent t hs (m.windowKey n)).distAt 258 = _ := (distPresent_spec m1 t hs _ hw1).1 258
    rw [if_pos (.inr rfl)] at h258
    refine ⟨?_, ?_, decodable_of_present t hs _ hw1 hd1⟩
    · rw [h258]; unfold Modeller.presentTotal; omega
    · rw [h258]; exact presentTotal_le m1 t hs _
  · exact searchable_of_escapeOnly (Memory.wf_clearBelow hw1 _) rfl hd1

/-- distribute keeps every entry of the array within its bound (10_state.md R39). -/
theorem distribute_bounded {m : Modeller} (hw : m.dist.wf = true) (hb : ∀ i ≤ 258, m.distAt i ≤ 33553920) (t : Table)
    (hs : HashSel) (o : Nat) {ord : Int} (h : -1 ≤ ord) :
    ∀ i ≤ 258, (m.distribute t hs o ord).distAt i ≤ 33553920 := by
  have hw1 := distStart_wf hw (decide (ord = (o : Int)))
  have hb1 (i : Nat) (hi : i ≤ 258) : (m.distStart (decide (ord = (o : Int)))).distAt i ≤ 33553920 := by
    rw [distStart_distAt m _ hi]
    split
    · omega
    · exact hb i hi
  have hescape {m' : Modeller} {d : Memory 32} (hd : d.wf = true) (hm : m'.dist = escapeOnly d)
      (hle : ∀ i < 256, (d.read i).toNat ≤ 33553920) (i : Nat) (hi : i ≤ 258) : m'.distAt i ≤ 33553920 := by
    obtain ⟨h256, h257, h258, hrest⟩ := distAt_escapeOnly hd hm
    rcases (by omega : i < 256 ∨ i = 256 ∨ i = 257 ∨ i = 258) with hlt | rfl | rfl | rfl
    · rw [hrest i hlt]; exact hle i hlt
    all_goals omega
  rcases distribute_cases m t hs o h with ⟨-, e⟩ | ⟨n, -, -, e⟩ | ⟨n, -, -, -, e⟩ | ⟨n, -, -, -, e⟩ <;> rw [e] <;>
    generalize m.distStart (decide (ord = (o : Int))) = m1 at hw1 hb1
  · obtain ⟨hbelow, h257, h258, -⟩ := distFallback_spec hw1
    intro i hi
    have hopen := openBelow_le m1.excl
    rcases (by omega : i ≤ 256 ∨ i = 257 ∨ i = 258) with hle | rfl | rfl
    · rw [hbelow i hle]; have := hopen i; omega
    · have := hopen 256; omega
    · have := hopen 256; omega
  · exact hescape hw1 rfl fun i hi => hb1 i (by omega)
  · intro i hi
    rw [(distPresent_spec m1 t hs _ hw1).1]
    have hle := presentTotal_le m1 t hs (m.windowKey n)
    split
    · exact hle
    · split
      · have := weight_mono (m1.codable t hs (m.windowKey n)) (t.childFreq hs (m.windowKey n)) (show i ≤ 256 by omega)
        unfold Modeller.presentTotal at hle; omega
      · exact hb1 i hi
  · refine hescape (Memory.wf_clearBelow hw1 _) rfl fun i hi => ?_
    rw [Memory.read_clearBelow, if_pos (by omega)]; decide

/-! ### The command -/

theorem orderOf_of_le {ordf : BitVec 4} (h : ordf.toNat ≤ 7) : orderOf ordf = (ordf.toNat : Int) := by
  rw [orderOf, if_pos h]

section Command

variable {s : State} (hr : s.Ready) {ordf : BitVec 4}

include hr

theorem exec_mdlDist (ordf : BitVec 4) :
    exec (.mdlDist ordf) s = .next (if orderOf ordf < -1 ∨ (s.order : Int) < orderOf ordf then s.raise .badOrder
      else if s.visitOverflows (orderOf ordf) then s.raise .visitOverflow
      else (s.setModel (s.model.distribute s.table s.build.hashSel s.order (orderOf ordf))).setResult
        (((s.model.distribute s.table s.build.hashSel s.order (orderOf ordf)).dist.read 258).setWidth 64)) :=
  congrArg Host.Outcome.next (State.command_of_ready hr)

theorem exec_mdlDist_order (h7 : ordf.toNat ≤ 7) (ho : ordf.toNat ≤ s.order)
    (hv : s.visitOverflows ordf.toNat = false) {m : Modeller}
    (hm : s.model.distribute s.table s.build.hashSel s.order ordf.toNat = m) :
    exec (.mdlDist ordf) s = .next ((s.setModel m).setResult ((m.dist.read 258).setWidth 64)) := by
  rw [exec_mdlDist hr, orderOf_of_le h7, if_neg (by omega), if_neg (by simp [hv]), hm]

end Command

theorem visitOverflows_of_short {s : State} {n : Nat} (h : s.model.win.length < n) :
    s.visitOverflows (n : Int) = false := by
  simp [State.visitOverflows]; omega

theorem visitOverflows_of_room {s : State} {n : Nat} (h : (s.visitBefore n).length < 7) :
    s.visitOverflows (n : Int) = false := by
  unfold State.visitBefore at h
  unfold State.visitOverflows
  by_cases hn : n = s.order
  · simp [hn]
  · rw [if_neg hn] at h
    simp [visitMax, h]

/-- Settles O30: the check on the order, then the check on the visit list. -/
theorem mdlDistRefusesBadOrders : Obligations.MdlDistRefusesBadOrders := by
  unfold Obligations.MdlDistRefusesBadOrders
  intro s ordf hr
  refine ⟨fun hbad => ?_, fun h7 ho hwin hfull => ?_⟩
  · have hord : orderOf ordf < -1 ∨ (s.order : Int) < orderOf ordf := by
      unfold orderOf; split <;> omega
    rw [exec_mdlDist hr, if_pos hord]; rfl
  · have hover : s.visitOverflows (ordf.toNat : Int) = true := by
      simp [State.visitOverflows, visitMax]; omega
    rw [exec_mdlDist hr, orderOf_of_le h7, if_neg (by omega), if_pos hover]; rfl

/-- Step 1 of distribute in the words of the statements (41_modeller.md R181). -/
theorem distStart_before (s : State) (n : Nat) :
    s.model.distStart (decide ((n : Int) = (s.order : Int))) =
        { s.model with dist := (s.model.distStart (decide ((n : Int) = (s.order : Int)))).dist, dchk := 0#256
                       excl := s.exclBefore n, visit := s.visitBefore n } ∧
      ∀ i ≤ 258, (s.model.distStart (decide ((n : Int) = (s.order : Int)))).distAt i = s.distBefore n i := by
  unfold State.exclBefore State.visitBefore State.distBefore
  by_cases hn : n = s.order
  · have hfirst : decide ((n : Int) = (s.order : Int)) = true := by simp [hn]
    rw [hfirst]
    refine ⟨by simp [distStart_eq, hn], fun i hi => ?_⟩
    rw [distStart_distAt _ _ hi, if_pos rfl, if_pos hn]
  · have hfirst : decide ((n : Int) = (s.order : Int)) = false := by simp; omega
    rw [hfirst]
    refine ⟨by simp [distStart_eq, hn], fun i hi => ?_⟩
    rw [distStart_distAt _ _ hi, if_neg (by decide), if_neg hn]

theorem read_setWidth_of_distAt {m : Modeller} {i v : Nat} (h : m.distAt i = v) :
    (m.dist.read i).setWidth 64 = BitVec.ofNat 64 v := by
  rw [← h, Modeller.distAt, BitVec.ofNat_toNat]

theorem toNat_setWidth_entry (x : BitVec 32) : (x.setWidth 64).toNat = x.toNat := by
  rw [BitVec.toNat_setWidth]; omega

/-- What a present context leaves alone (41_modeller.md R182 to R188). -/
theorem distPresent_frame (m : Modeller) (t : Table) (hs : HashSel) (p : Key) :
    m.distPresent t hs p = { m with
      dist := (m.distPresent t hs p).dist, dchk := (m.distPresent t hs p).dchk, excl := (m.distPresent t hs p).excl
      visit := m.visit ++ [p], latestRun := (m.distPresent t hs p).latestRun
      lastRun := (m.distPresent t hs p).lastRun, outscale := (m.distPresent t hs p).outscale } := by
  simp only [Modeller.distPresent, Modeller.push]

/-- What the fill of order -1 leaves alone (41_modeller.md R187). -/
theorem distFallback_frame (m : Modeller) :
    m.distFallback = { m with dist := m.distFallback.dist, dchk := m.excl } := by
  simp only [Modeller.distFallback]

theorem setModel_setResult_eq (s : State) {m m' : Modeller} (h : m = m') (v : Reg) :
    (s.setModel m).setResult v = { s with result := v, model := m' } := by
  rw [← h]; rfl

/-- Settles O31: step 1, then the short-window array. -/
theorem mdlDistShortWindow : Obligations.MdlDistShortWindow := by
  unfold Obligations.MdlDistShortWindow
  intro s ordf hr hw h7 ho hshort
  obtain ⟨hstart, hbefore⟩ := distStart_before s ordf.toNat
  have hw1 := distStart_wf hw (decide ((ordf.toNat : Int) = (s.order : Int)))
  rcases distribute_cases s.model s.table s.build.hashSel s.order (ord := (ordf.toNat : Int)) (by omega) with
    ⟨h, -⟩ | ⟨n, -, -, e⟩ | ⟨n, hn, hle, -⟩ | ⟨n, hn, hle, -⟩ <;> try omega
  generalize s.model.distStart (decide ((ordf.toNat : Int) = (s.order : Int))) = m1 at *
  obtain ⟨h256, h257, h258, hrest⟩ := distAt_escapeOnly (m := m1.distShort) hw1 rfl
  have hresult : (m1.distShort.dist.read 258).setWidth 64 = 1#64 := read_setWidth_of_distAt h258
  refine ⟨_, exec_mdlDist_order hr h7 ho (visitOverflows_of_short hshort) e, ?_, h256, h257, h258, fun i hi => ?_⟩
  · rw [hresult, hstart]; rfl
  · exact (hrest i hi).trans (hbefore i (by omega))

/-- Settles O32: step 1, then the array of an absent context. -/
theorem mdlDistAbsentParent : Obligations.MdlDistAbsentParent := by
  unfold Obligations.MdlDistAbsentParent
  intro s ordf hr hw h7 ho hwin hroom habs
  obtain ⟨hstart, -⟩ := distStart_before s ordf.toNat
  have hw1 := distStart_wf hw (decide ((ordf.toNat : Int) = (s.order : Int)))
  rcases distribute_cases s.model s.table s.build.hashSel s.order (ord := (ordf.toNat : Int)) (by omega) with
    ⟨h, -⟩ | ⟨n, hn, hshort, -⟩ | ⟨n, hn, -, hc, -⟩ | ⟨n, hn, -, -, e⟩ <;>
    try obtain rfl : ordf.toNat = n := by omega
  · omega
  · omega
  · rw [show s.model.windowKey ordf.toNat = s.contextAt ordf.toNat from rfl, habs] at hc; cases hc
  · generalize s.model.distStart (decide ((ordf.toNat : Int) = (s.order : Int))) = m1 at *
    obtain ⟨h256, h257, h258, hrest⟩ :=
      distAt_escapeOnly (m := m1.distAbsent (s.model.windowKey ordf.toNat)) (Memory.wf_clearBelow hw1 257) rfl
    have hresult : ((m1.distAbsent (s.model.windowKey ordf.toNat)).dist.read 258).setWidth 64 = 1#64 :=
      read_setWidth_of_distAt h258
    refine ⟨_, exec_mdlDist_order hr h7 ho (visitOverflows_of_room hroom) e, ?_, fun i hi => ?_, h257, h258⟩
    · rw [hresult, hstart]; rfl
    · rcases (by omega : i < 256 ∨ i = 256) with hlt | rfl
      · have hclear : ((m1.dist.clearBelow 257).read i).toNat = 0 := by
          rw [Memory.read_clearBelow, if_pos (by omega)]; rfl
        exact (hrest i hlt).trans hclear
      · exact h256

/-- The bytes a scan selects, in the words of the statements (41_modeller.md R182). -/
theorem codable_eq {s : State} {n : Nat} {m : Modeller} (h : m.excl = s.exclBefore n) :
    m.codable s.table s.build.hashSel (s.contextAt n) = s.codable n := by
  funext c
  rw [Modeller.codable, selected, h, BitVec.getLsbD_and]
  rfl

/-- Settles O33: step 1, then the scan of the context. -/
theorem mdlDistPresentParent : Obligations.MdlDistPresentParent := by
  unfold Obligations.MdlDistPresentParent
  intro s ordf hr hw h7 ho hwin hroom hcon
  obtain ⟨hstart, hbefore⟩ := distStart_before s ordf.toNat
  have hw1 := distStart_wf hw (decide ((ordf.toNat : Int) = (s.order : Int)))
  rcases distribute_cases s.model s.table s.build.hashSel s.order (ord := (ordf.toNat : Int)) (by omega) with
    ⟨h, -⟩ | ⟨n, hn, hshort, -⟩ | ⟨n, hn, -, -, e⟩ | ⟨n, hn, -, hc, -⟩ <;>
    try obtain rfl : ordf.toNat = n := by omega
  · omega
  · omega
  · generalize s.model.distStart (decide ((ordf.toNat : Int) = (s.order : Int))) = m1 at *
    obtain ⟨hdist, hdchk, hexcl, hlatest, hlast, hout⟩ :=
      distPresent_spec m1 s.table s.build.hashSel (s.model.windowKey ordf.toNat) hw1
    have hexcl1 : m1.excl = s.exclBefore ordf.toNat := by rw [hstart]
    have hdchk1 : m1.dchk = 0#256 := by rw [hstart]
    have hout1 : m1.outscale = s.model.outscale := by rw [hstart]
    have hsel : m1.codable s.table s.build.hashSel (s.model.windowKey ordf.toNat) = s.codable ordf.toNat :=
      codable_eq hexcl1
    have hweight (c : Nat) : weight (s.codable ordf.toNat)
        (s.table.childFreq s.build.hashSel (s.model.windowKey ordf.toNat)) c = s.weightBelow ordf.toNat c := rfl
    have htotal : m1.presentTotal s.table s.build.hashSel (s.model.windowKey ordf.toNat) =
        s.weightBelow ordf.toNat 256 + max 1 ((List.range 256).filter (s.codable ordf.toNat)).length := by
      rw [Modeller.presentTotal, hsel]; rfl
    have hle := presentTotal_le m1 s.table s.build.hashSel (s.model.windowKey ordf.toNat)
    simp only [hsel, hweight] at hdist hdchk hexcl hlatest
    have hat {i : Nat} (hi : i ≤ 256) (hwr : written (s.codable ordf.toNat) 256 i = true ∨ i = 256) :=
      (hdist i).trans ((if_neg (by omega)).trans (if_pos hwr))
    have h256 := hat (le_refl _) (.inr rfl)
    have h257 := (hdist 257).trans (if_pos (.inl rfl))
    have h258 := (hdist 258).trans (if_pos (.inr rfl))
    refine ⟨_, exec_mdlDist_order hr h7 ho (visitOverflows_of_room hroom) e, ?_, fun c hc => ?_, fun c hc => ?_,
      fun c hc hcod => ⟨?_, ?_⟩, fun i hi hno hprev => ?_, h256, h257.trans htotal, h258.trans h257.symm, ?_,
      hlatest.trans h256.symm, hlast.trans h257.symm, h258.trans_le hle⟩
    · have hframe := distPresent_frame m1 s.table s.build.hashSel (s.model.windowKey ordf.toNat)
      rw [hout, hout1, ← h257] at hframe
      refine setModel_setResult_eq s (hframe.trans ?_) _
      generalize m1.distPresent s.table s.build.hashSel (s.model.windowKey ordf.toNat) = m2
      rw [hstart]; rfl
    · exact (hdchk c hc).trans (by rw [hdchk1, BitVec.getLsbD_zero, Bool.false_or])
    · exact (hexcl c hc).trans (by rw [hexcl1])
    · exact hat (by omega) (.inl (written_of_sel hc hcod).1)
    · have hnext := hat (i := c + 1) (by omega) (.inl (written_of_sel hc hcod).2)
      have hsucc := weight_succ (s.codable ordf.toNat)
        (s.table.childFreq s.build.hashSel (s.model.windowKey ordf.toNat)) c
      rw [if_pos hcod] at hsucc
      exact hnext.trans hsucc
    · have hunwritten : written (s.codable ordf.toNat) 256 i = false := by
        simp only [written, hno, Bool.and_false, Bool.false_or]
        by_cases h0 : 0 < i
        · rw [hprev h0, Bool.and_false]
        · simp [h0]
      refine ((hdist i).trans ((if_neg (by omega)).trans (if_neg ?_))).trans (hbefore i (by omega))
      rw [hunwritten]; simp; omega
    · exact toNat_setWidth_entry _
  · rw [show s.model.windowKey ordf.toNat = s.contextAt ordf.toNat from rfl, hcon] at hc; cases hc

/-- Settles O34: the fill of order -1. -/
theorem mdlDistFallback : Obligations.MdlDistFallback := by
  unfold Obligations.MdlDistFallback
  intro s hr hw
  have hord : orderOf 15#4 = -1 := rfl
  have hlow : decide (orderOf 15#4 = (s.order : Int)) = false := decide_eq_false (by omega)
  obtain ⟨hbelow, h257, h258, -⟩ := distFallback_spec (m := s.model.distStart false) hw
  have hdistr : s.model.distribute s.table s.build.hashSel s.order (orderOf 15#4) =
      (s.model.distStart false).distFallback := by
    rw [Modeller.distribute, hlow]; exact if_pos rfl
  have hexec := exec_mdlDist hr 15#4
  rw [hdistr, if_neg (by omega),
    if_neg (by simp [State.visitOverflows, hord])] at hexec
  refine ⟨_, hexec, setModel_setResult_eq s (distFallback_frame _) _, hbelow, h257, h258, ?_⟩
  exact (toNat_setWidth_entry _).trans h258

/-- Settles O46: whatever its order, a distribute that ran left a distribution that can be searched. -/
theorem distributionsCanBeSearched : Obligations.DistributionsCanBeSearched := by
  unfold Obligations.DistributionsCanBeSearched
  intro s t ordf hr hw he hf
  rcases exec_cases he with ⟨-, h | h⟩ | ⟨c, -, rfl⟩ | ⟨heff, -⟩
  · cases h
  · rw [hr.2] at h; cases h
  · cases hf
  · cases heff with
    | mdlDist low high fits => exact distribute_searchable hw _ _ _ low

end Sys2Proof.Machine

/-! ## Updates

What MDL_UPDATE does after a rescale that is due: the table's steps, the saturation events, the window (41_modeller.md
R190 to R198). -/

namespace Sys2Proof.Machine

/-! ### Saturation events -/

/-- From `s` to `t` at most `n` saturation events were counted, exactly as many as S.sat_count tells; of the modeller
only S.boot_en and S.sat_count have changed. -/
structure Saturated (n : Nat) (s t : State) : Prop where
  model : t.model = { s.model with bootEn := t.model.bootEn, satCount := t.model.satCount }
  counted : s.model.satCount.toNat + n < 2 ^ 64 →
    ∃ k ≤ n, t.model.satCount.toNat = s.model.satCount.toNat + k ∧ t.draws = s.draws

theorem Saturated.refl (s : State) : Saturated 0 s s := ⟨rfl, fun _ => ⟨0, le_refl _, rfl, rfl⟩⟩

theorem Saturated.trans {m n : Nat} {s t u : State} (h : Saturated m s t) (g : Saturated n t u) :
    Saturated (m + n) s u := by
  refine ⟨?_, fun hs => ?_⟩
  · have hm := h.model
    have gm := g.model
    rw [hm] at gm; exact gm
  · obtain ⟨j, hj, hsat, hdraws⟩ := h.counted (by omega)
    obtain ⟨k, hk, hsat', hdraws'⟩ := g.counted (by omega)
    exact ⟨j + k, by omega, by omega, hdraws'.trans hdraws⟩

theorem Saturated.mono {m n : Nat} {s t : State} (h : Saturated m s t) (hmn : m ≤ n) : Saturated n s t :=
  ⟨h.model, fun hs => by
    obtain ⟨k, hk, hrest⟩ := h.counted (by omega)
    exact ⟨k, by omega, hrest⟩⟩

/-- A change of the table is no event. -/
theorem Saturated.setTable (s : State) (t : Table) : Saturated 0 s (s.setTable t) :=
  ⟨rfl, fun _ => ⟨0, le_refl _, rfl, rfl⟩⟩

theorem countSaturation_saturated (s : State) : Saturated 1 s s.countSaturation :=
  ⟨rfl, fun h => ⟨1, le_refl _, countUp_toNat h _, countDraws_eq h _⟩⟩

theorem bootstrapFailed_saturated (s : State) : Saturated 1 s s.bootstrapFailed :=
  ⟨rfl, fun h => ⟨1, le_refl _, countUp_toNat h _, countDraws_eq h _⟩⟩

theorem bootstrap_saturated (s : State) : Saturated 1 s s.bootstrap := by
  unfold State.bootstrap
  split
  · exact (Saturated.setTable s _).mono (by omega)
  · exact (Saturated.setTable s _).trans (bootstrapFailed_saturated _)

theorem saturationInUpdate_saturated (s : State) : Saturated 2 s s.saturationInUpdate := by
  have hreset : Saturated 1 s s.countSaturation.resetTable :=
    (countSaturation_saturated s).trans (Saturated.setTable _ _)
  unfold State.saturationInUpdate
  dsimp only
  split
  · exact hreset.trans (bootstrap_saturated _)
  · exact hreset.mono (by omega)

theorem countVisits_saturated (s : State) (c : Byte) : Saturated 2 s (s.countVisits c) := by
  unfold State.countVisits
  split
  · exact (Saturated.setTable s _).mono (by omega)
  · exact (Saturated.setTable s _).trans (saturationInUpdate_saturated _)

/-! ### The steps before the visits -/

/-- The state in which update starts to count the visited keys (41_modeller.md R190 to R192). -/
def State.beforeVisits (s : State) (c : Byte) : State := ((s.adaptStep).checkCounts c).serveRescale

theorem adaptStep_eq (s : State) :
    s.adaptStep = s.setModel { s.model with outscale := s.adaptStep.model.outscale
                                            sumEsc := s.adaptStep.model.sumEsc } := by
  unfold State.adaptStep; dsimp only; split_ifs <;> rfl

theorem checkCounts_eq (s : State) (c : Byte) :
    s.checkCounts c = s.setModel { s.model with outscale := (s.checkCounts c).model.outscale } := by
  unfold State.checkCounts; split_ifs <;> rfl

theorem serveRescale_eq (s : State) :
    s.serveRescale = (s.setTable s.serveRescale.table).setModel
      { s.model with outscale := false, sumEsc := s.serveRescale.model.sumEsc } := by
  unfold State.serveRescale
  split
  · rfl
  · rename_i hno
    rw [← Bool.eq_false_iff.2 hno]; rfl

/-- Before the visits only the counts of the table, the rescale request and the escape sum can have changed, and no
rescale is pending. -/
theorem beforeVisits_eq (s : State) (c : Byte) :
    s.beforeVisits c = (s.setTable (s.beforeVisits c).table).setModel
      { s.model with outscale := false, sumEsc := (s.beforeVisits c).model.sumEsc } := by
  unfold State.beforeVisits
  have hadapt := adaptStep_eq s
  generalize s.adaptStep = a at *
  have hcheck := checkCounts_eq a c
  generalize a.checkCounts c = b at *
  refine (serveRescale_eq b).trans ?_
  rw [hcheck, hadapt]; rfl

theorem beforeVisits_sizes (s : State) (c : Byte) : s.table.SameSize (s.beforeVisits c).table :=
  (((adaptStep_frame s).trans (checkCounts_frame _ c)).trans (serveRescale_frame _)).sizes

/-- The state in which update advances the window (41_modeller.md R190 to R194). -/
def State.afterVisits (s : State) (c : Byte) : State := (s.beforeVisits c).countVisits c

/-- What steps 1 to 4 of an update change, register by register. -/
theorem afterVisits_eq (s : State) (c : Byte) :
    ∃ table draws sumEsc bootEn satCount, s.table.SameSize table ∧
      s.afterVisits c = { s with table := table, draws := draws, model := { s.model with
        outscale := false, sumEsc := sumEsc, bootEn := bootEn, satCount := satCount } } := by
  have hframe := countVisits_frame (s.beforeVisits c) c
  have hmodel := (countVisits_saturated (s.beforeVisits c) c).model
  have hbefore := beforeVisits_eq s c
  refine ⟨_, (s.afterVisits c).draws, (s.beforeVisits c).model.sumEsc, (s.afterVisits c).model.bootEn,
    (s.afterVisits c).model.satCount, (beforeVisits_sizes s c).trans hframe.sizes, hframe.others.trans ?_⟩
  unfold State.afterVisits
  generalize s.beforeVisits c = b at *
  generalize b.countVisits c = v at *
  rw [hmodel, hbefore]; rfl

/-- What an update changes, register by register (41_modeller.md R195, R196). -/
theorem update_frame (s : State) (c : Byte) :
    s.update c = { s with
      draws := (s.update c).draws
      table := { (s.update c).table with n := s.table.n, m := s.table.m }
      model := { s.model with win := (s.update c).model.win, visit := [], outscale := false
                              sumEsc := (s.update c).model.sumEsc, bootEn := (s.update c).model.bootEn
                              satCount := (s.update c).model.satCount } } := by
  obtain ⟨table, draws, sumEsc, bootEn, satCount, ⟨hn, hm⟩, hv⟩ := afterVisits_eq s c
  have hupdate : s.update c = (s.afterVisits c).setModel ((s.afterVisits c).model.advance c) := rfl
  rw [hv] at hupdate
  rw [hupdate, ← hn, ← hm]; rfl

/-- The window after an update: the byte at its end, the oldest evicted at capacity (41_modeller.md R195). -/
theorem update_win (s : State) (c : Byte) :
    (s.update c).model.win =
      (if s.model.h.toNat ≤ s.model.win.length then s.model.win.drop 1 else s.model.win) ++ [c] := by
  obtain ⟨table, draws, sumEsc, bootEn, satCount, -, hv⟩ := afterVisits_eq s c
  change ((s.afterVisits c).model.advance c).win = _
  rw [hv]; rfl

/-- The saturation events an update counts (41_modeller.md R201). -/
theorem update_saturated (s : State) (c : Byte) (h : s.model.satCount.toNat + 2 < 2 ^ 64) :
    ∃ k ≤ 2, (s.update c).model.satCount.toNat = s.model.satCount.toNat + k ∧ (s.update c).draws = s.draws := by
  have hcounted := (countVisits_saturated (s.beforeVisits c) c).counted
  have hsat : (s.beforeVisits c).model.satCount = s.model.satCount := by rw [beforeVisits_eq]; rfl
  have hdraws : (s.beforeVisits c).draws = s.draws := by rw [beforeVisits_eq]; rfl
  rw [hsat, hdraws] at hcounted
  exact hcounted h

theorem update_boot (s : State) (c : Byte) (h : (s.update c).model.bootEn = true) : s.model.bootEn = true :=
  (updateSteps_frame s c).boot h

theorem setResult_of_eq {s t : State} (h : s = t) (r : Reg) : s.setResult r = { t with result := r } := by rw [h]; rfl

/-- Settles O35: an update is its steps over the table, then the window. -/
theorem mdlUpdateAdvancesTheWindow : Obligations.MdlUpdateAdvancesTheWindow := by
  unfold Obligations.MdlUpdateAdvancesTheWindow
  intro s sym hr
  refine ⟨rfl, fun hbad => ?_, fun hok => ?_⟩
  · rw [exec, execMdlUpdate, State.command_of_ready hr, if_pos hbad]; rfl
  · have hexec : exec (.mdlUpdate sym) s = .next ((s.update (sym.setWidth 8)).setResult
        ((s.update (sym.setWidth 8)).model.satCount - s.model.satCount)) := by
      rw [exec, execMdlUpdate, State.command_of_ready hr, if_neg (by omega)]
    refine ⟨_, hexec, ?_, ?_, update_boot s _, fun hsat => ?_⟩
    · exact setResult_of_eq (update_frame s _) _
    · rw [BitVec.ofNat_toNat]; exact update_win s _
    · obtain ⟨k, hk, hcount, hdraws⟩ := update_saturated s (sym.setWidth 8) hsat
      have hres : ((s.update (sym.setWidth 8)).model.satCount - s.model.satCount).toNat = k := by
        rw [BitVec.toNat_sub]; omega
      exact ⟨hres.trans_le hk, hcount.trans (by rw [← hres]; rfl), hdraws⟩

end Sys2Proof.Machine

/-! ## Updates and replays as commands

MDL_UPDATE does to the table what TBL_RESCALE, TBL_INSERT, TBL_SEEN and TBL_RESET do (41_modeller.md R190 to R198). -/

namespace Sys2Proof.Machine

/-- A visited key and its child are legal. -/
theorem legalKey_of_visitable {v : Key} (h : visitable v) (c : Byte) :
    legalKey v = true ∧ legalKey (childKey v c) = true := ⟨h.1, legalKey_childKey h.1 h.2 c⟩

/-! ### The visits of one update -/

section Visits

variable {s r u : State} {c : Byte} {ok : Bool} (hs : s.Ready) (hv : ∀ v ∈ s.model.visit, visitable v)
  (hsum : s.model.sumEsc.toNat + (s.model.lastRun.toNat - s.model.latestRun.toNat) < 2 ^ 64)
  (hr : r = if s.rescaleDue c then s.after .tblRescale else s) (hu : r.seeChildren c s.model.visit = (u, ok))

include hs hsum hr in
/-- A rescale that is due is a TBL_RESCALE (41_modeller.md R192). -/
theorem beforeVisits_table : (s.beforeVisits c).table = r.table ∧ TableFrame s r := by
  rw [State.beforeVisits, rescale_steps hsum, hr, tblRescale_after hs]
  split_ifs <;> exact ⟨rfl, rfl⟩

include hsum in
/-- The escape sum after the steps before the visits (41_modeller.md R190, R192). -/
theorem beforeVisits_sumEsc :
    (s.beforeVisits c).model.sumEsc.toNat = if s.rescaleDue c then 0 else if s.adapt = 0 then s.model.sumEsc.toNat
      else s.model.sumEsc.toNat + (s.model.lastRun.toNat - s.model.latestRun.toNat) := by
  rw [State.beforeVisits, rescale_steps hsum]
  split_ifs
  · rfl
  · rfl
  · change (_ + BitVec.ofNat 64 _ : Reg).toNat = _
    rw [BitVec.toNat_add, BitVec.toNat_ofNat, Nat.mod_eq_of_lt (a := _ - _) (by omega), Nat.mod_eq_of_lt hsum]

include hs hv hsum hr hu in
/-- The visits count what the commands over the visited keys count (41_modeller.md R193). -/
theorem visitAll_eq : TableFrame s u ∧
    (s.beforeVisits c).table.visitAll s.build.hashSel c s.model.visit = (u.table, ok) := by
  obtain ⟨htable, hframe⟩ := beforeVisits_table hs hsum hr
  obtain ⟨hframe', hvisit⟩ := seeChildren_spec (hframe.ready hs) fun v hmem => legalKey_of_visitable (hv v hmem) c
  rw [hu] at hframe' hvisit
  rw [htable, ← hframe.build]
  exact ⟨hframe.trans hframe', hvisit⟩

include hs hv hsum hr hu in
/-- After the visits: the table they leave, and a saturation event where one failed (41_modeller.md R193, R194). -/
theorem afterVisits_cases : TableFrame s u ∧ s.afterVisits c =
    if ok = true then (s.beforeVisits c).setTable u.table
    else ((s.beforeVisits c).setTable u.table).saturationInUpdate := by
  obtain ⟨hframe, hvisit⟩ := visitAll_eq hs hv hsum hr hu
  refine ⟨hframe, ?_⟩
  have hbuild : (s.beforeVisits c).build = s.build := by rw [beforeVisits_eq]; rfl
  have hkeys : (s.beforeVisits c).model.visit = s.model.visit := by rw [beforeVisits_eq]; rfl
  unfold State.afterVisits State.countVisits
  rw [hbuild, hkeys, hvisit]
  cases ok <;> rfl

end Visits

/-- Settles O36: no visit fails, so that the table is the commands' and no event is counted. -/
theorem mdlUpdateSeesTheChild : Obligations.MdlUpdateSeesTheChild := by
  unfold Obligations.MdlUpdateSeesTheChild
  intro s c r u hs hv hsum hr hu
  obtain ⟨-, hafter⟩ := afterVisits_cases hs hv hsum hr hu
  have hbefore := beforeVisits_eq s c
  rw [if_pos rfl] at hafter
  have hsat : (s.update c).model.satCount = s.model.satCount := by
    change (s.afterVisits c).model.satCount = _
    rw [hafter, hbefore]; rfl
  have hboot : (s.update c).model.bootEn = s.model.bootEn := by
    change (s.afterVisits c).model.bootEn = _
    rw [hafter, hbefore]; rfl
  have hdraws : (s.update c).draws = s.draws := by
    change (s.afterVisits c).draws = _
    rw [hafter, hbefore]; rfl
  refine ⟨_, execMdlUpdate_byte hs c, ?_, ?_, hsat, hboot, hdraws, ?_⟩
  · change (s.update c).model.satCount - s.model.satCount = 0#64
    rw [hsat, BitVec.sub_self]
  · change (s.afterVisits c).table = _
    rw [hafter]; rfl
  · change (s.afterVisits c).model.sumEsc.toNat = _
    rw [hafter]; exact beforeVisits_sumEsc hsum

/-- Settles O37: the updates in which no key is visited. -/
theorem mdlUpdateAdapts : Obligations.MdlUpdateAdapts := by
  unfold Obligations.MdlUpdateAdapts
  intro s c hs hadapt hvisit hsum
  obtain ⟨t, hexec, hresult, htable, -, -, -, hsumEsc⟩ := mdlUpdateSeesTheChild s c _ _ hs (by simp [hvisit]) hsum rfl
    (by rw [hvisit]; rfl)
  have hdue : s.rescaleDue c = (s.model.outscale || decide (s.model.adaptThr.toNat ≤
      s.model.sumEsc.toNat + (s.model.lastRun.toNat - s.model.latestRun.toNat))) := by
    simp [State.rescaleDue, hvisit, hadapt]
  refine ⟨t, hexec, hresult, fun h => ?_, fun hlt hno => ?_⟩
  · have hyes : s.rescaleDue c = true := by
      rw [hdue, Bool.or_eq_true, decide_eq_true_iff]; exact h.symm
    rw [if_pos hyes] at htable hsumEsc
    refine ⟨BitVec.eq_of_toNat_eq hsumEsc, ?_⟩
    rw [htable, tblRescale_after hs]
    exact congrArg Host.Outcome.next (State.command_of_ready hs)
  · have hnot : s.rescaleDue c = false := by
      rw [hdue, hno, Bool.false_or, decide_eq_false_iff_not]; omega
    rw [hnot] at htable hsumEsc
    exact ⟨hsumEsc.trans (if_neg hadapt), htable⟩

/-! ### Replays -/

theorem replayKeys_zero (win : List Byte) : replayKeys win 0 = win.map fun b => contextKey [b] := by
  have hzero : replayKeys win 0 = passKeys win 0 := List.append_nil _
  rw [hzero]
  refine List.ext_getElem (by simp [passKeys]) fun i hi _ => ?_
  have hlt : i < win.length := by simpa [passKeys] using hi
  have hone : (win.drop i).take 1 = [win[i]] := by rw [List.drop_eq_getElem_cons hlt]; rfl
  simp only [passKeys, List.getElem_map, List.getElem_range, zero_add, hone]

theorem replayKeys_succ (win : List Byte) (o : Nat) :
    replayKeys win (o + 1) = replayKeys win o ++ passKeys win (o + 1) := by
  rw [replayKeys, List.range_succ, List.flatMap_append, List.flatMap_singleton]; rfl

/-- The key of a pass that ends at window position `i`. -/
theorem passKeys_getElem? {win : List Byte} {len i : Nat} (hlen : len ≤ i) (hi : i < win.length) :
    (passKeys win len)[i - len]? = some (contextKey ((win.take (i + 1)).drop (i - len))) := by
  rw [passKeys, List.getElem?_map, List.getElem?_range (by omega), List.drop_take]
  simp only [Option.map_some]
  rw [show i + 1 - (i - len) = len + 1 by omega]

theorem legalKey_of_mem_replayKeys {win : List Byte} {o : Nat} (ho : o ≤ 6) {k : Key} (h : k ∈ replayKeys win o) :
    legalKey k = true := by
  simp only [replayKeys, passKeys, List.mem_flatMap, List.mem_map, List.mem_range] at h
  obtain ⟨len, hlen, i, -, rfl⟩ := h
  exact legalKey_contextKey (by rw [List.length_take]; omega)

/-! ### Saturation -/

theorem Table.SameSize.reset_read {t u : Table} {hs : HashSel} (h : t.SameSize u) (hn : 0 < t.n.toNat)
    (hm : 1 < t.m.toNat) {i : Nat} (hi : i < t.n.toNat) :
    (u.reset hs).key.read i = (t.reset hs).key.read i ∧ (u.reset hs).count.read i = (t.reset hs).count.read i ∧
      (u.reset hs).fidx.read i = (t.reset hs).fidx.read i := by
  have hslot := (h.hash hs root).1
  have hnn := h.1
  have hmm := h.2
  obtain ⟨hk, hc, hf⟩ := Table.reset_read_below (hs := hs) hn hm hi
  obtain ⟨hk', hc', hf'⟩ := Table.reset_read_below (t := u) (hs := hs) (hnn ▸ hn) (hmm ▸ hm) (hnn ▸ hi)
  rw [hk, hc, hf, hk', hc', hf', hslot]
  exact ⟨rfl, rfl, rfl⟩

/-- A failed visit of an update: the event is counted and the table, `t` by then, is reset (41_modeller.md R194). -/
def State.failVisits (s : State) (c : Byte) (t : Table) : State :=
  ((s.beforeVisits c).setTable t).countSaturation.resetTable

theorem failVisits_eq (s : State) (c : Byte) (t : Table) :
    s.failVisits c t = { s with
      table := t.reset s.build.hashSel
      model := { s.model with outscale := false, sumEsc := (s.beforeVisits c).model.sumEsc
                              satCount := countUp s.draws s.model.satCount }
      draws := countDraws s.draws s.model.satCount } := by
  have hbefore := beforeVisits_eq s c
  unfold State.failVisits
  generalize s.beforeVisits c = b at *
  rw [hbefore]
  rfl

theorem saturationInUpdate_beforeVisits (s : State) (c : Byte) (t : Table) :
    ((s.beforeVisits c).setTable t).saturationInUpdate =
      if s.model.bootEn = true ∧ s.model.h.toNat ≤ s.model.win.length then (s.failVisits c t).bootstrap
      else s.failVisits c t := by
  change (if (s.failVisits c t).model.bootEn = true ∧ (s.failVisits c t).model.h.toNat ≤
    (s.failVisits c t).model.win.length then (s.failVisits c t).bootstrap else s.failVisits c t) = _
  have hboot : (s.failVisits c t).model.bootEn = s.model.bootEn := by rw [failVisits_eq]
  have hh : (s.failVisits c t).model.h = s.model.h := by rw [failVisits_eq]
  have hwin : (s.failVisits c t).model.win = s.model.win := by rw [failVisits_eq]
  rw [hboot, hh, hwin]

/-- The events between two values of the saturation counter. -/
theorem sub_eq_of_toNat_eq_add {x y : Reg} {k : Nat} (h : x.toNat = y.toNat + k) : x - y = BitVec.ofNat 64 k := by
  have hx := x.isLt
  apply BitVec.eq_of_toNat_eq
  rw [BitVec.toNat_sub, BitVec.toNat_ofNat]
  omega

/-- What bootstrap does in terms of the TBL_SEEN commands over the replay keys (41_modeller.md R197, R198). -/
theorem bootstrap_eq_of_seeKeys {s z w : State} {ok : Bool} (hz : z.Ready) (ho : s.order ≤ 6)
    (htable : z.table = s.table) (hbuild : z.build = s.build)
    (hw : z.seeKeys (replayKeys s.model.win s.order) = (w, ok)) :
    s.bootstrap = (if ok = true then s.setTable w.table else (s.setTable w.table).bootstrapFailed) ∧
      w.Ready ∧ w.build = s.build ∧ s.table.SameSize w.table := by
  obtain ⟨hframe, hreplay⟩ := seeKeys_spec hz fun k => legalKey_of_mem_replayKeys (win := s.model.win) ho
  rw [hw] at hframe hreplay
  rw [htable, hbuild] at hreplay
  have hsizes := replay_sizes s.build.hashSel (replayKeys s.model.win s.order) s.table
  rw [hreplay] at hsizes
  refine ⟨?_, hframe.ready hz, hframe.build.trans hbuild, hsizes⟩
  unfold State.bootstrap
  rw [hreplay]
  cases ok <;> rfl

theorem exec_tblReset {s : State} (h : s.Ready) :
    exec .tblReset s = .next (s.setTable (s.table.reset s.build.hashSel)) :=
  congrArg Host.Outcome.next (State.command_of_ready h)

/-- Settles O38: the first failed visit resets the table; a failed replay resets it again. -/
theorem saturationResetsTheTable : Obligations.SaturationResetsTheTable := by
  unfold Obligations.SaturationResetsTheTable
  refine ⟨replayKeys_zero, fun win o => ⟨_, replayKeys_succ win o, by simp [passKeys], fun i => passKeys_getElem?⟩, ?_⟩
  intro s c r u hs hv hsum hsat hr hu
  obtain ⟨hframe, hafter⟩ := afterVisits_cases hs hv hsum hr hu
  rw [if_neg (by simp), saturationInUpdate_beforeVisits] at hafter
  have hfail := failVisits_eq s c u.table
  have hsizes : s.table.SameSize u.table := by
    have hvisit := (visitAll_eq hs hv hsum hr hu).2
    have hsame := visitAll_sizes s.build.hashSel c s.model.visit (s.beforeVisits c).table
    rw [hvisit] at hsame
    exact (beforeVisits_sizes s c).trans hsame
  have hcount : (countUp s.draws s.model.satCount).toNat = s.model.satCount.toNat + 1 := countUp_toNat (by omega) _
  have hreset : exec .tblReset u = .next (u.setTable (u.table.reset s.build.hashSel)) := by
    rw [exec_tblReset (hframe.ready hs), hframe.build]
  have hupdate : s.update c = (s.afterVisits c).setModel ((s.afterVisits c).model.advance c) := rfl
  have hz : (u.setTable (u.table.reset s.build.hashSel)).Ready := hframe.ready hs
  have hboots {w : State} {ok : Bool} (ho : s.order ≤ 6)
      (hw : (u.setTable (u.table.reset s.build.hashSel)).seeKeys (replayKeys s.model.win s.order) = (w, ok)) :=
    bootstrap_eq_of_seeKeys (s := s.failVisits c u.table) (w := w) (ok := ok) hz (by rw [hfail]; exact ho)
      (by rw [hfail]; rfl) (by rw [hfail]; exact hframe.build) (by rw [hfail]; exact hw)
  refine ⟨_, _, execMdlUpdate_byte hs c, hreset, fun hno => ?_, fun w hboot hwin ho hw => ?_,
    fun w hboot hwin ho hn hm hw => ?_⟩
  · have hnot : ¬ (s.model.bootEn = true ∧ s.model.h.toNat ≤ s.model.win.length) := by
      rintro ⟨hboot, hwin⟩
      rcases hno with hoff | hshort
      · rw [hoff] at hboot; cases hboot
      · omega
    rw [if_neg hnot, hfail] at hafter
    rw [hupdate, hafter]
    exact ⟨rfl, sub_eq_of_toNat_eq_add hcount, rfl⟩
  · rw [if_pos ⟨hboot, hwin⟩, (hboots ho hw).1, if_pos rfl, hfail] at hafter
    rw [hupdate, hafter]
    exact ⟨rfl, sub_eq_of_toNat_eq_add hcount, hboot⟩
  · obtain ⟨hbootstrap, hwr, hwb, hwsizes⟩ := hboots ho hw
    rw [if_pos ⟨hboot, hwin⟩, hbootstrap, if_neg (by decide), hfail] at hafter
    rw [hfail] at hwb hwsizes
    have hsame : s.table.SameSize w.table := (hsizes.trans (Table.reset_sizes _ _)).trans hwsizes
    have hnn := hsame.1
    have hmm := hsame.2
    have hresetw := Table.reset_eq (t := w.table) (hs := s.build.hashSel) (hnn ▸ hn) (hmm ▸ hm)
    have hcount' : (countUp (countDraws s.draws s.model.satCount) (countUp s.draws s.model.satCount)).toNat =
        s.model.satCount.toNat + 2 := by rw [countUp_toNat (by omega), hcount]
    have htable : (s.update c).table = w.table.reset s.build.hashSel := by rw [hupdate, hafter]; rfl
    refine ⟨?_, ?_, ⟨w.setTable (w.table.reset s.build.hashSel), ?_, htable⟩, ?_, ?_, fun q hq => ?_, fun i hi => ?_⟩
    · rw [hupdate, hafter]; exact sub_eq_of_toNat_eq_add hcount'
    · rw [hupdate, hafter]; rfl
    · rw [exec_tblReset hwr, hwb]
    · exact (congrArg Table.isFull htable).trans (congrArg Table.isFull hresetw)
    · exact (congrArg Table.nextFree htable).trans (congrArg Table.nextFree hresetw)
    · refine (congrArg (fun t => t.pool.read q) htable).trans ?_
      rw [(Table.reset_read (t := w.table) (hs := s.build.hashSel) (hnn ▸ hn) (hmm ▸ hm) q).2.2.2, hmm, if_pos hq]
    · have hun := hsizes.1
      have hum := hsizes.2
      have hslots := Table.SameSize.reset_read (hs := s.build.hashSel) ((Table.reset_sizes _ _).trans hwsizes)
        (t := u.table) (hun ▸ hn) (hum ▸ hm) (hun ▸ hi)
      change (s.update c).table.key.read i = _ ∧ (s.update c).table.count.read i = _ ∧
        (s.update c).table.fidx.read i = _
      rw [htable]
      exact hslots

end Sys2Proof.Machine

/-! ## Bit and byte input and output

The bytes the writer delivers and counts, and the statements on the BIT and RAW commands (43_bitio.md). -/

namespace Sys2Proof.Machine

/-! ### Bytes delivered -/

/-- From `s` to `t` the output has grown at its end, and S.outcnt has counted the bytes delivered as long as it does not
pass 2^64. -/
def Delivered (s t : State) : Prop :=
  s.output <+: t.output ∧
    (s.enc.outcnt.toNat + t.output.length < 2 ^ 64 + s.output.length →
      t.enc.outcnt.toNat + s.output.length = s.enc.outcnt.toNat + t.output.length ∧ t.draws = s.draws)

/-- A step that delivers nothing. -/
theorem Delivered.of_eq {s t : State} (hout : t.output = s.output) (hcount : t.enc.outcnt = s.enc.outcnt)
    (hdraws : t.draws = s.draws) : Delivered s t := by
  unfold Delivered
  rw [hout, hcount]
  exact ⟨List.prefix_rfl, fun _ => ⟨rfl, hdraws⟩⟩

theorem Delivered.refl (s : State) : Delivered s s := .of_eq rfl rfl rfl

theorem Delivered.trans {s t u : State} (h : Delivered s t) (g : Delivered t u) : Delivered s u := by
  obtain ⟨hpre, hcount⟩ := h
  obtain ⟨gpre, gcount⟩ := g
  have hlen := hpre.length_le
  have glen := gpre.length_le
  refine ⟨hpre.trans gpre, fun hlt => ?_⟩
  obtain ⟨hout, hdraws⟩ := hcount (by omega)
  obtain ⟨gout, gdraws⟩ := gcount (by omega)
  exact ⟨by omega, gdraws.trans hdraws⟩

theorem putBit_delivered (s : State) (b : Bool) : Delivered s (s.putBit b) := by
  have hlt := s.bits.wrCnt.isLt
  by_cases h7 : s.bits.wrCnt.toNat = 7
  · obtain ⟨⟨x, hx⟩, hcount, hdraws, -⟩ := putBit_output_full b h7
    refine ⟨⟨[x], hx.symm⟩, fun hno => ?_⟩
    rw [hx, List.length_append, List.length_singleton] at hno ⊢
    rw [hcount, hdraws, countUp_toNat (by omega), countDraws_eq (by omega)]
    exact ⟨by omega, rfl⟩
  · obtain ⟨hout, hcount, hdraws⟩ := putBit_output_short (s := s) b (by omega)
    exact .of_eq hout hcount hdraws

theorem putBits_delivered (n : Nat) (b : Bool) (s : State) : Delivered s (s.putBits n b) := by
  induction n generalizing s with
  | zero => exact .refl s
  | succ n ih => exact (putBit_delivered s b).trans (ih _)

theorem padBits_delivered (n : Nat) (s : State) : Delivered s (s.padBits n) := by
  induction n generalizing s with
  | zero => exact .refl s
  | succ n ih =>
    unfold State.padBits
    split
    · exact .refl s
    · exact (putBit_delivered s false).trans (ih _)

theorem bitsOut_length (s : State) : s.bitsOut.length = 8 * s.output.length + s.bits.wrCnt.toNat := by
  rw [State.bitsOut, List.length_append, length_flatMap_byteBits, pending_length]

/-- Padding empties the write buffer, if it was empty on a byte boundary. -/
theorem padBits_wrBuf (n : Nat) (s : State) (hn : (8 - s.bits.wrCnt.toNat) % 8 ≤ n) (h : s.bits.wrCnt ≠ 0#3) :
    (s.padBits n).bits.wrBuf = 0#8 := by
  have hlt := s.bits.wrCnt.isLt
  induction n generalizing s with
  | zero => exact absurd (BitVec.eq_of_toNat_eq (by simp; omega)) h
  | succ n ih =>
    have hne : s.bits.wrCnt.toNat ≠ 0 := fun h0 => h (BitVec.eq_of_toNat_eq h0)
    have hcnt := putBit_wrCnt s false
    rw [State.padBits, if_neg h]
    by_cases h7 : s.bits.wrCnt.toNat = 7
    · have hzero : (s.putBit false).bits.wrCnt = 0#3 := BitVec.eq_of_toNat_eq (by rw [hcnt, h7]; rfl)
      have hstop : (s.putBit false).padBits n = s.putBit false := by
        cases n
        · rfl
        · rw [State.padBits, if_pos hzero]
      rw [hstop]
      exact (putBit_output_full false h7).2.2.2
    · refine ih _ (by rw [hcnt]; omega) (fun h0 => ?_) (by rw [hcnt]; omega)
      rw [h0] at hcnt
      simp at hcnt; omega

/-! ### Written bits -/

/-- Settles O48: one bit goes to the writer. -/
theorem bitPutAppendsOneBit : Obligations.BitPutAppendsOneBit := by
  unfold Obligations.BitPutAppendsOneBit
  refine fun s sym hr => ⟨fun hbad => ?_, fun hok => ?_⟩
  · rw [exec, execBitPut, State.command_of_ready hr, if_pos hbad]; rfl
  · have hexec : exec (.bitPut sym) s = .next (s.putBit (sym.getLsbD 0)) := by
      rw [exec, execBitPut, State.command_of_ready hr, if_neg (by omega)]
    have hbit : sym.getLsbD 0 = decide (sym = 1#9) := by
      have hcases : sym.toNat = 0 ∨ sym.toNat = 1 := by omega
      rcases hcases with h | h
      · rw [show sym = 0#9 from BitVec.eq_of_toNat_eq h]; rfl
      · rw [show sym = 1#9 from BitVec.eq_of_toNat_eq h]; rfl
    have hlen := congrArg List.length (putBit_bitsOut s (sym.getLsbD 0))
    have hcnt := putBit_wrCnt s (sym.getLsbD 0)
    rw [bitsOut_length, List.length_append, List.length_singleton, bitsOut_length] at hlen
    refine ⟨_, hexec, (putBit_bitsOut s _).trans (by rw [hbit]), hcnt, (putBit_frame s _).eq, fun h => ?_, fun h => ?_⟩
    · obtain ⟨hout, hcount, -⟩ := putBit_output_short (sym.getLsbD 0) h
      exact ⟨hout, hcount⟩
    · have hgrow : (s.putBit (sym.getLsbD 0)).output.length = s.output.length + 1 := by omega
      refine ⟨hgrow, fun hno => ?_⟩
      obtain ⟨hcount, hdraws⟩ := (putBit_delivered s (sym.getLsbD 0)).2 (by omega)
      exact ⟨by omega, hdraws⟩

theorem flushBits_of_boundary {s : State} (h : s.bits.wrCnt = 0#3) : s.flushBits = s := by
  rw [State.flushBits, State.padBits, if_pos h]

/-- Settles O49: the pad bits go to the writer. -/
theorem bitFlushPadsToAByte : Obligations.BitFlushPadsToAByte := by
  unfold Obligations.BitFlushPadsToAByte
  intro s hr
  obtain ⟨hbits, hcnt⟩ := padBits_bitsOut 7 s (by omega)
  refine ⟨by decide, fun h => by rw [exec_bitFlush hr, flushBits_of_boundary h], _, exec_bitFlush hr, hcnt, hbits, ?_,
    fun hne hno => ?_⟩
  · have hframe := (flushBits_frame s).eq
    rw [show s.flushBits.bits.wrCnt = 0#3 from hcnt] at hframe
    exact hframe
  · have hlen := congrArg List.length hbits
    rw [bitsOut_length, hcnt, List.length_append, bitsOut_length, List.length_replicate, BitVec.toNat_ofNat] at hlen
    have hpos : s.bits.wrCnt.toNat ≠ 0 := fun h0 => hne (BitVec.eq_of_toNat_eq h0)
    have hlt := s.bits.wrCnt.isLt
    have hgrow : (s.padBits 7).output.length = s.output.length + 1 := by omega
    obtain ⟨hcount, -⟩ := (padBits_delivered 7 s).2 (by omega)
    exact ⟨by change (s.padBits 7).enc.outcnt.toNat = _; omega, hgrow⟩

/-! ### Bits read -/

/-- With unread bits left the reader asks for no byte (43_bitio.md R264). -/
theorem getBit_of_unread {s : State} (h : s.bits.rdCnt ≠ 0#4) :
    s.getBit.2.input = s.input ∧ s.getBit.2.dec = s.dec := by
  rw [State.getBit, if_neg h]; exact ⟨rfl, rfl⟩

/-- With none left it takes the next byte of the input, which enters S.hist and is counted (43_bitio.md R264). -/
theorem getBit_of_byte {s : State} (h : s.bits.rdCnt = 0#4) (he : s.dec.eof = false) {x : Byte} {xs : List Byte}
    (hi : s.input = x :: xs) :
    s.getBit = ((({ s with input := xs } : State).loadByte x).shiftOut) := by
  rw [State.getBit, if_pos h, if_neg (by simp [he]), State.inByte_cons hi]

theorem exec_bitGet {s : State} (h : s.Ready) :
    exec .bitGet s = .next (s.getBit.2.setResult ((flag64 s.getBit.2.dec.eof <<< 1) ||| flag64 s.getBit.1)) :=
  congrArg Host.Outcome.next (State.command_of_ready h)

/-- Settles O50: get_bit with a bit left, and at the end. -/
theorem bitGetTakesTheNextBit : Obligations.BitGetTakesTheNextBit := by
  unfold Obligations.BitGetTakesTheNextBit
  refine fun s hr h8 => ⟨fun b rest he hb => ?_, fun hcnt hend => ?_⟩
  · obtain ⟨hbit, hrest, heof, -⟩ := getBit_cons h8 he hb
    refine ⟨_, exec_bitGet hr, hrest, ?_, heof, ?_, fun hne => ?_, fun x xs hcnt hi => ?_⟩
    · rw [State.setResult_result, heof, hbit]
      cases b <;> rfl
    · have hframe := (getBit_frame s).eq
      rw [heof, ← he] at hframe
      exact setResult_of_eq hframe _
    · obtain ⟨hin, hdec⟩ := getBit_of_unread hne
      exact ⟨hin, congrArg Decoder.fetched hdec, congrArg Decoder.hist hdec⟩
    · rw [getBit_of_byte hcnt he hi]
      exact ⟨rfl, rfl, fun hno => countUp_toNat hno _⟩
  · have hresult : (flag64 true <<< 1) ||| flag64 false = 2#64 := by decide
    rw [exec_bitGet hr, getBit_end hcnt hend, ← hresult]; rfl

/-! ### Whole bytes -/

/-- Settles O51: the refusals and the cases of RAW_PUT and RAW_GET. -/
theorem rawBytesPassUncounted : Obligations.RawBytesPassUncounted := by
  unfold Obligations.RawBytesPassUncounted
  refine ⟨by decide, fun s sym hr => ?_⟩
  refine ⟨rfl, fun hbad => ?_, fun hok hcnt => ?_, fun hok hcnt => ?_, fun hcnt => ?_, fun hcnt he => ?_,
    fun hcnt he hi => ?_, fun x rest hcnt he hi => ?_⟩
  · rw [exec, execRawPut, State.command_of_ready hr, if_pos hbad]; rfl
  · rw [exec, execRawPut, State.command_of_ready hr, if_neg (by omega), if_pos hcnt]; rfl
  · rw [exec, execRawPut, State.command_of_ready hr, if_neg (by omega), if_neg (by simp [hcnt]), BitVec.ofNat_toNat]
    rfl
  · rw [exec, execRawGet, State.command_of_ready hr, if_pos hcnt]; rfl
  · rw [exec, execRawGet, State.command_of_ready hr, if_neg (by simp [hcnt]), if_pos he]; rfl
  · rw [exec, execRawGet, State.command_of_ready hr, if_neg (by simp [hcnt]), if_neg (by simp [he]),
      State.inByte_nil hi]
    rfl
  · rw [exec, execRawGet, State.command_of_ready hr, if_neg (by simp [hcnt]), if_neg (by simp [he]),
      State.inByte_cons hi]
    rfl

end Sys2Proof.Machine

/-! ## The arithmetic coder

ENC_START, ENC_SYM and ENC_FINISH, and DEC_SYM, by what a renormalisation does (42_coder.md). -/

namespace Sys2Proof.Machine

/-! ### What the coder commands do when they are not refused -/

theorem Modeller.zeroFreq_eq_true_iff {m : Modeller} {sym : Nat} :
    m.zeroFreq sym = true ↔
      m.distAt 258 = 0 ∨ m.distAt (sym + 1) ≤ m.distAt sym ∨ m.distAt 258 < m.distAt (sym + 1) := by
  simp only [Modeller.zeroFreq, Bool.or_eq_true, decide_eq_true_iff, or_assoc]

theorem Modeller.zeroFreq_eq_false_iff {m : Modeller} {sym : Nat} :
    m.zeroFreq sym = false ↔
      m.distAt 258 ≠ 0 ∧ m.distAt sym < m.distAt (sym + 1) ∧ m.distAt (sym + 1) ≤ m.distAt 258 := by
  rw [← Bool.not_eq_true, Modeller.zeroFreq_eq_true_iff]
  push Not
  rfl

theorem exec_encSym {s : State} (h : s.Ready) {sym : BitVec 9} (hsym : sym.toNat ≤ 257) (hact : s.enc.active = true)
    (hfreq : s.model.zeroFreq sym.toNat = false) :
    exec (.encSym sym) s = .next
      (s.encodeInterval (s.model.distAt sym.toNat) (s.model.distAt (sym.toNat + 1)) (s.model.distAt 258)) := by
  rw [exec, execEncSym, State.command_of_ready h, if_neg (Nat.not_lt.2 hsym), if_neg (by simp [hact]),
    if_neg (by simp [hfreq])]

theorem exec_decSym {s : State} (h : s.Ready) (hact : s.dec.active = true) (htotal : s.model.distAt 258 ≠ 0) {sym : Nat}
    (hfound : s.model.search (s.dec.target (s.model.distAt 258)) = some sym) :
    exec .decSym s = .next ((s.decodeInterval (s.model.distAt sym) (s.model.distAt (sym + 1))
      (s.model.distAt 258)).setResult (BitVec.ofNat 64 sym)).checkTruncated := by
  rw [exec, execDecSym, State.command_of_ready h, if_neg (by simp [hact]), if_neg htotal]
  simp only [hfound]

theorem exec_encFinish {s : State} (h : s.Ready) (hact : s.enc.active = true) :
    exec .encFinish s = .next ((s.encFinishBits.setEnc { s.encFinishBits.enc with active := false }).setResult
      s.encFinishBits.enc.outcnt) := by
  rw [exec, execEncFinish, State.command_of_ready h, if_neg (by simp [hact])]

/-- Settles O39: the refusals in their order. -/
theorem encStartAndEncSymRefusals : Obligations.EncStartAndEncSymRefusals := by
  unfold Obligations.EncStartAndEncSymRefusals
  refine ⟨by decide, fun s sym hr => ⟨fun hcnt => ?_, fun hcnt => ?_, fun hbad => ?_, fun hok hact => ?_,
    fun hok hact hzero => ?_⟩⟩
  · rw [exec, execEncStart, State.command_of_ready hr, if_pos hcnt]; rfl
  · rw [exec, execEncStart, State.command_of_ready hr, if_neg (by simp [hcnt])]; rfl
  · rw [exec, execEncSym, State.command_of_ready hr, if_pos hbad]; rfl
  · rw [exec, execEncSym, State.command_of_ready hr, if_neg (Nat.not_lt.2 hok), if_pos hact]; rfl
  · rw [exec, execEncSym, State.command_of_ready hr, if_neg (Nat.not_lt.2 hok), if_neg (by simp [hact]),
      if_pos (Modeller.zeroFreq_eq_true_iff.2 hzero)]
    rfl

/-! ### The encoder -/

theorem bitPlusFollow_delivered (s : State) (b : Bool) : Delivered s (s.bitPlusFollow b) :=
  ((putBit_delivered s b).trans (putBits_delivered _ _ _)).trans (.of_eq rfl rfl rfl)

/-- Each shift sends bits or adds one to those pending, which are counted as long as the counter does not pass 2^64. -/
theorem encRenorm_delivered (n : Nat) (s : State) (hb : s.enc.btf.toNat + n < 2 ^ 64) :
    Delivered s (s.encRenorm n) := by
  induction n generalizing s with
  | zero => exact .refl s
  | succ n ih =>
    unfold State.encRenorm
    split
    · have hbtf := (bitPlusFollow_spec s (s.enc.low.getLsbD 31)).2.1
      have hnone : (s.bitPlusFollow (s.enc.low.getLsbD 31)).encShift.enc.btf.toNat = 0 := congrArg BitVec.toNat hbtf
      refine (bitPlusFollow_delivered s (s.enc.low.getLsbD 31)).trans (Delivered.trans ?_ (ih _ (by omega)))
      exact .of_eq rfl rfl rfl
    · have hcount : s.encStraddle.encShift.enc.btf.toNat = s.enc.btf.toNat + 1 := countUp_toNat (by omega) _
      refine Delivered.trans ?_ (ih _ (by omega))
      exact .of_eq rfl rfl (countDraws_eq (by omega) _)
    · exact .refl s

theorem encodeInterval_delivered {s : State} (l r t : Nat) (hb : s.enc.btf.toNat + 32 < 2 ^ 64) :
    Delivered s (s.encodeInterval l r t) := by
  refine Delivered.trans ?_ (encRenorm_delivered _ _ hb)
  exact .of_eq rfl rfl rfl

/-- A renormalised interval is left alone (42_coder.md R223). -/
theorem renormCase_of_rangeOk {low high : Reg} (h : rangeOk low high) : renormCase low high = .exit := by
  have hcase := renormCase_spec h.interval
  obtain ⟨h1, h2, h3, h4⟩ := h
  cases hc : renormCase low high <;> rw [hc] at hcase <;> dsimp only at hcase
  · omega
  · omega

/-- Narrowing to the whole total changes nothing (42_coder.md R221). -/
theorem narrow_whole {low high : Reg} (h : low.toNat ≤ high.toNat) {t : Nat} (ht : 0 < t) :
    narrowLow low high 0 t = low ∧ narrowHigh low high t t = high := by
  rw [narrowLow, narrowHigh, Nat.mul_zero, Nat.zero_div, Nat.add_zero, Nat.mul_div_cancel _ ht,
    show low.toNat + (high.toNat - low.toNat + 1) - 1 = high.toNat by omega, BitVec.ofNat_toNat, BitVec.ofNat_toNat]
  exact ⟨BitVec.setWidth_eq _, BitVec.setWidth_eq _⟩

theorem encodeInterval_whole {s : State} (h : rangeOk s.enc.low s.enc.high) {t : Nat} (ht : 0 < t) :
    s.encodeInterval 0 t t = s := by
  obtain ⟨hlow, hhigh⟩ := narrow_whole h.interval.1 ht
  rw [State.encodeInterval, hlow, hhigh]
  change State.encRenorm (31 + 1) s = s
  rw [State.encRenorm, renormCase_of_rangeOk h]

/-- Settles O40: narrowing and renormalisation in exact numbers. -/
theorem encSymNarrowsTheRange : Obligations.EncSymNarrowsTheRange := by
  unfold Obligations.EncSymNarrowsTheRange
  rintro s sym l r total hr hsym hact rfl rfl rfl hlt hle
  refine ⟨_, exec_encSym hr hsym hact (Modeller.zeroFreq_eq_false_iff.2 ⟨by omega, hlt, hle⟩),
    (encodeInterval_frame s _ _ _).eq, fun hrange htotal hbtf => ?_⟩
  generalize s.model.distAt sym.toNat = l at *
  generalize s.model.distAt (sym.toNat + 1) = r at *
  generalize s.model.distAt 258 = total at *
  obtain ⟨hinterval, hlow, -, hwidth⟩ := narrow_spec hrange hlt hle htotal
  obtain ⟨k, out, hk, hok, hw, hbits, hlen, hvalue⟩ := encRenorm_spec renormFuel
    (s.setEnc { s.enc with low := narrowLow s.enc.low s.enc.high l total
                           high := narrowHigh s.enc.low s.enc.high r total }) hinterval width_pow hbtf
  refine ⟨hok, ⟨k, out, hk, hbits, hlen, hw.trans (congrArg (· * 2 ^ k) hwidth), ?_⟩, fun hcount => ?_, ?_⟩
  · rw [State.setEnc_enc] at hvalue
    rw [hlow] at hvalue
    exact hvalue
  · exact (encodeInterval_delivered l r total hbtf).2 (by omega)
  · rintro rfl rfl
    exact encodeInterval_whole hrange hlt

/-! ### The encoder and the decoder -/

/-- From equal intervals the two renormalisations end in equal intervals (42_coder.md R223, R243). -/
theorem encRenorm_eq_decRenorm (n : Nat) {s u : State} (hlow : s.enc.low = u.dec.low) (hhigh : s.enc.high = u.dec.high) :
    (s.encRenorm n).enc.low = (u.decRenorm n).dec.low ∧ (s.encRenorm n).enc.high = (u.decRenorm n).dec.high := by
  induction n generalizing s u with
  | zero => exact ⟨hlow, hhigh⟩
  | succ n ih =>
    unfold State.encRenorm State.decRenorm
    rw [← hlow, ← hhigh]
    cases renormCase s.enc.low s.enc.high with
    | sameBit =>
      obtain ⟨-, -, hl, hh⟩ := bitPlusFollow_spec s (s.enc.low.getLsbD 31)
      obtain ⟨hl', hh', -⟩ := decShift_spec u
      exact ih ((congrArg shiftLow (hl.trans hlow)).trans hl'.symm) ((congrArg shiftHigh (hh.trans hhigh)).trans hh'.symm)
    | straddle =>
      obtain ⟨hl', hh', -⟩ := decShift_spec u.decStraddle
      exact ih ((congrArg (fun x => shiftLow (straddleLow x)) hlow).trans hl'.symm)
        ((congrArg (fun x => shiftHigh (straddleHigh x)) hhigh).trans hh'.symm)
    | exit => exact ⟨hlow, hhigh⟩

theorem checkTruncated_dec (s : State) : s.checkTruncated.dec = s.dec := by rw [State.checkTruncated_eq]

/-- Whatever is searched for, the search answers a symbol: ESCAPE is always a candidate (42_coder.md R242). -/
theorem Modeller.exists_search (m : Modeller) (f : Nat) : ∃ sym ≤ 257, m.search f = some sym := by
  unfold Modeller.search
  cases hfind : (List.range 257).find? (m.answers f) with
  | some c => exact ⟨c, (List.mem_range.1 (List.mem_of_find?_eq_some hfind)).le, rfl⟩
  | none =>
    have hescape := List.find?_eq_none.1 hfind 256 (List.mem_range.2 (by omega))
    have hle : m.distAt 257 ≤ f := by simpa [Modeller.answers] using hescape
    exact ⟨257, le_refl _, if_pos hle⟩

/-- Settles O41: both sides narrow alike and renormalise alike. -/
theorem encoderAndDecoderStayEqual : Obligations.EncoderAndDecoderStayEqual := by
  unfold Obligations.EncoderAndDecoderStayEqual
  intro s sym t u hr henc hdec hlow hhigh hfound hfreq ht hu
  have hsym : sym.toNat ≤ 257 := by
    obtain ⟨sym', hle, hsearch⟩ := s.model.exists_search (s.dec.target (s.model.distAt 258))
    rw [hfound] at hsearch
    exact (Option.some.inj hsearch).trans_le hle
  rw [exec_encSym hr hsym henc hfreq] at ht
  rw [exec_decSym hr hdec (Modeller.zeroFreq_eq_false_iff.1 hfreq).1 hfound] at hu
  cases ht
  cases hu
  rw [checkTruncated_dec]
  refine encRenorm_eq_decRenorm renormFuel ?_ ?_
  · exact congrArg₂ (fun low high => narrowLow low high _ _) hlow hhigh
  · exact congrArg₂ (fun low high => narrowHigh low high _ _) hlow hhigh

end Sys2Proof.Machine

/-! ## The end of the code, and the decoder's symbol step -/

namespace Sys2Proof.Machine

/-! ### ENC_FINISH -/

/-- The write buffer is empty on a byte boundary once a bit has been put. -/
theorem putBit_wrBuf {s : State} {b : Bool} (h : (s.putBit b).bits.wrCnt = 0#3) : (s.putBit b).bits.wrBuf = 0#8 := by
  have hcnt := putBit_wrCnt s b
  rw [h, BitVec.toNat_ofNat] at hcnt
  have hlt := s.bits.wrCnt.isLt
  exact (putBit_output_full (s := s) b (by omega)).2.2.2

theorem putBits_wrBuf (n : Nat) (b : Bool) {s : State} (hs : s.bits.wrCnt = 0#3 → s.bits.wrBuf = 0#8)
    (h : (s.putBits n b).bits.wrCnt = 0#3) : (s.putBits n b).bits.wrBuf = 0#8 := by
  induction n generalizing s with
  | zero => exact hs h
  | succ n ih => exact ih putBit_wrBuf h

/-- After enc_finish the writer is empty (42_coder.md R225). -/
theorem encFinishBits_bits (s : State) :
    s.encFinishBits.bits = { s.bits with wrBuf := 0#8, wrCnt := 0#3 } := by
  have hframe := encFinishBits_frame s
  unfold State.encFinishBits at hframe ⊢
  dsimp only at hframe ⊢
  generalize hv : s.countFollow.bitPlusFollow (decide (qtr ≤ s.countFollow.enc.low)) = v at *
  have hv0 : v.bits.wrCnt = 0#3 → v.bits.wrBuf = 0#8 := by
    rw [← hv]; exact putBits_wrBuf _ _ putBit_wrBuf
  have hcnt : v.flushBits.bits.wrCnt = 0#3 := (padBits_bitsOut 7 v (by omega)).2
  have hbuf : v.flushBits.bits.wrBuf = 0#8 := by
    by_cases h : v.bits.wrCnt = 0#3
    · rw [flushBits_of_boundary h]; exact hv0 h
    · exact padBits_wrBuf 7 v (by omega) h
  have hrdBuf := hframe.rdBuf
  have hrdCnt := hframe.rdCnt
  rw [← hcnt, ← hbuf, ← hrdBuf, ← hrdCnt]

/-- The bits enc_finish writes (42_coder.md R225). -/
theorem encFinishBits_bitsOut {s : State} (hb : s.enc.btf.toNat + 1 < 2 ^ 64) : ∃ pad < 8,
    s.encFinishBits.bitsOut = s.bitsOut ++ (decide (0x40000000 ≤ s.enc.low.toNat) ::
      List.replicate (s.enc.btf.toNat + 1) (!(decide (0x40000000 ≤ s.enc.low.toNat))) ++ List.replicate pad false) := by
  have hq : decide (qtr ≤ s.countFollow.enc.low) = decide (0x40000000 ≤ s.enc.low.toNat) :=
    decide_eq_decide.2 BitVec.le_def
  have hbtf : s.countFollow.enc.btf.toNat = s.enc.btf.toNat + 1 := countUp_toNat hb _
  unfold State.encFinishBits
  dsimp only
  rw [hq]
  have hfollow := (bitPlusFollow_spec s.countFollow (decide (0x40000000 ≤ s.enc.low.toNat))).1
  rw [hbtf] at hfollow
  generalize s.countFollow.bitPlusFollow (decide (0x40000000 ≤ s.enc.low.toNat)) = v at *
  refine ⟨(8 - v.bits.wrCnt.toNat) % 8, Nat.mod_lt _ (by omega), ?_⟩
  rw [State.flushBits, (padBits_bitsOut 7 v (by omega)).1, hfollow, List.append_assoc]
  rfl

theorem encFinishBits_delivered {s : State} (hb : s.enc.btf.toNat + 1 < 2 ^ 64) : Delivered s s.encFinishBits := by
  have hfollow : Delivered s s.countFollow := .of_eq rfl rfl (countDraws_eq hb _)
  exact (hfollow.trans (bitPlusFollow_delivered _ _)).trans (padBits_delivered _ _)

/-- enc_finish leaves the range alone and no bit pending (42_coder.md R225). -/
theorem encFinishBits_enc (s : State) :
    s.encFinishBits.enc = { s.enc with btf := 0#64, outcnt := s.encFinishBits.enc.outcnt } := by
  have hactive := (encFinishBits_frame s).active
  unfold State.encFinishBits at hactive ⊢
  dsimp only at hactive ⊢
  obtain ⟨-, hbtf, hlow, hhigh⟩ := bitPlusFollow_spec s.countFollow (decide (qtr ≤ s.countFollow.enc.low))
  generalize s.countFollow.bitPlusFollow (decide (qtr ≤ s.countFollow.enc.low)) = v at *
  have hf := flushBits_frame v
  have hlow' : v.flushBits.enc.low = s.enc.low := hf.low.trans hlow
  have hhigh' : v.flushBits.enc.high = s.enc.high := hf.high.trans hhigh
  have hbtf' : v.flushBits.enc.btf = 0#64 := hf.btf.trans hbtf
  rw [← hlow', ← hhigh', ← hbtf', ← hactive]

/-- Settles O42: the bits of enc_finish, counted. -/
theorem encFinishFlushesTheCode : Obligations.EncFinishFlushesTheCode := by
  unfold Obligations.EncFinishFlushesTheCode
  refine fun s hr => ⟨fun hact => ?_, fun hact hno => ?_⟩
  · rw [exec, execEncFinish, State.command_of_ready hr, if_pos hact]; rfl
  · obtain ⟨pad, hpad, hbits⟩ := encFinishBits_bitsOut (s := s) (by omega)
    have hbytes := congrArg List.length hbits
    rw [bitsOut_length, encFinishBits_bits, List.length_append, bitsOut_length] at hbytes
    simp only [List.length_append, List.length_cons, List.length_replicate, BitVec.toNat_ofNat, Nat.zero_mod] at hbytes
    have hlt := s.bits.wrCnt.isLt
    obtain ⟨hcount, hdraws⟩ := (encFinishBits_delivered (s := s) (by omega)).2 (by omega)
    refine ⟨_, pad, exec_encFinish hr hact, hpad, hbits, rfl, hcount, ?_⟩
    have hframe := (encFinishBits_frame s).eq
    rw [encFinishBits_bits, encFinishBits_enc, hdraws] at hframe
    rw [encFinishBits_enc]
    generalize s.encFinishBits = v at *
    rw [hframe]
    rfl

/-! ### DEC_SYM -/

/-- Settles O44: the search always finds, and the frame of the symbol step. -/
theorem decSymAnswersTheSymbolFound : Obligations.DecSymAnswersTheSymbolFound := by
  unfold Obligations.DecSymAnswersTheSymbolFound
  refine fun s hr => ⟨fun hact => ?_, fun hact hzero => ?_, s.model.exists_search, fun sym hact htotal hfound => ?_⟩
  · rw [exec, execDecSym, State.command_of_ready hr, if_pos hact]; rfl
  · rw [exec, execDecSym, State.command_of_ready hr, if_neg (by simp [hact]), if_pos hzero]; rfl
  · have hframe := decodeInterval_frame s (s.model.distAt sym) (s.model.distAt (sym + 1)) (s.model.distAt 258)
    refine ⟨_, exec_decSym hr hact htotal hfound, ?_⟩
    generalize s.decodeInterval _ _ _ = v at *
    rw [State.checkTruncated_eq]
    have hfault : v.fault = false := hframe.fault.trans hr.2
    have hactive : v.dec.active = true := hframe.active.trans hact
    refine ⟨rfl, by rw [State.setResult_fault, hfault]; rfl, fun he => if_pos he, fun he => ?_, ?_, hactive⟩
    · exact (if_neg (by rw [he]; decide)).trans hframe.fcode
    · have heq := hframe.eq
      rw [hact, ← hactive] at heq
      have hv := setResult_of_eq heq (BitVec.ofNat 64 sym)
      rw [hv]

/-- The decoder narrowed to an interval, before it renormalises (42_coder.md R243). -/
def State.narrowDec (s : State) (l r t : Nat) : State :=
  s.setDec { s.dec with low := narrowLow s.dec.low s.dec.high l t, high := narrowHigh s.dec.low s.dec.high r t }

theorem decodeInterval_eq (s : State) (l r t : Nat) :
    s.decodeInterval l r t = (s.narrowDec l r t).decRenorm renormFuel := rfl

/-- Narrowed to the interval that holds the target, the decoder keeps its value inside (42_coder.md R241, R244). -/
theorem narrowDec_inInterval {s : State} (hrange : rangeOk s.dec.low s.dec.high) (hlow : s.dec.low.toNat ≤ s.dec.value.toNat)
    {l r t : Nat} (hl : l ≤ s.dec.target t) (hr : s.dec.target t < r) (hle : r ≤ t) (ht : t ≤ 33553920) :
    Interval (s.narrowDec l r t).dec.low (s.narrowDec l r t).dec.high ∧ InInterval (s.narrowDec l r t).dec := by
  obtain ⟨hinterval, hnlow, hnhigh, -⟩ := narrow_spec hrange (hl.trans_lt hr) hle ht
  obtain ⟨hvlow, hvhigh⟩ := target_spec (high := s.dec.high) hlow (by omega) rfl hl hr
  refine ⟨hinterval, hnlow.trans_le hvlow, ?_⟩
  change s.dec.value.toNat ≤ (narrowHigh s.dec.low s.dec.high r t).toNat
  omega

/-- Settles O45: the decoder's renormalisation with enough input. -/
theorem decSymFollowsTheCode : Obligations.DecSymFollowsTheCode := by
  unfold Obligations.DecSymFollowsTheCode
  rintro s total hr ⟨-, hcoder⟩ hact heof rfl htotal h8 hin hshifts
  obtain ⟨-, hrange, hlow, hhigh, hbound, hdecodable⟩ := hcoder hr.1
  obtain ⟨sym, hfound, hsym, hl, hrt, hle⟩ := hdecodable _ (target_lt hlow hhigh htotal)
  have htop : s.model.distAt 258 ≤ 33553920 := hbound 258 (le_refl _)
  have hexec := exec_decSym hr hact (by omega) hfound
  generalize hleft : s.model.distAt sym = l at *
  generalize hright : s.model.distAt (sym + 1) = r at *
  generalize s.model.distAt 258 = total at *
  obtain ⟨-, hnlow, -, hnwidth⟩ := narrow_spec hrange (hl.trans_lt hrt) hle htop
  obtain ⟨hvlow, -⟩ := target_spec (high := s.dec.high) hlow htotal rfl hl hrt
  obtain ⟨hinterval, hvalue⟩ := narrowDec_inInterval hrange hlow hl hrt hle htop
  obtain ⟨hrange', hvalue'⟩ := decRenorm_range renormFuel _ hinterval hvalue width_pow
  obtain ⟨k, hk, hbits, hcount, heof', -, hwidth, hlow', hdist⟩ := decRenorm_spec renormFuel _ hinterval hvalue h8 heof
    hin hshifts
  rw [← decodeInterval_eq] at hrange' hvalue' hbits hcount heof' hwidth hlow' hdist
  have hfault := (decodeInterval_frame s l r total).fault.trans hr.2
  rw [State.checkTruncated, State.setResult_dec, heof', if_neg (by decide)] at hexec
  refine ⟨_, sym, l, r, k, hexec, hfault, rfl, hsym, hleft.symm, hright.symm, hl, hrt, hk, hbits, hcount, heof', hrange',
    hvalue'.1, hvalue'.2, hwidth.trans (congrArg (· * 2 ^ k) hnwidth), ?_, hvlow, ?_⟩
  · have hmod : (s.narrowDec l r total).dec.low.toNat = symbolLow s.dec.low s.dec.high l total := hnlow
    rw [Nat.mod_eq_of_lt (b := 2 ^ 31) hrange'.1, hmod] at hlow'
    exact hlow'
  · have hmod : (s.narrowDec l r total).dec.low.toNat = symbolLow s.dec.low s.dec.high l total := hnlow
    rw [hmod] at hdist
    exact hdist

end Sys2Proof.Machine

/-! ## Bytes of the code: DEC_START and DEC_TRAILER -/

namespace Sys2Proof.Machine

/-! ### Bytes as numbers -/

/-- A register after bytes have been shifted in below it, the first byte most significant. -/
def shiftBytes {w : Nat} (v : BitVec w) (bytes : List Byte) : BitVec w :=
  bytes.foldl (fun v x => (v <<< 8) ||| x.setWidth w) v

theorem shiftBytes_cons {w : Nat} (v : BitVec w) (x : Byte) (bytes : List Byte) :
    shiftBytes v (x :: bytes) = shiftBytes ((v <<< 8) ||| x.setWidth w) bytes := rfl

theorem shiftBytes_singleton {w : Nat} (v : BitVec w) (x : Byte) :
    shiftBytes v [x] = (v <<< 8) ||| x.setWidth w := rfl

theorem shiftBytes_append {w : Nat} (v : BitVec w) (a b : List Byte) :
    shiftBytes v (a ++ b) = shiftBytes (shiftBytes v a) b := List.foldl_append

theorem bigEndian_append (a b : List Byte) : bigEndian (a ++ b) = bigEndian a * 256 ^ b.length + bigEndian b := by
  have hfrom : ∀ (l : List Byte) (v : Nat),
      l.foldl (fun v x => v * 256 + x.toNat) v = v * 256 ^ l.length + bigEndian l := by
    intro l
    induction l with
    | nil => simp [bigEndian]
    | cons x l ih =>
      intro v
      simp only [bigEndian, List.foldl_cons, List.length_cons] at ih ⊢
      rw [ih, ih (0 * 256 + x.toNat), Nat.pow_succ]
      ring
  simp only [bigEndian, List.foldl_append]
  exact hfrom b _

theorem bigEndian_singleton (x : Byte) : bigEndian [x] = x.toNat := by simp [bigEndian]

theorem bigEndian_zeros (n : Nat) : bigEndian (List.replicate n 0#8) = 0 := by
  induction n with
  | zero => rfl
  | succ n ih => rw [List.replicate_succ', bigEndian_append, ih]; rfl

theorem bigEndian_lt (bytes : List Byte) : bigEndian bytes < 256 ^ bytes.length := by
  induction bytes using List.reverseRecOn with
  | nil => decide
  | append_singleton bytes x ih =>
    have hx := x.isLt
    rw [bigEndian_append, bigEndian_singleton, List.length_append, List.length_singleton, Nat.pow_succ]
    omega

theorem toNat_shiftByte {w : Nat} {v : BitVec w} {x : Byte} (h : v.toNat * 256 + 256 ≤ 2 ^ w) :
    ((v <<< 8) ||| x.setWidth w).toNat = v.toNat * 256 + x.toNat := by
  have hx := x.isLt
  have hv : v.toNat <<< 8 % 2 ^ w = v.toNat <<< 8 := Nat.mod_eq_of_lt (by rw [Nat.shiftLeft_eq]; omega)
  have hxw : x.toNat % 2 ^ w = x.toNat := Nat.mod_eq_of_lt (by omega)
  rw [BitVec.toNat_or, BitVec.toNat_shiftLeft, BitVec.toNat_setWidth, hv, hxw, ← Nat.shiftLeft_add_eq_or_of_lt hx,
    Nat.shiftLeft_eq]

/-- As many bytes as the register holds spell their number (20_memory.md R77). -/
theorem toNat_shiftBytes {w : Nat} {v : BitVec w} {bytes : List Byte}
    (h : (v.toNat + 1) * 256 ^ bytes.length ≤ 2 ^ w) :
    (shiftBytes v bytes).toNat = v.toNat * 256 ^ bytes.length + bigEndian bytes := by
  induction bytes using List.reverseRecOn with
  | nil => simp [shiftBytes, bigEndian]
  | append_singleton bytes x ih =>
    have hlt := bigEndian_lt bytes
    rw [List.length_append, List.length_singleton, Nat.pow_succ, ← Nat.mul_assoc, Nat.add_mul, Nat.one_mul] at h
    have hv := ih (by rw [Nat.add_mul]; omega)
    have hroom : (shiftBytes v bytes).toNat * 256 + 256 ≤ 2 ^ w := by rw [hv]; linarith
    rw [shiftBytes_append, shiftBytes_singleton, toNat_shiftByte hroom, hv, bigEndian_append, bigEndian_singleton,
      List.length_append, List.length_singleton]
    ring

/-- Four bytes side by side. -/
theorem toNat_fourBytes (b0 b1 b2 b3 : Byte) : ((b0 ++ b1) ++ (b2 ++ b3)).toNat = bigEndian [b0, b1, b2, b3] := by
  have h0 := b0.isLt
  have h1 := b1.isLt
  have h2 := b2.isLt
  have h3 := b3.isLt
  simp only [BitVec.toNat_append, bigEndian, List.foldl_cons, List.foldl_nil]
  rw [← Nat.shiftLeft_add_eq_or_of_lt h1, ← Nat.shiftLeft_add_eq_or_of_lt h3,
    ← Nat.shiftLeft_add_eq_or_of_lt (by rw [Nat.shiftLeft_eq]; omega)]
  simp only [Nat.shiftLeft_eq]
  omega

theorem shiftBytes_fourBytes (b0 b1 b2 b3 : Byte) :
    shiftBytes 0#32 [b0, b1, b2, b3] = (b0 ++ b1) ++ (b2 ++ b3) ∧
      shiftBytes 0#64 [b0, b1, b2, b3] = 0#32 ++ ((b0 ++ b1) ++ (b2 ++ b3)) := by
  constructor <;> apply BitVec.eq_of_toNat_eq
  · rw [toNat_shiftBytes (by simp), toNat_fourBytes]; simp
  · rw [toNat_shiftBytes (by simp), BitVec.toNat_append, toNat_fourBytes]; simp

/-! ### Bits read into the value -/

theorem primeBits_add (m n : Nat) (s : State) :
    State.primeBits (m + n) s = State.primeBits n (State.primeBits m s) := by
  induction m generalizing s with
  | zero => rw [Nat.zero_add]; rfl
  | succ m ih => rw [Nat.add_right_comm]; exact ih _

theorem getLsbD_flag64 (b : Bool) (i : Nat) : (flag64 b).getLsbD i = (decide (i = 0) && b) := by
  cases b <;> cases i <;> simp [flag64]

/-- One more bit of a byte at the bottom of the value, then the `n` bits left of it. -/
theorem shiftIn_unread {n m : Nat} (h : n + m = 7) (v : Reg) (b : Byte) :
    (shiftIn v (b.getLsbD 7) <<< n) ||| ((b <<< 1) >>> (m + 1)).setWidth 64 =
      (v <<< (n + 1)) ||| (b >>> m).setWidth 64 := by
  refine BitVec.eq_of_getLsbD_eq fun i hi => ?_
  simp only [shiftIn, BitVec.getLsbD_or, BitVec.getLsbD_shiftLeft, BitVec.getLsbD_setWidth, BitVec.getLsbD_ushiftRight,
    getLsbD_flag64, hi, decide_true, Bool.true_and]
  rcases Nat.lt_trichotomy i n with hlt | rfl | hgt
  · simp [hlt, show i < n + 1 by omega, show m + 1 + i < 8 by omega, show m + 1 + i - 1 = m + i by omega]
  · simp [show m + i = 7 by omega, show ¬ m + 1 + i < 8 by omega]
  · have hbyte : b.getLsbD (m + i) = false := BitVec.getLsbD_of_ge _ _ (by omega)
    simp [hbyte, show ¬ i < n by omega, show ¬ i < n + 1 by omega, show i - n ≠ 0 by omega, show ¬ m + 1 + i < 8 by omega,
      show i - n < 64 by omega, show i - n - 1 = i - (n + 1) by omega]

/-- The bits left of a byte, shifted into the value. -/
theorem primeBits_unread {n : Nat} (hn : n ≤ 8) {s : State} (h : s.bits.rdCnt = BitVec.ofNat 4 n) :
    State.primeBits n s = { s with
      bits := { s.bits with rdBuf := s.bits.rdBuf <<< n, rdCnt := 0#4 }
      dec := { s.dec with value := (s.dec.value <<< n) ||| (s.bits.rdBuf >>> (8 - n)).setWidth 64 } } := by
  induction n generalizing s with
  | zero =>
    have hgone : (s.bits.rdBuf >>> 8).setWidth 64 = 0#64 := by
      rw [BitVec.ushiftRight_eq_zero (le_refl 8)]; rfl
    rw [Nat.sub_zero, hgone, BitVec.or_zero, BitVec.shiftLeft_zero, BitVec.shiftLeft_zero, ← h]
    rfl
  | succ n ih =>
    have hcnt : s.bits.rdCnt.toNat = n + 1 := by rw [h, BitVec.toNat_ofNat]; omega
    have hne : s.bits.rdCnt ≠ 0#4 := fun h0 => by rw [h0] at hcnt; simp at hcnt
    have hpred : s.bits.rdCnt - 1#4 = BitVec.ofNat 4 n :=
      BitVec.eq_of_toNat_eq (by rw [rdCnt_pred hne, hcnt, BitVec.toNat_ofNat]; omega)
    have hbit : s.getBit = s.shiftOut := if_neg hne
    rw [State.primeBits, hbit]
    dsimp only
    rw [ih (by omega) hpred]
    have hvalue := shiftIn_unread (show n + (7 - n) = 7 by omega) s.dec.value s.bits.rdBuf
    rw [show 7 - n + 1 = 8 - n by omega, show 7 - n = 8 - (n + 1) by omega] at hvalue
    have hbuf : (s.bits.rdBuf <<< 1) <<< n = s.bits.rdBuf <<< (n + 1) := by
      rw [← BitVec.shiftLeft_add, Nat.add_comm]
    simp only [State.shiftOut, State.setBits, State.setDec, hvalue, hbuf]

theorem primeBits_congr {s t : State} (h : s.getBit = t.getBit) (n : Nat) :
    State.primeBits (n + 1) s = State.primeBits (n + 1) t := by
  rw [State.primeBits, State.primeBits, h]

/-- Eight bits read on a byte boundary are the next byte of the input, which is counted and enters S.hist. -/
theorem primeBits_byte {s : State} (h : s.bits.rdCnt = 0#4) (he : s.dec.eof = false) {x : Byte} {xs : List Byte}
    (hi : s.input = x :: xs) (hno : s.dec.fetched.toNat + 1 < 2 ^ 64) :
    State.primeBits 8 s = { s with
      input := xs, bits := { s.bits with rdBuf := 0#8, rdCnt := 0#4 }
      dec := { s.dec with value := (s.dec.value <<< 8) ||| x.setWidth 64, fetched := s.dec.fetched + 1#64
                          hist := (s.dec.hist <<< 8) ||| x.setWidth 32 } } := by
  have hcnt : (({ s with input := xs } : State).loadByte x).bits.rdCnt = 8#4 := rfl
  have hload : s.getBit = (({ s with input := xs } : State).loadByte x).getBit := by
    rw [getBit_of_byte h he hi, State.getBit, hcnt, if_neg (by decide)]
  have hfetched : countUp s.draws s.dec.fetched = s.dec.fetched + 1#64 := if_neg (by rintro h0; rw [h0] at hno; simp at hno)
  have hdraws := countDraws_eq hno s.draws
  have hbuf : x <<< 8 = 0#8 := BitVec.shiftLeft_eq_zero (le_refl 8)
  rw [primeBits_congr hload, primeBits_unread (le_refl 8) hcnt]
  simp only [State.loadByte, State.setBits, State.countFetched, State.setDec, hfetched, hdraws, hbuf, Nat.sub_self,
    BitVec.ushiftRight_zero]

/-- As many whole bytes as are there, read from a byte boundary. -/
theorem primeBits_bytes {bytes rest : List Byte} {s : State} (h : s.bits.rdCnt = 0#4) (he : s.dec.eof = false)
    (hi : s.input = bytes ++ rest) (hno : s.dec.fetched.toNat + bytes.length < 2 ^ 64) :
    State.primeBits (8 * bytes.length) s = { s with
      input := rest, bits := { s.bits with rdBuf := if bytes = [] then s.bits.rdBuf else 0#8, rdCnt := 0#4 }
      dec := { s.dec with value := shiftBytes s.dec.value bytes
                          fetched := s.dec.fetched + BitVec.ofNat 64 bytes.length
                          hist := shiftBytes s.dec.hist bytes } } := by
  induction bytes generalizing s with
  | nil =>
    have hzero : s.dec.fetched + BitVec.ofNat 64 0 = s.dec.fetched := BitVec.add_zero _
    rw [List.length_nil, if_pos rfl, hzero, ← h, ← List.nil_append rest, ← hi]
    rfl
  | cons x bytes ih =>
    rw [List.length_cons] at hno
    have hone : (s.dec.fetched + 1#64).toNat = s.dec.fetched.toNat + 1 := by
      rw [BitVec.toNat_add]; exact Nat.mod_eq_of_lt (by change _ + 1 < _; omega)
    have hcount : s.dec.fetched + 1#64 + BitVec.ofNat 64 bytes.length =
        s.dec.fetched + BitVec.ofNat 64 (bytes.length + 1) := by
      rw [BitVec.add_assoc, Nat.add_comm bytes.length, BitVec.ofNat_add]
    have hbuf : (if bytes = [] then (0#8 : Byte) else 0#8) = 0#8 := ite_self _
    rw [List.length_cons, Nat.mul_succ, Nat.add_comm, primeBits_add, primeBits_byte h he hi (by omega),
      if_neg (List.cons_ne_nil x bytes)]
    refine (ih ?_ ?_ ?_ ?_).trans ?_
    · rfl
    · exact he
    · rfl
    · exact (congrArg (· + bytes.length) hone).trans_lt (by omega)
    · dsimp only
      rw [hcount, hbuf, shiftBytes_cons, shiftBytes_cons]

/-- After the end of the input every bit read is a fill bit 0 (43_bitio.md R265). -/
theorem primeBits_end (n : Nat) {s : State} (h : s.bits.rdCnt = 0#4) (hend : s.dec.eof = true ∨ s.input = []) :
    State.primeBits (n + 1) s = s.setDec { s.dec with value := s.dec.value <<< (n + 1), eof := true } := by
  induction n generalizing s with
  | zero =>
    rw [State.primeBits, getBit_end h hend]
    have hzero : shiftIn s.meetEnd.dec.value false = s.dec.value <<< 1 := BitVec.or_zero
    dsimp only
    rw [hzero]; rfl
  | succ n ih =>
    have hzero : shiftIn s.meetEnd.dec.value false = s.dec.value <<< 1 := BitVec.or_zero
    have hshift : (s.dec.value <<< 1) <<< (n + 1) = s.dec.value <<< (n + 1 + 1) := by
      rw [← BitVec.shiftLeft_add, Nat.add_comm 1]
    rw [State.primeBits, getBit_end h hend]
    dsimp only
    rw [hzero]
    refine (ih ?_ ?_).trans ?_
    · exact h
    · exact .inl rfl
    · rw [← hshift]; rfl

/-! ### DEC_START -/

/-- The decoder DEC_START primes (42_coder.md R240). -/
def State.startDecoder (s : State) : State :=
  s.setDec { low := 0#64, high := top, value := 0#64, shifts := 0#64, fetched := 0#64, hist := 0#32, eof := false
             active := s.dec.active }

theorem startDecoder_fetched (s : State) : s.startDecoder.dec.fetched.toNat = 0 := rfl

theorem State.checkTruncated_of_eof {s : State} (h : s.dec.eof = true) : s.checkTruncated = s.raise .truncated := if_pos h

theorem exec_decStart {s : State} (h : s.Ready) (hcnt : s.bits.rdCnt = 0#4) :
    exec .decStart s = .next ((State.primeBits 32 s.startDecoder).setDec
      { (State.primeBits 32 s.startDecoder).dec with active := true }).checkTruncated := by
  unfold State.startDecoder
  rw [exec, execDecStart, State.command_of_ready h, if_neg (by simp [hcnt])]

/-- Settles O43: four whole bytes, or those there are and zeros. -/
theorem decStartPrimesTheValue : Obligations.DecStartPrimesTheValue := by
  unfold Obligations.DecStartPrimesTheValue
  refine fun s hr => ⟨fun hcnt => ?_, fun b0 b1 b2 b3 rest hcnt hi => ?_, fun hcnt hshort => ?_⟩
  · rw [exec, execDecStart, State.command_of_ready hr, if_pos hcnt]; rfl
  · have hprime := primeBits_bytes (s := s.startDecoder) (bytes := [b0, b1, b2, b3]) (rest := rest) hcnt rfl hi
      (by rw [startDecoder_fetched, List.length_cons]; simp)
    have hvalue : shiftBytes s.startDecoder.dec.value [b0, b1, b2, b3] = _ := (shiftBytes_fourBytes b0 b1 b2 b3).2
    have hhist : shiftBytes s.startDecoder.dec.hist [b0, b1, b2, b3] = _ := (shiftBytes_fourBytes b0 b1 b2 b3).1
    rw [hvalue, hhist, if_neg (List.cons_ne_nil _ _)] at hprime
    have h32 : 8 * [b0, b1, b2, b3].length = 32 := rfl
    rw [h32] at hprime
    rw [exec_decStart hr hcnt, hprime]
    rfl
  · have hlen : s.input.length = 0 ∨ s.input.length = 1 ∨ s.input.length = 2 ∨ s.input.length = 3 := by omega
    have hprime := primeBits_bytes (s := s.startDecoder) (bytes := s.input) (rest := []) hcnt rfl
      (List.append_nil _).symm (by rw [startDecoder_fetched]; omega)
    have hsplit : State.primeBits 32 s.startDecoder =
        State.primeBits (31 - 8 * s.input.length + 1) (State.primeBits (8 * s.input.length) s.startDecoder) := by
      rw [← primeBits_add]; congr 1; omega
    rw [hprime] at hsplit
    have hend := hsplit.trans (primeBits_end _ (by rfl) (by exact .inr rfl))
    have hexec := exec_decStart hr hcnt
    rw [hend, State.checkTruncated_of_eof (by rfl)] at hexec
    refine ⟨_, hexec, rfl, rfl, rfl, ?_, ?_, rfl, rfl, rfl, rfl, rfl, rfl, rfl⟩
    · have hvalue : (shiftBytes 0#64 s.input).toNat = bigEndian s.input := by
        rw [toNat_shiftBytes (by rcases hlen with h | h | h | h <;> rw [h] <;> decide)]
        simp
      have hlt := bigEndian_lt s.input
      change ((shiftBytes 0#64 s.input) <<< (31 - 8 * s.input.length + 1)).toNat = _
      rw [BitVec.toNat_shiftLeft, hvalue, Nat.shiftLeft_eq, bigEndian_append, bigEndian_zeros, List.length_replicate]
      rcases hlen with h | h | h | h <;> rw [h] at hlt ⊢ <;> omega
    · change (0#64 + BitVec.ofNat 64 s.input.length).toNat = _
      rw [BitVec.zero_add, BitVec.toNat_ofNat]; omega

end Sys2Proof.Machine

/-! ## The trailer: DEC_TRAILER -/

namespace Sys2Proof.Machine

theorem trailerBytes_add (m n : Nat) (w : BitVec 32) (s : State) :
    State.trailerBytes (m + n) w s =
      State.trailerBytes n (State.trailerBytes m w s).1 (State.trailerBytes m w s).2 := by
  induction m generalizing w s with
  | zero => rw [Nat.zero_add]; rfl
  | succ m ih => rw [Nat.add_right_comm]; exact ih _ _

/-- The trailer bytes that are there. -/
theorem trailerBytes_bytes {bytes rest : List Byte} {s : State} (he : s.dec.eof = false) (hi : s.input = bytes ++ rest)
    (w : BitVec 32) :
    State.trailerBytes bytes.length w s = (shiftBytes w bytes, { s with input := rest }) := by
  induction bytes generalizing w s with
  | nil => rw [← List.nil_append rest, ← hi]; rfl
  | cons x bytes ih =>
    have hbyte : s.trailerByte = (x, { s with input := bytes ++ rest }) := by
      rw [State.trailerByte, if_neg (by simp [he]), State.inByte_cons hi]; rfl
    rw [List.length_cons, State.trailerBytes, hbyte]
    refine ih ?_ ?_ _
    · exact he
    · rfl

/-- After the end of the input the trailer bytes are 0 (42_coder.md R247). -/
theorem trailerBytes_eof {s : State} (he : s.dec.eof = true) (n : Nat) (w : BitVec 32) :
    State.trailerBytes n w s = (shiftBytes w (List.replicate n 0#8), s) := by
  induction n generalizing w with
  | zero => rfl
  | succ n ih =>
    have hbyte : s.trailerByte = (0#8, s) := if_pos he
    rw [State.trailerBytes, hbyte]
    exact ih _

theorem trailerBytes_end {s : State} (hend : s.dec.eof = true ∨ s.input = []) (n : Nat) (w : BitVec 32) :
    State.trailerBytes (n + 1) w s = (shiftBytes w (List.replicate (n + 1) 0#8), s.meetEnd) := by
  have hbyte : s.trailerByte = (0#8, s.meetEnd) := by
    cases he : s.dec.eof with
    | true =>
      have hmeet : s.meetEnd = s := by rw [State.meetEnd, ← he]; rfl
      rw [State.trailerByte, if_pos he, hmeet]
    | false => rw [State.trailerByte, if_neg (by simp [he]), State.inByte_nil (by simpa [he] using hend)]
  rw [State.trailerBytes, hbyte]
  exact trailerBytes_eof rfl n _

/-- Fewer trailer bytes than are asked for: those there are, then zeros (42_coder.md R247). -/
theorem trailerBytes_short {s : State} {n : Nat} {taken : List Byte} (hend : s.dec.eof = true ∨ s.input.length < n)
    (htaken : taken = if s.dec.eof then [] else s.input) (w : BitVec 32) :
    State.trailerBytes n w s = (shiftBytes w (taken ++ List.replicate (n - taken.length) 0#8),
      State.meetEnd { s with input := s.input.drop taken.length }) := by
  cases he : s.dec.eof with
  | true =>
    have hnone : taken = [] := htaken.trans (if_pos he)
    subst hnone
    have hmeet : State.meetEnd { s with input := s.input.drop 0 } = s := by
      rw [State.meetEnd]; dsimp only; rw [← he]; rfl
    exact (trailerBytes_eof he n w).trans (by rw [List.length_nil, hmeet]; rfl)
  | false =>
    have hall : taken = s.input := htaken.trans (if_neg (by simp [he]))
    subst hall
    have hlt : s.input.length < n := by simpa [he] using hend
    obtain ⟨m, rfl⟩ : ∃ m, n = s.input.length + (m + 1) := ⟨n - s.input.length - 1, by omega⟩
    rw [trailerBytes_add, trailerBytes_bytes he (List.append_nil s.input).symm w, trailerBytes_end (.inr rfl),
      Nat.add_sub_cancel_left, shiftBytes_append, List.drop_length]

/-! ### The bytes already fetched -/

/-- The last four bytes taken, the oldest first (10_state.md R45). -/
def histList (hist : BitVec 32) : List Byte :=
  [hist.extractLsb' 24 8, hist.extractLsb' 16 8, hist.extractLsb' 8 8, hist.extractLsb' 0 8]

theorem toNat_histBytes (hist : BitVec 32) {k : Nat} (hk : k ≤ 4) : (histBytes hist k).toNat = hist.toNat % 256 ^ k := by
  have hpow : 2 ^ (8 * k) ≤ 2 ^ 32 := Nat.pow_le_pow_right (by omega) (by omega)
  have hpos : 1 ≤ 2 ^ (8 * k) := Nat.one_le_two_pow
  rw [histBytes, BitVec.toNat_and, BitVec.toNat_ofNat, Nat.mod_eq_of_lt (a := _ - 1) (by omega),
    Nat.and_two_pow_sub_one_eq_mod, Nat.pow_mul]

/-- The newest `k` of them as a number. -/
theorem bigEndian_histList (hist : BitVec 32) {k : Nat} (hk : k ≤ 4) :
    bigEndian ((histList hist).drop (4 - k)) = hist.toNat % 256 ^ k := by
  have hlt := hist.isLt
  have hcases : k = 0 ∨ k = 1 ∨ k = 2 ∨ k = 3 ∨ k = 4 := by omega
  rcases hcases with rfl | rfl | rfl | rfl | rfl <;>
    simp [histList, bigEndian, BitVec.extractLsb'_toNat, Nat.shiftRight_eq_div_pow, Nat.mod_one] <;> omega

/-- The fetched bytes and those taken after them, joined (42_coder.md R247). -/
theorem toNat_shiftBytes_histBytes (hist : BitVec 32) {k : Nat} (hk : k ≤ 4) {bytes : List Byte}
    (hlen : bytes.length = 4 - k) :
    (shiftBytes (histBytes hist k) bytes).toNat = bigEndian ((histList hist).drop (4 - k) ++ bytes) := by
  have hlt : (histBytes hist k).toNat + 1 ≤ 256 ^ k := by
    rw [toNat_histBytes hist hk]; exact Nat.mod_lt _ (by positivity)
  have hsplit : 256 ^ k * 256 ^ (4 - k) = 2 ^ 32 := by
    rw [← Nat.pow_add, Nat.add_sub_cancel' hk]; rfl
  rw [toNat_shiftBytes (by rw [hlen, ← hsplit]; exact Nat.mul_le_mul_right _ hlt), bigEndian_append,
    bigEndian_histList hist hk, toNat_histBytes hist hk]

theorem shiftBytes_histBytes (hist : BitVec 32) {k : Nat} (hk : k ≤ 4) {bytes : List Byte}
    (hlen : bytes.length = 4 - k) :
    (shiftBytes (histBytes hist k) bytes).setWidth 64 =
      BitVec.ofNat 64 (bigEndian ((histList hist).drop (4 - k) ++ bytes)) := by
  have h := toNat_shiftBytes_histBytes hist hk hlen
  have hlt := (shiftBytes (histBytes hist k) bytes).isLt
  apply BitVec.eq_of_toNat_eq
  rw [BitVec.toNat_setWidth, BitVec.toNat_ofNat, h]

theorem exec_decTrailer {s : State} (h : s.Ready) (hact : s.dec.active = true) {k : Nat} (hk : s.dec.trailerFetched = k)
    {w : BitVec 32} {u : State} (hbytes : State.trailerBytes (4 - k) (histBytes s.dec.hist k) s = (w, u)) :
    exec .decTrailer s = .next (((u.setBits { u.bits with rdBuf := 0#8, rdCnt := 0#4 }).setResult (w.setWidth 64)).setDec
      { u.dec with active := false }).checkTruncated := by
  rw [exec, execDecTrailer, State.command_of_ready h, if_neg (by simp [hact]), hk]
  simp only [hbytes]
  rfl

/-- Settles O47: the fetched bytes, then those of the input, then zeros. -/
theorem decTrailerReadsTheTrailer : Obligations.DecTrailerReadsTheTrailer := by
  unfold Obligations.DecTrailerReadsTheTrailer
  intro s k hr hk
  have hfetched : s.dec.trailerFetched = k := hk.symm
  have hk4 : k ≤ 4 := hk.trans_le (Nat.min_le_right _ _)
  refine ⟨fun hact => ?_, fun hact he hlen => ?_, fun taken hact hend htaken => ?_⟩
  · rw [exec, execDecTrailer, State.command_of_ready hr, if_pos hact]; rfl
  · have hcount : (s.input.take (4 - k)).length = 4 - k := by rw [List.length_take]; omega
    have hbytes := trailerBytes_bytes he (List.take_append_drop (4 - k) s.input).symm (histBytes s.dec.hist k)
    rw [hcount] at hbytes
    rw [exec_decTrailer hr hact hfetched hbytes, shiftBytes_histBytes _ hk4 hcount, State.checkTruncated, if_neg]
    · rfl
    · exact ne_true_of_eq_false he
  · have hshort := trailerBytes_short hend htaken (histBytes s.dec.hist k)
    have hcount : (taken ++ List.replicate (4 - k - taken.length) 0#8).length = 4 - k := by
      have hle : taken.length ≤ 4 - k := by
        rw [htaken]
        split
        · exact Nat.zero_le _
        · rename_i he
          exact (hend.resolve_left he).le
      rw [List.length_append, List.length_replicate]; omega
    rw [exec_decTrailer hr hact hfetched hshort, shiftBytes_histBytes _ hk4 hcount, State.checkTruncated_of_eof (by rfl),
      List.append_assoc]
    rfl

end Sys2Proof.Machine

/-! ## The whole machine: components, ports and configuration

What a command does to each component, said once for all commands (10_state.md R24, 20_memory.md R75, R81). -/

namespace Sys2Proof.Machine

/-! ### What the commands of each component leave alone -/

section Components

variable {i : Instr} {s t : State}

/-- The ENC_* commands and those of the bit writer. -/
def WriterCommand (i : Instr) : Prop :=
  i = .encStart ∨ (∃ x, i = .encSym x) ∨ i = .encFinish ∨ (∃ x, i = .bitPut x) ∨ i = .bitFlush ∨ (∃ x, i = .rawPut x)

/-- The DEC_* commands and those of the bit reader. -/
def ReaderCommand (i : Instr) : Prop := i = .decStart ∨ i = .decSym ∨ i = .decTrailer ∨ i = .bitGet ∨ i = .rawGet

/-- From `s` to `t` neither the configuration nor the build parameters have changed. -/
structure SameConfig (s t : State) : Prop where
  cfg : t.cfg = s.cfg
  config : t.config = s.config
  build : t.build = s.build

/-- What the writer's commands leave alone. -/
structure WriterKeeps (s t : State) : Prop extends SameConfig s t where
  table : t.table = s.table
  model : t.model = s.model
  dec : t.dec = s.dec
  input : t.input = s.input
  rdBuf : t.bits.rdBuf = s.bits.rdBuf
  rdCnt : t.bits.rdCnt = s.bits.rdCnt

/-- What the reader's commands leave alone. -/
structure ReaderKeeps (s t : State) : Prop extends SameConfig s t where
  table : t.table = s.table
  model : t.model = s.model
  enc : t.enc = s.enc
  output : t.output = s.output
  wrBuf : t.bits.wrBuf = s.bits.wrBuf
  wrCnt : t.bits.wrCnt = s.bits.wrCnt

theorem EncoderFrame.keeps (h : EncoderFrame s t) : WriterKeeps s t :=
  ⟨⟨h.cfg, h.config, h.build⟩, h.table, h.model, h.dec, h.input, h.rdBuf, h.rdCnt⟩

theorem DecoderFrame.keeps (h : DecoderFrame s t) : ReaderKeeps s t :=
  ⟨⟨h.cfg, h.config, h.build⟩, h.table, h.model, h.enc, h.output, h.wrBuf, h.wrCnt⟩

theorem ReaderKeeps.checkTruncated (h : ReaderKeeps s t) : ReaderKeeps s t.checkTruncated := by
  rw [State.checkTruncated_eq]
  exact ⟨⟨h.cfg, h.config, h.build⟩, h.table, h.model, h.enc, h.output, h.wrBuf, h.wrCnt⟩

/-- A change of RESULT, of the decoder and of the read half of bit_io. -/
theorem ReaderKeeps.setReader (h : ReaderKeeps s t) (r : Reg) (d : Decoder) (buf : Byte) (cnt : BitVec 4) :
    ReaderKeeps s { t with result := r, dec := d, bits := { t.bits with rdBuf := buf, rdCnt := cnt } } :=
  ⟨⟨h.cfg, h.config, h.build⟩, h.table, h.model, h.enc, h.output, h.wrBuf, h.wrCnt⟩

theorem Effect.writerKeeps (h : Effect i s t) (hi : WriterCommand i) : WriterKeeps s t := by
  rcases hi with rfl | ⟨x, rfl⟩ | rfl | ⟨x, rfl⟩ | rfl | ⟨x, rfl⟩ <;> cases h
  case encStart => exact ⟨⟨rfl, rfl, rfl⟩, rfl, rfl, rfl, rfl, rfl, rfl⟩
  case encSym => exact (encodeInterval_frame s _ _ _).keeps
  case encFinish =>
    have hk := (encFinishBits_frame s).keeps
    generalize s.encFinishBits = v at hk ⊢
    exact ⟨⟨hk.cfg, hk.config, hk.build⟩, hk.table, hk.model, hk.dec, hk.input, hk.rdBuf, hk.rdCnt⟩
  case bitPut => exact (putBit_frame s _).encoder.keeps
  case bitFlush => exact (flushBits_frame s).encoder.keeps
  case rawPut => exact ⟨⟨rfl, rfl, rfl⟩, rfl, rfl, rfl, rfl, rfl, rfl⟩

theorem Effect.readerKeeps (h : Effect i s t) (hi : ReaderCommand i) : ReaderKeeps s t := by
  rcases hi with rfl | rfl | rfl | rfl | rfl <;> cases h
  case decStart p _ prime =>
    have hstart : ReaderKeeps s s.startDecoder := ⟨⟨rfl, rfl, rfl⟩, rfl, rfl, rfl, rfl, rfl, rfl⟩
    have hp : DecoderFrame s.startDecoder p := by rw [prime]; exact primeBits_frame 32 _
    have hkeeps : ReaderKeeps s p := by
      have hk := hp.keeps
      exact ⟨⟨hk.cfg, hk.config, hk.build⟩, hk.table, hk.model, hk.enc, hk.output, hk.wrBuf, hk.wrCnt⟩
    exact (hkeeps.setReader p.result _ p.bits.rdBuf p.bits.rdCnt).checkTruncated
  case decSym sym _ _ _ =>
    have hk := (decodeInterval_frame s (s.model.distAt sym) (s.model.distAt (sym + 1)) (s.model.distAt 258)).keeps
    generalize s.decodeInterval _ _ _ = v at hk ⊢
    exact (hk.setReader _ v.dec v.bits.rdBuf v.bits.rdCnt).checkTruncated
  case decTrailer r _ bytes =>
    have hk : ReaderKeeps s r.2 := by rw [bytes]; exact (trailerBytes_frame _ _ s).keeps
    exact (hk.setReader _ _ 0#8 0#4).checkTruncated
  case bitGet =>
    have hk := (getBit_frame s).decoder.keeps
    generalize s.getBit = r at hk ⊢
    exact hk.setReader _ r.2.dec r.2.bits.rdBuf r.2.bits.rdCnt
  all_goals exact ⟨⟨rfl, rfl, rfl⟩, rfl, rfl, rfl, rfl, rfl, rfl⟩

/-- Settles O55: an effect keeps to its component, and a fault or a discarded command changes none. -/
theorem commandsKeepToTheirComponent : Obligations.CommandsKeepToTheirComponent := by
  unfold Obligations.CommandsKeepToTheirComponent
  intro i s t hexec
  rcases exec_cases hexec with ⟨rfl, -⟩ | ⟨c, -, rfl⟩ | ⟨h, -⟩
  · exact ⟨fun _ => ⟨rfl, rfl, rfl, rfl, rfl, rfl⟩, fun _ => ⟨rfl, rfl, rfl, rfl, rfl, rfl⟩,
      fun _ => ⟨rfl, rfl, rfl, rfl, rfl, rfl⟩⟩
  · exact ⟨fun _ => ⟨rfl, rfl, rfl, rfl, rfl, rfl⟩, fun _ => ⟨rfl, rfl, rfl, rfl, rfl, rfl⟩,
      fun _ => ⟨rfl, rfl, rfl, rfl, rfl, rfl⟩⟩
  · refine ⟨fun hi => ?_, fun hi => ?_, fun hi => ?_⟩
    · rcases hi with ⟨k, rfl⟩ | ⟨k, rfl⟩ | ⟨k, rfl⟩ | ⟨k, rfl⟩ | ⟨w, k, rfl⟩ | rfl | rfl | rfl | ⟨w, k, rfl⟩ |
        ⟨w, k, rfl⟩ <;> cases h <;> exact ⟨rfl, rfl, rfl, rfl, rfl, rfl⟩
    · have hk := h.writerKeeps hi
      exact ⟨hk.table, hk.model, hk.dec, hk.input, hk.rdBuf, hk.rdCnt⟩
    · have hk := h.readerKeeps hi
      exact ⟨hk.table, hk.model, hk.enc, hk.output, hk.wrBuf, hk.wrCnt⟩

/-! ### What a command does to the configuration, the table and the modeller -/

/-- What an effect does to the configuration, the table and the modeller: INIT sets them all, and a command of the table
or the modeller changes the table or the modeller by one of their operations. -/
inductive StoreEffect (i : Instr) (s t : State) : Prop
  | init {o : BitVec 4} {b : BitVec 12} {boot adapt : BitVec 8} (command : i = .init o b boot adapt)
      (legal : configLegal o b adapt = true) (fits : b.toNat ≤ s.build.memMaxMib) (eq : t = s.configure o b boot adapt)
  | keep (same : SameConfig s t) (table : t.table = s.table) (model : t.model = s.model)
  | insert {k : Key} (legal : legalKey k = true) (same : SameConfig s t)
      (table : t.table = (s.table.insert s.build.hashSel k).1) (model : t.model = s.model)
  | seen {k : Key} (legal : legalKey k = true) (same : SameConfig s t)
      (table : t.table = (s.table.seen s.build.hashSel k).1) (model : t.model = s.model)
  | rescale (same : SameConfig s t) (table : t.table = s.table.rescale) (model : t.model = s.model)
  | reset (same : SameConfig s t) (table : t.table = s.table.reset s.build.hashSel) (model : t.model = s.model)
  | distribute {ord : Int} (low : -1 ≤ ord) (high : ord ≤ (s.order : Int)) (fits : s.visitOverflows ord = false)
      (same : SameConfig s t) (table : t.table = s.table)
      (model : t.model = s.model.distribute s.table s.build.hashSel s.order ord)
  | update {sym : BitVec 9} {c : Byte} (command : i = .mdlUpdate sym) (same : SameConfig s t)
      (table : t.table = (s.update c).table)
      (model : t.model = (s.update c).model)

theorem WriterKeeps.store (h : WriterKeeps s t) : StoreEffect i s t := .keep h.toSameConfig h.table h.model

theorem ReaderKeeps.store (h : ReaderKeeps s t) : StoreEffect i s t := .keep h.toSameConfig h.table h.model

theorem Effect.store (h : Effect i s t) : StoreEffect i s t := by
  have heff := h
  cases h with
  | init legal fits => exact .init rfl legal fits rfl
  | tblInsert legal => exact .insert legal ⟨rfl, rfl, rfl⟩ rfl rfl
  | tblSeen legal => exact .seen legal ⟨rfl, rfl, rfl⟩ rfl rfl
  | tblRescale => exact .rescale ⟨rfl, rfl, rfl⟩ rfl rfl
  | tblReset => exact .reset ⟨rfl, rfl, rfl⟩ rfl rfl
  | mdlDist low high fits => exact .distribute low high fits ⟨rfl, rfl, rfl⟩ rfl rfl
  | @mdlUpdate _ sym _ =>
    have hsame : SameConfig s (s.update (sym.setWidth 8)) := by
      rw [update_frame]; exact ⟨rfl, rfl, rfl⟩
    refine .update (c := sym.setWidth 8) rfl ?_ (State.setResult_table _ _) (State.setResult_model _ _)
    generalize s.update (sym.setWidth 8) = v at hsame ⊢
    exact ⟨hsame.cfg, hsame.config, hsame.build⟩
  | encSym | encFinish | bitPut | bitFlush => exact (heff.writerKeeps (by simp [WriterCommand])).store
  | decStart | decSym | decTrailer | bitGet => exact (heff.readerKeeps (by simp [ReaderCommand])).store
  | _ => exact .keep ⟨rfl, rfl, rfl⟩ rfl rfl

/-- The sizes and parameters that only INIT sets. -/
structure SameParameters (s t : State) : Prop extends SameConfig s t where
  sizes : s.table.SameSize t.table
  h : t.model.h = s.model.h
  adaptThr : t.model.adaptThr = s.model.adaptThr

theorem StoreEffect.parameters (h : StoreEffect i s t) :
    (∃ o b boot adapt, i = .init o b boot adapt ∧ configLegal o b adapt = true ∧ b.toNat ≤ s.build.memMaxMib ∧
      t = s.configure o b boot adapt) ∨ SameParameters s t := by
  cases h with
  | init command legal fits eq => exact .inl ⟨_, _, _, _, command, legal, fits, eq⟩
  | keep same table model => exact .inr ⟨same, table ▸ .refl _, by rw [model], by rw [model]⟩
  | insert _ same table model =>
    exact .inr ⟨same, table ▸ (Table.insert_sizes _ _ _).1, by rw [model], by rw [model]⟩
  | seen _ same table model => exact .inr ⟨same, table ▸ Table.seen_sizes _ _ _, by rw [model], by rw [model]⟩
  | rescale same table model => exact .inr ⟨same, table ▸ ⟨rfl, rfl⟩, by rw [model], by rw [model]⟩
  | reset same table model => exact .inr ⟨same, table ▸ Table.reset_sizes _ _, by rw [model], by rw [model]⟩
  | distribute low _ _ same table model =>
    obtain ⟨hh, hthr, -⟩ := distribute_frame s.model s.table s.build.hashSel s.order low
    exact .inr ⟨same, table ▸ .refl _, model ▸ hh, model ▸ hthr⟩
  | update _ same table model =>
    exact .inr ⟨same, table ▸ (updateSteps_frame s _).sizes, by rw [model, update_frame], by rw [model, update_frame]⟩

end Components

/-- Settles O53: every effect but INIT's keeps the parameters. -/
theorem onlyInitChangesTheConfiguration : Obligations.OnlyInitChangesTheConfiguration := by
  unfold Obligations.OnlyInitChangesTheConfiguration
  intro i s t hexec
  rcases exec_cases hexec with ⟨rfl, -⟩ | ⟨c, -, rfl⟩ | ⟨h, -⟩
  · exact ⟨rfl, fun _ => ⟨rfl, rfl, rfl, rfl, rfl, rfl⟩⟩
  · exact ⟨rfl, fun _ => ⟨rfl, rfl, rfl, rfl, rfl, rfl⟩⟩
  · rcases h.store.parameters with ⟨o, b, boot, adapt, rfl, -, -, rfl⟩ | hsame
    · exact ⟨rfl, fun hno => absurd rfl (hno _ _ _ _)⟩
    · exact ⟨hsame.build, fun _ =>
        ⟨hsame.cfg, hsame.config, hsame.sizes.1, hsame.sizes.2, hsame.h, hsame.adaptThr⟩⟩

end Sys2Proof.Machine

/-! ## Byte ports, power-on and canonical memories -/

namespace Sys2Proof.Machine

/-! ### The output only grows, the input is only taken from the front -/

theorem encRenorm_output (n : Nat) (s : State) : s.output <+: (s.encRenorm n).output := by
  induction n generalizing s with
  | zero => exact List.prefix_rfl
  | succ n ih =>
    unfold State.encRenorm
    split
    · exact (bitPlusFollow_delivered s _).1.trans (ih (s.bitPlusFollow (s.enc.low.getLsbD 31)).encShift)
    · exact ih s.encStraddle.encShift
    · exact List.prefix_rfl

theorem encodeInterval_output (s : State) (l r t : Nat) : s.output <+: (s.encodeInterval l r t).output := by
  refine List.IsPrefix.trans ?_ (encRenorm_output _ _)
  exact List.prefix_rfl

theorem encFinishBits_output (s : State) : s.output <+: s.encFinishBits.output :=
  (bitPlusFollow_delivered s.countFollow _).1.trans (padBits_output_prefix 7 _)

theorem getBit_suffix (s : State) : s.getBit.2.input <:+ s.input := by
  obtain ⟨taken, h⟩ := getBit_input s
  exact ⟨taken, h.symm⟩

theorem decRenorm_input (n : Nat) (s : State) : (s.decRenorm n).input <:+ s.input := by
  induction n generalizing s with
  | zero => exact List.suffix_rfl
  | succ n ih =>
    unfold State.decRenorm
    split
    · exact (ih _).trans (getBit_suffix s)
    · exact (ih _).trans (getBit_suffix s.decStraddle)
    · exact List.suffix_rfl

theorem primeBits_input (n : Nat) (s : State) : (State.primeBits n s).input <:+ s.input := by
  induction n generalizing s with
  | zero => exact List.suffix_rfl
  | succ n ih => exact (ih _).trans (getBit_suffix s)

theorem trailerByte_input (s : State) : s.trailerByte.2.input <:+ s.input := by
  unfold State.trailerByte
  split
  · exact List.suffix_rfl
  · cases hi : s.input with
    | nil => rw [State.inByte_nil hi]; exact hi ▸ List.suffix_rfl
    | cons x xs => rw [State.inByte_cons hi]; exact List.suffix_cons x xs

theorem trailerBytes_input (n : Nat) (w : BitVec 32) (s : State) :
    (State.trailerBytes n w s).2.input <:+ s.input := by
  induction n generalizing w s with
  | zero => exact List.suffix_rfl
  | succ n ih => exact (ih _ _).trans (trailerByte_input s)

theorem checkTruncated_input (s : State) : s.checkTruncated.input = s.input := by rw [State.checkTruncated_eq]

/-- An effect appends to the output, and takes bytes from the front of the input. -/
theorem Effect.ports {i : Instr} {s t : State} (h : Effect i s t) : s.output <+: t.output ∧ t.input <:+ s.input := by
  have heff := h
  have hreader (hi : ReaderCommand i) : s.output <+: t.output := by rw [(heff.readerKeeps hi).output]
  have hwriter (hi : WriterCommand i) : t.input <:+ s.input := by rw [(heff.writerKeeps hi).input]
  cases h with
  | mdlUpdate =>
    rw [update_frame]; exact ⟨List.prefix_rfl, List.suffix_rfl⟩
  | encSym => exact ⟨encodeInterval_output _ _ _ _, hwriter (by simp [WriterCommand])⟩
  | encFinish => exact ⟨encFinishBits_output s, hwriter (by simp [WriterCommand])⟩
  | bitPut => exact ⟨putBit_output_prefix s _, hwriter (by simp [WriterCommand])⟩
  | bitFlush => exact ⟨padBits_output_prefix 7 s, hwriter (by simp [WriterCommand])⟩
  | rawPut => exact ⟨List.prefix_append _ _, List.suffix_rfl⟩
  | @decStart _ p _ prime =>
    refine ⟨hreader (by simp [ReaderCommand]), ?_⟩
    have hprime : p = State.primeBits 32 s.startDecoder := prime
    have hin := primeBits_input 32 s.startDecoder
    rw [← hprime] at hin
    rw [checkTruncated_input]
    exact hin
  | decSym =>
    refine ⟨hreader (by simp [ReaderCommand]), ?_⟩
    rw [checkTruncated_input]
    exact decRenorm_input _ _
  | decTrailer _ bytes =>
    refine ⟨hreader (by simp [ReaderCommand]), ?_⟩
    rw [checkTruncated_input, bytes]
    exact trailerBytes_input _ _ s
  | bitGet => exact ⟨hreader (by simp [ReaderCommand]), getBit_suffix s⟩
  | rawGetByte _ _ h => exact ⟨List.prefix_rfl, by rw [h]; exact List.suffix_cons _ _⟩
  | _ => exact ⟨List.prefix_rfl, List.suffix_rfl⟩

/-- Settles O54: a step runs one command at most. -/
theorem bytePortsMoveForward : Obligations.BytePortsMoveForward := by
  unfold Obligations.BytePortsMoveForward
  intro s t hstep
  have hports : s.output <+: t.output ∧ t.input <:+ s.input := by
    rcases step_cases hstep with rfl | ⟨words, rest, -, rfl | rfl⟩ | ⟨i, words, rest, -, -, he⟩
    · exact ⟨List.prefix_rfl, List.suffix_rfl⟩
    · exact ⟨List.prefix_rfl, List.suffix_rfl⟩
    · exact ⟨List.prefix_rfl, List.suffix_rfl⟩
    · rcases exec_cases he with ⟨rfl, -⟩ | ⟨c, -, rfl⟩ | ⟨h, -⟩
      · exact ⟨List.prefix_rfl, List.suffix_rfl⟩
      · exact ⟨List.prefix_rfl, List.suffix_rfl⟩
      · exact h.ports
  obtain ⟨⟨out, hout⟩, taken, htaken⟩ := hports
  exact ⟨⟨out, hout.symm⟩, taken, htaken.symm⟩

/-! ### Power-on -/

/-- Settles O56: the power-on state, and the invariants in an unconfigured core. -/
theorem powerOnState : Obligations.PowerOnState := by
  unfold Obligations.PowerOnState
  have hcfg : State.reset.cfg ≠ true := by decide
  refine ⟨rfl, rfl, rfl, rfl, rfl, rfl, reset_memories_wf, ?_, ?_, ?_⟩
  · exact ⟨fun h => absurd h hcfg, by decide, by decide, by decide, by decide, by decide, fun _ => rfl⟩
  · exact ⟨reset_memories_wf, fun h => absurd h hcfg⟩
  · exact ⟨rfl, fun h => absurd h hcfg⟩

/-! ### Invariants of every step -/

/-- A property of states that reads neither the command port nor the fault record is kept by every step, when every
effect keeps it. -/
theorem step_preserves {P : State → Prop} (hport : ∀ s ws, P s → P (s.setPort ws)) (hraise : ∀ s c, P s → P (s.raise c))
    (heffect : ∀ i s t, Effect i s t → ((∃ o b boot adapt, i = .init o b boot adapt) ∨ s.Ready) → P s → P t)
    {s t : State} (hs : P s) (hstep : step s = .next t) : P t := by
  rcases step_cases hstep with rfl | ⟨words, rest, -, rfl | rfl⟩ | ⟨i, words, rest, -, -, he⟩
  · exact hs
  · exact hport s rest hs
  · exact hraise _ _ (hport s rest hs)
  · rcases exec_cases he with ⟨rfl, -⟩ | ⟨c, -, rfl⟩ | ⟨h, hready⟩
    · exact hport s rest hs
    · exact hraise _ c (hport s rest hs)
    · exact heffect i _ t h hready (hport s rest hs)

theorem update_wf {s : State} (h : s.table.Wf) (c : Byte) : (s.update c).table.Wf :=
  update_table_induct (P := Table.Wf) (Q := fun _ => True) h (fun _ k ht _ => Table.insert_wf ht _ k)
    (fun _ k ht _ => Table.seen_wf ht _ k) (fun _ ht => Table.rescale_wf ht) (fun _ ht => Table.reset_wf ht _)
    (fun _ _ => trivial) fun _ _ => trivial

theorem memoryWf_iff {s : State} : s.MemoryWf ↔ s.table.Wf ∧ s.model.dist.wf = true := by
  simp only [State.MemoryWf, Table.Wf, and_assoc]

/-- Every effect keeps the memories canonical. -/
theorem StoreEffect.memoryWf {i : Instr} {s t : State} (h : StoreEffect i s t) (hs : s.MemoryWf) : t.MemoryWf := by
  rw [memoryWf_iff] at hs ⊢
  obtain ⟨ht, hd⟩ := hs
  cases h with
  | init _ _ _ eq => rw [eq]; exact ⟨afterInit_wf ht _ _, Memory.wf_clearBelow hd _⟩
  | keep _ table model => rw [table, model]; exact ⟨ht, hd⟩
  | insert _ _ table model => rw [table, model]; exact ⟨Table.insert_wf ht _ _, hd⟩
  | seen _ _ table model => rw [table, model]; exact ⟨Table.seen_wf ht _ _, hd⟩
  | rescale _ table model => rw [table, model]; exact ⟨Table.rescale_wf ht, hd⟩
  | reset _ table model => rw [table, model]; exact ⟨Table.reset_wf ht _, hd⟩
  | distribute low _ _ _ table model => rw [table, model]; exact ⟨ht, distribute_wf hd _ _ _ low⟩
  | update _ _ table model =>
    rw [table, model]
    refine ⟨update_wf ht _, ?_⟩
    rw [update_frame]; exact hd

/-- Settles O57: every effect keeps them canonical. -/
theorem memoriesStayCanonical : Obligations.MemoriesStayCanonical := by
  unfold Obligations.MemoriesStayCanonical
  exact fun s t hs hstep => step_preserves (fun _ _ h => h) (fun _ _ h => h) (fun _ _ _ h _ hm => h.store.memoryWf hm) hs
    hstep

end Sys2Proof.Machine

/-! ## The bounds of the registers

Every effect keeps the bounds of 10_state.md R23, R25, R33, R34, R37 and R53. -/

namespace Sys2Proof.Machine

/-! ### Unread bits -/

theorem decRenorm_rdCnt (n : Nat) {s : State} (h : s.bits.rdCnt.toNat ≤ 8) : (s.decRenorm n).bits.rdCnt.toNat ≤ 8 := by
  induction n generalizing s with
  | zero => exact h
  | succ n ih =>
    unfold State.decRenorm
    split
    · exact ih (s := s.decShift) (getBit_rdCnt h)
    · exact ih (s := s.decStraddle.decShift) (getBit_rdCnt (s := s.decStraddle) h)
    · exact h

theorem primeBits_rdCnt (n : Nat) {s : State} (h : s.bits.rdCnt.toNat ≤ 8) :
    (State.primeBits n s).bits.rdCnt.toNat ≤ 8 := by
  induction n generalizing s with
  | zero => exact h
  | succ n ih => exact ih (s := s.getBit.2.setDec _) (getBit_rdCnt h)

theorem checkTruncated_bits (s : State) : s.checkTruncated.bits = s.bits := by rw [State.checkTruncated_eq]

/-- Every effect keeps the number of unread bits at most 8 (10_state.md R53). -/
theorem Effect.rdCnt {i : Instr} {s t : State} (h : Effect i s t) (hs : s.bits.rdCnt.toNat ≤ 8) :
    t.bits.rdCnt.toNat ≤ 8 := by
  have heff := h
  have hwriter (hi : WriterCommand i) : t.bits.rdCnt.toNat ≤ 8 := by rw [(heff.writerKeeps hi).rdCnt]; exact hs
  cases h with
  | init => exact Nat.zero_le 8
  | mdlUpdate => rw [update_frame]; exact hs
  | encSym | encFinish | bitPut | bitFlush => exact hwriter (by simp [WriterCommand])
  | @decStart _ p _ prime =>
    have hprime : p = State.primeBits 32 s.startDecoder := prime
    have hcnt := primeBits_rdCnt 32 (s := s.startDecoder) hs
    rw [← hprime] at hcnt
    rw [checkTruncated_bits]
    exact hcnt
  | decSym =>
    rw [checkTruncated_bits]
    exact decRenorm_rdCnt _ hs
  | decTrailer => rw [checkTruncated_bits]; exact Nat.zero_le 8
  | bitGet => exact getBit_rdCnt hs
  | _ => exact hs

/-! ### The modeller's lists and runs -/

section Distribute

variable (m : Modeller) (t : Table) (hs : HashSel) (o : Nat) {ord : Int}

/-- A distribute keeps the visit list it starts from, or pushes the context of its order (41_modeller.md R181, R188). -/
theorem distribute_visit (h : -1 ≤ ord) :
    (m.distribute t hs o ord).visit = (if ord = (o : Int) then [] else m.visit) ∨
      ∃ n : Nat, ord = n ∧ n ≤ m.win.length ∧
        (m.distribute t hs o ord).visit = (if ord = (o : Int) then [] else m.visit) ++ [m.windowKey n] := by
  have hstart : (m.distStart (decide (ord = (o : Int)))).visit = if ord = (o : Int) then [] else m.visit := by
    rw [distStart_eq]; simp only [decide_eq_true_eq]
  rcases distribute_cases m t hs o h with ⟨-, e⟩ | ⟨n, -, -, e⟩ | ⟨n, hn, hle, -, e⟩ | ⟨n, hn, hle, -, e⟩ <;>
    rw [e, ← hstart]
  · rw [distFallback_frame]; exact .inl rfl
  · exact .inl rfl
  · exact .inr ⟨n, hn, hle, congrArg Modeller.visit (distPresent_frame _ _ _ _)⟩
  · exact .inr ⟨n, hn, hle, rfl⟩

/-- The running sum and the number of symbols of a scan do not depend on the array it writes. -/
theorem scan_run_congr (fv : Bitmap) (freq : Nat → Nat) (cs : List Nat) (acc : Scan) (d : Memory 32) :
    (cs.foldl (scanByte fv freq) { acc with dist := d }).run = (cs.foldl (scanByte fv freq) acc).run ∧
      (cs.foldl (scanByte fv freq) { acc with dist := d }).n = (cs.foldl (scanByte fv freq) acc).n := by
  induction cs generalizing acc d with
  | nil => exact ⟨rfl, rfl⟩
  | cons c cs ih =>
    have hstep : ∃ d', scanByte fv freq { acc with dist := d } c = { scanByte fv freq acc c with dist := d' } := by
      unfold scanByte
      split <;> exact ⟨_, rfl⟩
    obtain ⟨d', hd'⟩ := hstep
    rw [List.foldl_cons, List.foldl_cons, hd']
    exact ih _ d'

/-- R(ESCAPE) is not below L(ESCAPE) for a present context, whatever the array held (10_state.md R37). -/
theorem distPresent_runs (p : Key) :
    (m.distPresent t hs p).latestRun.toNat ≤ (m.distPresent t hs p).lastRun.toNat := by
  have hscan := scan_run_congr (t.followers hs p &&& m.excl) (t.childFreq hs p) (List.range 256)
    { dist := m.dist, dchk := m.dchk, excl := m.excl, run := 0, n := 0 } []
  obtain ⟨hrun, hn⟩ := hscan
  have hempty := distPresent_spec { m with dist := [] } t hs p rfl
  obtain ⟨-, -, -, hlatest, hlast, -⟩ := hempty
  have hlatestEq : (m.distPresent t hs p).latestRun = ({ m with dist := [] }.distPresent t hs p : Modeller).latestRun :=
    congrArg (BitVec.ofNat 32) hrun.symm
  have hlastEq : (m.distPresent t hs p).lastRun = ({ m with dist := [] }.distPresent t hs p : Modeller).lastRun :=
    congrArg₂ (fun run n => BitVec.ofNat 32 (run + max 1 n)) hrun.symm hn.symm
  rw [hlatestEq, hlastEq, hlatest, hlast]
  exact Nat.le_add_right _ _

theorem distribute_runs (h : -1 ≤ ord) (hm : m.latestRun.toNat ≤ m.lastRun.toNat) :
    (m.distribute t hs o ord).latestRun.toNat ≤ (m.distribute t hs o ord).lastRun.toNat := by
  rcases distribute_cases m t hs o h with ⟨-, e⟩ | ⟨n, -, -, e⟩ | ⟨n, -, -, -, e⟩ | ⟨n, -, -, -, e⟩ <;> rw [e]
  · rw [distFallback_frame, distStart_eq]; exact hm
  · exact Nat.zero_le 1
  · exact distPresent_runs _ t hs _
  · exact Nat.zero_le 1

end Distribute

/-- At most seven keys after a distribute that does not overflow the list (41_modeller.md R188, R200). -/
theorem distribute_visit_length {s : State} {ord : Int} (low : -1 ≤ ord) (fits : s.visitOverflows ord = false)
    (h7 : s.model.visit.length ≤ 7) :
    (s.model.distribute s.table s.build.hashSel s.order ord).visit.length ≤ 7 := by
  rcases distribute_visit s.model s.table s.build.hashSel s.order low with h | ⟨n, rfl, hle, h⟩
  · rw [h]; split
    · exact Nat.zero_le 7
    · exact h7
  · rw [h, List.length_append, List.length_singleton]
    split
    · exact Nat.le_add_left 1 6
    · rename_i hne
      have hroom : s.model.visit.length < 7 := by
        simpa [State.visitOverflows, visitMax, hne, hle] using fits
      omega

/-! ### The bounds -/

theorem SameParameters.configOk {s t : State} (same : SameParameters s t) (h : s.ConfigOk) : t.ConfigOk := by
  obtain ⟨o, b, boot, adapt, legal, fits, hconfig, hn, hm, hwin, hadapt⟩ := h
  refine ⟨o, b, boot, adapt, legal, ?_, same.config.trans hconfig, ?_, ?_, ?_, ?_⟩
  · rw [same.build]; exact fits
  · rw [same.sizes.1]; exact hn
  · rw [same.sizes.2]; exact hm
  · rw [same.h]; exact hwin
  · rw [same.adaptThr]; exact hadapt

/-- A configured window holds at least one byte (00_scope.md R8). -/
theorem State.ConfigOk.h_pos {s : State} (h : s.ConfigOk) : 0 < s.model.h.toNat := by
  obtain ⟨o, b, boot, adapt, legal, -, -, -, -, hwin, -⟩ := h
  rw [hwin]
  exact (windowSize_spec legal boot).2

/-- The parameters of the configuration, after every effect. -/
theorem StoreEffect.configOk {i : Instr} {s t : State} (h : StoreEffect i s t) (hs : s.cfg = true → s.ConfigOk)
    (ht : t.cfg = true) : t.ConfigOk := by
  rcases h.parameters with ⟨o, b, boot, adapt, -, legal, fits, rfl⟩ | hsame
  · exact configure_configOk legal fits
  · exact hsame.configOk (hs (hsame.cfg ▸ ht))

/-- The modeller's bounds (10_state.md R33, R34, R37). -/
def Modeller.Bounded (m : Modeller) : Prop :=
  m.win.length ≤ m.h.toNat ∧ m.visit.length ≤ 7 ∧ m.latestRun.toNat ≤ m.lastRun.toNat

theorem update_bounded {s : State} (h : s.model.Bounded) (hpos : 0 < s.model.h.toNat) (c : Byte) :
    (s.update c).model.Bounded := by
  obtain ⟨hwin, -, hrun⟩ := h
  have hlength := congrArg List.length (update_win s c)
  rw [List.length_append, List.length_singleton] at hlength
  rw [Modeller.Bounded, hlength, update_frame]
  refine ⟨?_, Nat.zero_le 7, hrun⟩
  dsimp only
  split
  · rw [List.length_drop]; omega
  · omega

/-- Every effect keeps them; an update runs in a configured core only. -/
theorem StoreEffect.modelBounded {i : Instr} {s t : State} (h : StoreEffect i s t) (hs : s.model.Bounded)
    (hpos : s.cfg = true → 0 < s.model.h.toNat) (hready : (∃ o b boot adapt, i = .init o b boot adapt) ∨ s.Ready) :
    t.model.Bounded := by
  cases h with
  | init _ _ _ eq => rw [eq]; exact ⟨Nat.zero_le _, Nat.zero_le 7, le_refl _⟩
  | distribute low _ fits _ _ model =>
    obtain ⟨hwin, hvisit, hrun⟩ := hs
    obtain ⟨hh, -, hkeep, -⟩ := distribute_frame s.model s.table s.build.hashSel s.order low
    rw [model, Modeller.Bounded, hh, hkeep]
    exact ⟨hwin, distribute_visit_length low fits hvisit, distribute_runs _ _ _ _ low hrun⟩
  | update command _ _ model =>
    subst command
    rcases hready with ⟨o, b, boot, adapt, hi⟩ | hready
    · cases hi
    · rw [model]; exact update_bounded hs (hpos hready.1) _
  | keep _ _ model | insert _ _ _ model | seen _ _ _ model | rescale _ _ model | reset _ _ model => rw [model]; exact hs

/-- The fault record's bounds (10_state.md R23). -/
def State.FaultBounded (s : State) : Prop :=
  (s.fault = true → 1 ≤ s.fcode.toNat ∧ s.fcode.toNat ≤ 13) ∧ (s.fault = false → s.fcode = 0#4)

theorem raise_faultBounded (s : State) (c : FaultCode) : (s.raise c).FaultBounded :=
  ⟨fun _ => faultNumber_range c, fun h => Bool.noConfusion h⟩

theorem Effect.faultBounded {i : Instr} {s t : State} (h : Effect i s t) (hs : s.FaultBounded) : t.FaultBounded := by
  rcases h.fault_cases with ⟨hfault, hcode⟩ | ⟨hfault, hcode⟩ | ⟨-, hfault, hcode, -⟩
  · rw [State.FaultBounded, hfault, hcode]; exact hs
  · exact ⟨fun hf => absurd (hfault.symm.trans hf) (by decide), fun _ => hcode⟩
  · exact ⟨fun _ => by rw [hcode]; decide, fun hf => absurd (hfault.symm.trans hf) (by decide)⟩

theorem bounded_iff {s : State} : s.Bounded ↔
    (s.cfg = true → s.ConfigOk) ∧ s.model.Bounded ∧ s.bits.rdCnt.toNat ≤ 8 ∧ s.FaultBounded := by
  unfold State.Bounded Modeller.Bounded State.FaultBounded
  tauto

/-- Settles O58: every effect keeps each group of bounds. -/
theorem boundsHold : Obligations.BoundsHold := by
  unfold Obligations.BoundsHold
  intro s t hs hstep
  refine step_preserves (fun _ _ h => h) (fun s c h => ?_) (fun i s t h hready hb => ?_) hs hstep
  · obtain ⟨hconfig, hmodel, hcnt, -⟩ := bounded_iff.1 h
    exact bounded_iff.2 ⟨hconfig, hmodel, hcnt, raise_faultBounded s c⟩
  · obtain ⟨hconfig, hmodel, hcnt, hfault⟩ := bounded_iff.1 hb
    exact bounded_iff.2 ⟨h.store.configOk hconfig, h.store.modelBounded hmodel (fun hc => (hconfig hc).h_pos) hready,
      h.rdCnt hcnt, h.faultBounded hfault⟩

end Sys2Proof.Machine

/-! ## The table's invariants

Every effect keeps the invariants of 40_table.md R138 in a configured core. -/

namespace Sys2Proof.Machine

/-- A pool of more than one bitmap, so that a reset leaves room for the root (00_scope.md R8). -/
theorem State.ConfigOk.m_pos {s : State} (h : s.ConfigOk) : 1 < s.table.m.toNat := by
  obtain ⟨o, b, boot, adapt, legal, -, -, -, hm, -⟩ := h
  obtain ⟨-, -, -, hpool⟩ := tableSlots_spec legal
  omega

/-- A configured order is at most 6 (00_scope.md R7). -/
theorem State.ConfigOk.order_le {s : State} (h : s.ConfigOk) : s.order ≤ 6 := by
  obtain ⟨o, b, boot, adapt, legal, -, hconfig, -⟩ := h
  obtain ⟨-, ho, -⟩ := configLegal_iff.1 legal
  rw [State.order, hconfig, configWord_order]
  exact ho

/-- The context of at most six bytes at the end of the window can be visited (41_modeller.md R180). -/
theorem visitable_windowKey (m : Modeller) {n : Nat} (h : n ≤ 6) : visitable (m.windowKey n) := by
  have hlen : (m.win.drop (m.win.length - n)).length ≤ n := by rw [List.length_drop]; omega
  refine ⟨legalKey_contextKey (by omega), ?_⟩
  rw [Modeller.windowKey, contextKey_eq, keyLen_mkKey (by omega)]
  omega

/-- An update keeps the table consistent, kicks, saturation, resets and replays included. -/
theorem update_consistent {s : State} (hwf : s.table.Wf) (hcons : s.table.Consistent s.build.hashSel)
    (hm : 1 < s.table.m.toNat) (hvisit : ∀ k ∈ s.model.visit, visitable k) (c : Byte) :
    (s.update c).table.Consistent s.build.hashSel := by
  have hall := update_table_induct (s := s) (c := c)
    (P := fun t => t.Wf ∧ t.Consistent s.build.hashSel ∧ 1 < t.m.toNat) (Q := fun k => k ≠ 0#64)
    ⟨hwf, hcons, hm⟩
    (fun t k ⟨hw, hc, hm⟩ hk =>
      ⟨Table.insert_wf hw _ k, (Table.insert_spec hw hc hk).1, (Table.insert_sizes t _ k).1.2 ▸ hm⟩)
    (fun t k ⟨hw, hc, hm⟩ hk =>
      ⟨Table.seen_wf hw _ k, Table.seen_consistent hw hc hk, (Table.seen_sizes t _ k).2 ▸ hm⟩)
    (fun t ⟨hw, hc, hm⟩ => ⟨Table.rescale_wf hw, Table.rescale_consistent hw hc, hm⟩)
    (fun t ⟨hw, hc, hm⟩ =>
      ⟨Table.reset_wf hw _, Table.reset_consistent hc.1 hm, (Table.reset_sizes t _).2 ▸ hm⟩)
    (fun _ _ => mkKey_ne_zero _ _) (fun k hk => legalKey_ne_zero (hvisit k hk).1)
  exact hall.2.1

/-- The keys a distribute leaves to visit (41_modeller.md R188). -/
theorem distribute_visitable {s : State} {ord : Int} (low : -1 ≤ ord) (high : ord ≤ (s.order : Int)) (ho : s.order ≤ 6)
    (hvisit : ∀ k ∈ s.model.visit, visitable k) :
    ∀ k ∈ (s.model.distribute s.table s.build.hashSel s.order ord).visit, visitable k := by
  have hbefore : ∀ k ∈ (if ord = (s.order : Int) then [] else s.model.visit), visitable k := by
    split
    · simp
    · exact hvisit
  rcases distribute_visit s.model s.table s.build.hashSel s.order low with h | ⟨n, rfl, -, h⟩
  · rw [h]; exact hbefore
  · rw [h]
    intro k hk
    rcases List.mem_append.1 hk with hk | hk
    · exact hbefore k hk
    · rw [List.mem_singleton.1 hk]
      exact visitable_windowKey _ (by omega)

/-- Every effect keeps the invariants of the table in a configured core. -/
theorem StoreEffect.tableConsistent {i : Instr} {s t : State} (h : StoreEffect i s t) (hs : s.TableConsistent) :
    t.TableConsistent := by
  obtain ⟨hwf, hcfg⟩ := hs
  have hwf' := (memoryWf_iff.1 hwf).1
  refine ⟨h.memoryWf hwf, fun ht => ⟨h.configOk (fun hc => (hcfg hc).1) ht, ?_⟩⟩
  cases h with
  | init _ legal fits eq =>
    rw [eq]
    exact ((configure_tableConsistent hwf legal fits).2 rfl).2
  | keep same table model =>
    rw [table, model, same.build]
    exact (hcfg (same.cfg ▸ ht)).2
  | insert legal same table model =>
    obtain ⟨-, hcons, hvisit⟩ := hcfg (same.cfg ▸ ht)
    rw [table, model, same.build]
    exact ⟨(Table.insert_spec hwf' hcons (legalKey_ne_zero legal)).1, hvisit⟩
  | seen legal same table model =>
    obtain ⟨-, hcons, hvisit⟩ := hcfg (same.cfg ▸ ht)
    rw [table, model, same.build]
    exact ⟨Table.seen_consistent hwf' hcons (legalKey_ne_zero legal), hvisit⟩
  | rescale same table model =>
    obtain ⟨-, hcons, hvisit⟩ := hcfg (same.cfg ▸ ht)
    rw [table, model, same.build]
    exact ⟨Table.rescale_consistent hwf' hcons, hvisit⟩
  | reset same table model =>
    obtain ⟨hconfig, hcons, hvisit⟩ := hcfg (same.cfg ▸ ht)
    rw [table, model, same.build]
    exact ⟨Table.reset_consistent hcons.1 hconfig.m_pos, hvisit⟩
  | distribute low high _ same table model =>
    obtain ⟨hconfig, hcons, hvisit⟩ := hcfg (same.cfg ▸ ht)
    rw [table, model, same.build]
    exact ⟨hcons, distribute_visitable low high hconfig.order_le hvisit⟩
  | update _ same table model =>
    obtain ⟨hconfig, hcons, hvisit⟩ := hcfg (same.cfg ▸ ht)
    rw [table, model, same.build]
    refine ⟨update_consistent hwf' hcons hconfig.m_pos hvisit _, ?_⟩
    rw [update_frame]; exact fun k hk => absurd hk List.not_mem_nil

/-- Settles O59: every effect keeps the invariants. -/
theorem tableStaysConsistent : Obligations.TableStaysConsistent := by
  unfold Obligations.TableStaysConsistent
  exact fun s t hs hstep => step_preserves (fun _ _ h => h) (fun _ _ h => h)
    (fun _ _ _ h _ hc => h.store.tableConsistent hc) hs hstep

end Sys2Proof.Machine

/-! ## The coders' invariants

Every effect keeps both coders renormalised, the decoder's value in its interval, and the distribution searchable
(42_coder.md R226, R244). -/

namespace Sys2Proof.Machine

/-! ### The distribution -/

/-- The distribution registers hold what both coders need: bounded entries, and every target found (10_state.md R39,
42_coder.md R242). -/
def Modeller.Usable (m : Modeller) : Prop := (∀ i ≤ 258, m.distAt i ≤ 33553920) ∧ m.Decodable

theorem Modeller.Usable.congr {m m' : Modeller} (h : m.Usable) (hdist : m'.dist = m.dist) (hdchk : m'.dchk = m.dchk) :
    m'.Usable := by
  have hat : m'.distAt = m.distAt := by funext i; rw [Modeller.distAt, hdist, Modeller.distAt]
  have hsearch : m'.search = m.search := by
    funext f
    have hanswers : m'.answers f = m.answers f := by
      funext c; rw [Modeller.answers, hdchk, hat, Modeller.answers]
    rw [Modeller.search, hanswers, hat, Modeller.search]
  rw [Modeller.Usable, Modeller.Decodable, hat, hsearch]
  exact h

/-- The all-zero distribution INIT leaves: no target, nothing to find. -/
theorem usable_of_clear {m : Modeller} (h : ∀ i ≤ 258, m.distAt i = 0) : m.Usable :=
  ⟨fun i hi => by rw [h i hi]; exact Nat.zero_le _, fun f hf => absurd (h 258 (le_refl _) ▸ hf) (Nat.not_lt_zero f)⟩

/-- Every effect keeps the distribution usable in a configured core, and its array canonical. -/
theorem StoreEffect.usable {i : Instr} {s t : State} (h : StoreEffect i s t) (hw : s.model.dist.wf = true)
    (hs : s.cfg = true → s.model.Usable) : t.model.dist.wf = true ∧ (t.cfg = true → t.model.Usable) := by
  cases h with
  | init _ _ _ eq =>
    rw [eq]
    refine ⟨Memory.wf_clearBelow hw _, fun _ => usable_of_clear fun i hi => ?_⟩
    have hclear : (s.model.dist.clearBelow distLen).read i = 0#32 :=
      (Memory.read_clearBelow _ _ _).trans (if_pos (by unfold distLen; omega))
    exact congrArg BitVec.toNat hclear
  | distribute low _ _ same _ model =>
    rw [model]
    refine ⟨distribute_wf hw _ _ _ low, fun hc => ?_⟩
    obtain ⟨hbound, -⟩ := hs (same.cfg ▸ hc)
    exact ⟨distribute_bounded hw hbound _ _ _ low, (distribute_searchable hw _ _ _ low).2.2⟩
  | update _ same _ model =>
    have hdist : t.model.dist = s.model.dist := by rw [model, update_frame]
    have hdchk : t.model.dchk = s.model.dchk := by rw [model, update_frame]
    exact ⟨hdist ▸ hw, fun hc => (hs (same.cfg ▸ hc)).congr hdist hdchk⟩
  | keep same _ model | insert _ same _ model | seen _ same _ model | rescale same _ model | reset same _ model =>
    rw [model]
    exact ⟨hw, fun hc => hs (same.cfg ▸ hc)⟩

/-! ### The encoder -/

theorem rangeOk_whole : rangeOk 0#64 top := by unfold rangeOk; decide

/-- The encoder's range after a symbol (42_coder.md R226). -/
theorem encodeInterval_range {s : State} (h : rangeOk s.enc.low s.enc.high) {l r t : Nat} (hl : l < r) (hr : r ≤ t)
    (ht : t ≤ 33553920) : rangeOk (s.encodeInterval l r t).enc.low (s.encodeInterval l r t).enc.high :=
  encRenorm_range renormFuel (s.setEnc { s.enc with low := narrowLow s.enc.low s.enc.high l t
                                                    high := narrowHigh s.enc.low s.enc.high r t })
    (narrow_spec h hl hr ht).1 width_pow

theorem Effect.encoderRange {i : Instr} {s t : State} (h : Effect i s t) (hm : s.model.Usable)
    (hs : rangeOk s.enc.low s.enc.high) : rangeOk t.enc.low t.enc.high := by
  have heff := h
  have hreader (hi : ReaderCommand i) : rangeOk t.enc.low t.enc.high := by rw [(heff.readerKeeps hi).enc]; exact hs
  cases h with
  | init => exact rangeOk_whole
  | encStart => exact rangeOk_whole
  | encSym _ _ freq =>
    obtain ⟨-, hlt, hle⟩ := Modeller.zeroFreq_eq_false_iff.1 freq
    exact encodeInterval_range hs hlt hle (hm.1 258 (le_refl _))
  | encFinish => rw [encFinishBits_enc]; exact hs
  | bitPut => rw [(putBit_frame s _).low, (putBit_frame s _).high]; exact hs
  | bitFlush => rw [(flushBits_frame s).low, (flushBits_frame s).high]; exact hs
  | mdlUpdate => rw [update_frame]; exact hs
  | decStart | decSym | decTrailer | bitGet => exact hreader (by simp [ReaderCommand])
  | _ => exact hs

/-! ### The decoder -/

/-- A renormalised interval with the value inside (42_coder.md R244). -/
def Decoder.InRange (d : Decoder) : Prop := rangeOk d.low d.high ∧ InInterval d

theorem Decoder.InRange.congr {d d' : Decoder} (h : d.InRange) (hlow : d'.low = d.low) (hhigh : d'.high = d.high)
    (hvalue : d'.value = d.value) : d'.InRange := by
  rw [Decoder.InRange, InInterval, hlow, hhigh, hvalue]; exact h

theorem shiftIn_lt {v : Reg} {k : Nat} (h : v.toNat < 2 ^ k) (b : Bool) : (shiftIn v b).toNat < 2 ^ (k + 1) := by
  have hpos : 1 ≤ 2 ^ k := Nat.one_le_two_pow
  have hbit : (flag64 b).toNat ≤ 1 := by cases b <;> decide
  rw [shiftIn, BitVec.toNat_or]
  refine Nat.or_lt_two_pow ?_ (by rw [Nat.pow_succ]; omega)
  have hmod : (v <<< 1).toNat ≤ v.toNat <<< 1 := by rw [BitVec.toNat_shiftLeft]; exact Nat.mod_le _ _
  rw [Nat.shiftLeft_eq] at hmod
  rw [Nat.pow_succ]; omega

/-- Priming leaves the range alone, and `n` bits below the value (42_coder.md R240). -/
theorem primeBits_dec (n : Nat) {s : State} {k : Nat} (h : s.dec.value.toNat < 2 ^ k) :
    (State.primeBits n s).dec.low = s.dec.low ∧ (State.primeBits n s).dec.high = s.dec.high ∧
      (State.primeBits n s).dec.value.toNat < 2 ^ (k + n) := by
  induction n generalizing s k with
  | zero => exact ⟨rfl, rfl, h⟩
  | succ n ih =>
    have hf := getBit_frame s
    have hnext : (shiftIn s.getBit.2.dec.value s.getBit.1).toNat < 2 ^ (k + 1) := by
      rw [hf.value]; exact shiftIn_lt h _
    obtain ⟨hlow, hhigh, hvalue⟩ := ih (s := s.getBit.2.setDec
      { s.getBit.2.dec with value := shiftIn s.getBit.2.dec.value s.getBit.1 }) hnext
    refine ⟨hlow.trans hf.low, hhigh.trans hf.high, ?_⟩
    rw [Nat.add_right_comm] at hvalue
    exact hvalue

/-- DEC_START leaves the whole range and a value of 32 bits (42_coder.md R240). -/
theorem startDecoder_inRange (s : State) : (State.primeBits 32 s.startDecoder).dec.InRange := by
  obtain ⟨hlow, hhigh, hvalue⟩ := primeBits_dec 32 (s := s.startDecoder) (k := 0) Nat.one_pos
  have hlow0 : s.startDecoder.dec.low = 0#64 := rfl
  have hhigh0 : s.startDecoder.dec.high = top := rfl
  rw [Decoder.InRange, InInterval, hlow, hhigh, hlow0, hhigh0]
  refine ⟨rangeOk_whole, Nat.zero_le _, ?_⟩
  have htop : top.toNat = 2 ^ 32 - 1 := by decide
  omega

/-- The decoder after a symbol (42_coder.md R243, R244). -/
theorem decodeInterval_inRange {s : State} (h : s.dec.InRange) {l r t : Nat} (hl : l ≤ s.dec.target t)
    (hr : s.dec.target t < r) (hle : r ≤ t) (ht : t ≤ 33553920) : (s.decodeInterval l r t).dec.InRange := by
  obtain ⟨hrange, hlow, -⟩ := h
  obtain ⟨hinterval, hvalue⟩ := narrowDec_inInterval hrange hlow hl hr hle ht
  exact decRenorm_range renormFuel _ hinterval hvalue width_pow

theorem trailerBytes_dec (n : Nat) (w : BitVec 32) (s : State) :
    (State.trailerBytes n w s).2.dec.low = s.dec.low ∧ (State.trailerBytes n w s).2.dec.high = s.dec.high ∧
      (State.trailerBytes n w s).2.dec.value = s.dec.value := by
  induction n generalizing w s with
  | zero => exact ⟨rfl, rfl, rfl⟩
  | succ n ih =>
    have hbyte : s.trailerByte.2.dec.low = s.dec.low ∧ s.trailerByte.2.dec.high = s.dec.high ∧
        s.trailerByte.2.dec.value = s.dec.value := by
      unfold State.trailerByte
      split
      · exact ⟨rfl, rfl, rfl⟩
      · cases hi : s.input with
        | nil => rw [State.inByte_nil hi]; exact ⟨rfl, rfl, rfl⟩
        | cons x xs => rw [State.inByte_cons hi]; exact ⟨rfl, rfl, rfl⟩
    obtain ⟨hlow, hhigh, hvalue⟩ := hbyte
    obtain ⟨ilow, ihigh, ivalue⟩ := ih ((w <<< 8) ||| s.trailerByte.1.setWidth 32) s.trailerByte.2
    exact ⟨ilow.trans hlow, ihigh.trans hhigh, ivalue.trans hvalue⟩

theorem Effect.decoderInRange {i : Instr} {s t : State} (h : Effect i s t) (hm : s.model.Usable) (hs : s.dec.InRange) :
    t.dec.InRange := by
  have heff := h
  have hwriter (hi : WriterCommand i) : t.dec.InRange := by rw [(heff.writerKeeps hi).dec]; exact hs
  cases h with
  | init => exact ⟨rangeOk_whole, Nat.zero_le _, Nat.zero_le _⟩
  | encSym | encFinish | bitPut | bitFlush => exact hwriter (by simp [WriterCommand])
  | mdlUpdate => rw [update_frame]; exact hs
  | @decStart _ p _ prime =>
    have hp : p.dec.InRange := by
      have hprime : p = State.primeBits 32 s.startDecoder := prime
      rw [hprime]; exact startDecoder_inRange s
    rw [checkTruncated_dec]
    exact hp.congr rfl rfl rfl
  | @decSym _ sym _ total found =>
    obtain ⟨hbound, hdecodable⟩ := hm
    have ⟨_, hlow, hhigh⟩ := hs
    obtain ⟨sym', hfound, -, hl, hr, hle⟩ := hdecodable _ (target_lt hlow hhigh (Nat.pos_of_ne_zero total))
    obtain rfl : sym = sym' := Option.some.inj (found.symm.trans hfound)
    rw [checkTruncated_dec]
    exact decodeInterval_inRange hs hl hr hle (hbound 258 (le_refl _))
  | @decTrailer _ r _ bytes =>
    obtain ⟨hlow, hhigh, hvalue⟩ := trailerBytes_dec (4 - s.dec.trailerFetched)
      (histBytes s.dec.hist s.dec.trailerFetched) s
    rw [← bytes] at hlow hhigh hvalue
    rw [checkTruncated_dec]
    exact hs.congr hlow hhigh hvalue
  | bitGet => exact hs.congr (getBit_frame s).low (getBit_frame s).high (getBit_frame s).value
  | _ => exact hs

/-! ### The invariant -/

theorem coderInRange_iff {s : State} : s.CoderInRange ↔ s.model.dist.wf = true ∧
    (s.cfg = true → rangeOk s.enc.low s.enc.high ∧ s.dec.InRange ∧ s.model.Usable) := by
  unfold State.CoderInRange Decoder.InRange InInterval Modeller.Usable
  simp only [and_assoc]

/-- Settles O60: every effect keeps the ranges and the distribution. -/
theorem codersStayInRange : Obligations.CodersStayInRange := by
  unfold Obligations.CodersStayInRange
  refine fun s t hs hstep => step_preserves (fun _ _ h => h) (fun _ _ h => h) (fun i s t h _ hc => ?_) hs hstep
  obtain ⟨hw, hcfg⟩ := coderInRange_iff.1 hc
  obtain ⟨hw', husable⟩ := h.store.usable hw fun hs => (hcfg hs).2.2
  refine coderInRange_iff.2 ⟨hw', fun ht => ?_⟩
  rcases h.store.parameters with ⟨o, b, boot, adapt, -, -, -, rfl⟩ | hsame
  · exact ⟨rangeOk_whole, ⟨rangeOk_whole, Nat.zero_le _, Nat.zero_le _⟩, husable ht⟩
  · obtain ⟨henc, hdec, hm⟩ := hcfg (hsame.cfg ▸ ht)
    exact ⟨h.encoderRange hm henc, h.decoderInRange hm hdec, husable ht⟩

end Sys2Proof.Machine
